-- ==== Sys2Proof/Word.lean ====
section
/-! DEFINITION. The two word types of the block (00_scope.md R8) and the type memory is held in. -/

namespace Sys2Proof

/-- `u8`, the data and register width (00_scope.md R8, `DATA_WIDTH`). -/
abbrev Byte := BitVec 8

/-- `u16`, the address and program-counter width (00_scope.md R8, `ADDR_WIDTH`). -/
abbrev Word := BitVec 16

/-- Memory: address and byte pairs, in the canonical form of `Memory.wf` (Machine/Memory.lean). -/
abbrev Machine.Memory := List Host.Cell

end Sys2Proof
end

