-- ==== Sys2Proof/Config.lean ====
section
/-! DEFINITION. The parameters of the block (00_scope.md R9) and its fixed constants. -/

namespace Sys2Proof

/-- The rows of 00_scope.md R9 that are marked "parameter", each with the default of that table; `INITIAL_MEMORY` is
the memory argument of `launch`. They stand in State as data, so that a statement over every state is a statement for
every value of every parameter (DESIGN CHOICE, notes/assumptions/1.md). -/
structure Params where
  /-- `SP_RESET`: the stack pointer after reset (92_eei_decisions.md D3). -/
  spReset : Byte := 0xFD
  /-- `START_PC`: a start address that replaces the reset vector (D15). -/
  startPc : Option Word := none
  /-- `LOAD_ADDR`: where the loader places a program. -/
  loadAddr : Word := 0x8000
  /-- `BRK_HALT_PC_ADVANCE`: whether PC is past the BRK byte when halted (D5). -/
  brkHaltPcAdvance : Bool := false
  /-- `JMP_IND_PAGE_WRAP`: whether JMP (ind) fetches its high byte within the pointer's page (D6). -/
  jmpIndPageWrap : Bool := true
  /-- `TSX_SETS_NZ`: whether TSX writes N and Z (90_conflicts.md C2, D18). -/
  tsxSetsNz : Bool := true
  /-- `BUS_READ`: what a read gives at an address that no device maps (20_memory.md R63, D23), a function of the address
  held as data: address and byte pairs read by `readByte`. The table gives no default; the empty list, 0x00 at every
  address, is the model's (DESIGN CHOICE, notes/assumptions/8.md). -/
  busRead : Machine.Memory := []
deriving DecidableEq, Repr

/-- Every parameter at the default of 00_scope.md R9. -/
def Params.defaults : Params := {}

/-- `MEM_SIZE` (R9): bytes in the address space. -/
def memSize : Nat := 65536

/-- `STACK_PAGE` (R9): the stack page's first address, 0x0100. -/
def stackBase : Word := 0x0100

/-- `RESET_VECTOR` (R9): the address of the vector's low byte; the high byte is at the next address. -/
def resetVector : Word := 0xFFFC

/-- `P_RESET` (R9): the status register after reset. -/
def pReset : Byte := 0x24

end Sys2Proof
end

