-- ==== Sys2Proof/Syntax.lean ====
section
/-! DEFINITION. The instructions as syntax: the addressing modes and mnemonics of the decode table (30_encoding.md
R81, R85), the operand forms with their operand bytes, and `Instr`, one constructor per mnemonic of
spec/opcode_table.json (a mnemonic's rows differ in the addressing mode, which is the constructor's argument), with
`ill` for the 105 ILL rows. -/

namespace Sys2Proof

/-- The addressing modes (30_encoding.md R81). NoneAddressing is split into its implied and accumulator forms, as
R81's table splits it; `indirect` is JMP's (90_conflicts.md C3). -/
inductive Mode where
  | implied | accumulator | immediate | zeroPage | zeroPageX | zeroPageY | absolute | absoluteX | absoluteY
  | indirectX | indirectY | relative | indirect
deriving DecidableEq, Repr

/-- The 56 documented mnemonics (00_scope.md R2, 30_encoding.md R85). -/
inductive Mnemonic where
  | LDA | LDX | LDY | STA | STX | STY
  | TAX | TAY | TXA | TYA | TSX | TXS
  | ADC | SBC | AND | ORA | EOR
  | ASL | LSR | ROL | ROR
  | CMP | CPX | CPY | BIT
  | INC | DEC | INX | DEX | INY | DEY
  | BCC | BCS | BEQ | BNE | BMI | BPL | BVC | BVS
  | CLC | SEC | CLI | SEI | CLD | SED | CLV
  | PHA | PLA | PHP | PLP
  | JSR | RTS | RTI | JMP | BRK | NOP
deriving DecidableEq, Repr

/-- A memory operand: one of the eight modes that give a data address (30_encoding.md R81; resolved by
40_addressing_sequencer.md R103 to R110), with its operand bytes. -/
inductive Addr where
  /-- ZeroPage: memory at `zp8`. -/
  | zp (z : Byte)
  /-- ZeroPageX: memory at `(zp8 + X) mod 256`. -/
  | zpX (z : Byte)
  /-- ZeroPageY: memory at `(zp8 + Y) mod 256`. -/
  | zpY (z : Byte)
  /-- Absolute: memory at `hi:lo`. -/
  | abs (w : Word)
  /-- AbsoluteX: memory at `hi:lo +16 X`. -/
  | absX (w : Word)
  /-- AbsoluteY: memory at `hi:lo +16 Y`. -/
  | absY (w : Word)
  /-- IndirectX: memory at the pointer held at `(zp8 + X) mod 256`. -/
  | indX (z : Byte)
  /-- IndirectY: memory at (the pointer held at `zp8`) `+16 Y`. -/
  | indY (z : Byte)
deriving DecidableEq, Repr

/-- A source operand: the immediate byte or a memory byte (40_addressing_sequencer.md R116). -/
inductive Source where
  | imm (v : Byte)
  | mem (m : Addr)
deriving DecidableEq, Repr

/-- The operand of a shift or rotate, both source and destination: A or a memory byte (R116, R117). -/
inductive Target where
  | acc
  | mem (m : Addr)
deriving DecidableEq, Repr

/-- JMP's operand: the target itself, or the pointer it is read from (49_stack_control.md R227). -/
inductive JumpOperand where
  | abs (w : Word)
  | ind (ptr : Word)
deriving DecidableEq, Repr

/-- The instructions of spec/opcode_table.json: one constructor per mnemonic; the row is fixed by the operand's mode.
A branch carries its displacement byte `rel8`; `ill` carries the undocumented opcode byte (30_encoding.md R88). -/
inductive Instr where
  | lda (o : Source) | ldx (o : Source) | ldy (o : Source)
  | sta (m : Addr) | stx (m : Addr) | sty (m : Addr)
  | tax | tay | txa | tya | tsx | txs
  | adc (o : Source) | sbc (o : Source) | and (o : Source) | ora (o : Source) | eor (o : Source)
  | asl (o : Target) | lsr (o : Target) | rol (o : Target) | ror (o : Target)
  | cmp (o : Source) | cpx (o : Source) | cpy (o : Source) | bit (m : Addr)
  | inc (m : Addr) | dec (m : Addr) | inx | dex | iny | dey
  | bcc (d : Byte) | bcs (d : Byte) | beq (d : Byte) | bne (d : Byte)
  | bmi (d : Byte) | bpl (d : Byte) | bvc (d : Byte) | bvs (d : Byte)
  | clc | sec | cli | sei | cld | sed | clv
  | pha | pla | php | plp
  | jsr (target : Word) | rts | rti | jmp (o : JumpOperand) | brk | nop
  | ill (op : Byte)
deriving DecidableEq, Repr

/-- The mode of a memory operand. -/
def Addr.mode : Addr → Mode
  | .zp _ => .zeroPage
  | .zpX _ => .zeroPageX
  | .zpY _ => .zeroPageY
  | .abs _ => .absolute
  | .absX _ => .absoluteX
  | .absY _ => .absoluteY
  | .indX _ => .indirectX
  | .indY _ => .indirectY

/-- The mode of a source operand. -/
def Source.mode : Source → Mode
  | .imm _ => .immediate
  | .mem m => m.mode

/-- The mode of a shift or rotate operand. -/
def Target.mode : Target → Mode
  | .acc => .accumulator
  | .mem m => m.mode

/-- The mode of JMP's operand. -/
def JumpOperand.mode : JumpOperand → Mode
  | .abs _ => .absolute
  | .ind _ => .indirect

/-- The addressing mode of an instruction (R85's mode column); an ILL row has none. -/
def Instr.mode : Instr → Option Mode
  | .lda o | .ldx o | .ldy o | .adc o | .sbc o | .and o | .ora o | .eor o | .cmp o | .cpx o | .cpy o => some o.mode
  | .sta m | .stx m | .sty m | .bit m | .inc m | .dec m => some m.mode
  | .asl o | .lsr o | .rol o | .ror o => some o.mode
  | .bcc _ | .bcs _ | .beq _ | .bne _ | .bmi _ | .bpl _ | .bvc _ | .bvs _ => some .relative
  | .jsr _ => some .absolute
  | .jmp o => some o.mode
  | .tax | .tay | .txa | .tya | .tsx | .txs | .inx | .dex | .iny | .dey => some .implied
  | .clc | .sec | .cli | .sei | .cld | .sed | .clv => some .implied
  | .pha | .pla | .php | .plp | .rts | .rti | .brk | .nop => some .implied
  | .ill _ => none

/-- The mnemonic of an instruction; `none` stands for the table's `ILL`. -/
def Instr.mnemonic : Instr → Option Mnemonic
  | .lda _ => some .LDA | .ldx _ => some .LDX | .ldy _ => some .LDY
  | .sta _ => some .STA | .stx _ => some .STX | .sty _ => some .STY
  | .tax => some .TAX | .tay => some .TAY | .txa => some .TXA
  | .tya => some .TYA | .tsx => some .TSX | .txs => some .TXS
  | .adc _ => some .ADC | .sbc _ => some .SBC | .and _ => some .AND | .ora _ => some .ORA | .eor _ => some .EOR
  | .asl _ => some .ASL | .lsr _ => some .LSR | .rol _ => some .ROL | .ror _ => some .ROR
  | .cmp _ => some .CMP | .cpx _ => some .CPX | .cpy _ => some .CPY | .bit _ => some .BIT
  | .inc _ => some .INC | .dec _ => some .DEC
  | .inx => some .INX | .dex => some .DEX | .iny => some .INY | .dey => some .DEY
  | .bcc _ => some .BCC | .bcs _ => some .BCS | .beq _ => some .BEQ | .bne _ => some .BNE
  | .bmi _ => some .BMI | .bpl _ => some .BPL | .bvc _ => some .BVC | .bvs _ => some .BVS
  | .clc => some .CLC | .sec => some .SEC | .cli => some .CLI | .sei => some .SEI
  | .cld => some .CLD | .sed => some .SED | .clv => some .CLV
  | .pha => some .PHA | .pla => some .PLA | .php => some .PHP | .plp => some .PLP
  | .jsr _ => some .JSR | .rts => some .RTS | .rti => some .RTI | .jmp _ => some .JMP
  | .brk => some .BRK | .nop => some .NOP
  | .ill _ => none

/-- The instruction length in bytes that a mode fixes (30_encoding.md R81, R90). -/
def Mode.length : Mode → Nat
  | .implied | .accumulator => 1
  | .immediate | .zeroPage | .zeroPageX | .zeroPageY | .indirectX | .indirectY | .relative => 2
  | .absolute | .absoluteX | .absoluteY | .indirect => 3

end Sys2Proof
end

