-- ==== Sys2Proof/WellFormed.lean ====
section
/-! DEFINITION. Which instruction terms stand for a row of the opcode table: each mnemonic's modes, from the "Encoding"
line of its rule (41_load_store.md to 49_stack_control.md), and the 105 undocumented bytes of 30_encoding.md R88. -/

namespace Sys2Proof

/-- The eight operand modes of the ALU group (43_arithmetic_logical.md; R140 and R180 list the same). -/
def aluModes : List Mode :=
  [.immediate, .zeroPage, .zeroPageX, .absolute, .absoluteX, .absoluteY, .indirectX, .indirectY]

/-- The modes of the shifts and rotates (44_shift_rotate.md). -/
def shiftModes : List Mode := [.accumulator, .zeroPage, .zeroPageX, .absolute, .absoluteX]

/-- The modes of each mnemonic: the "Encoding" line of its rule. -/
def Mnemonic.modes : Mnemonic → List Mode
  | .LDA | .ADC | .SBC | .AND | .ORA | .EOR | .CMP => aluModes
  | .LDX => [.immediate, .zeroPage, .zeroPageY, .absolute, .absoluteY]
  | .LDY => [.immediate, .zeroPage, .zeroPageX, .absolute, .absoluteX]
  | .STA => [.zeroPage, .zeroPageX, .absolute, .absoluteX, .absoluteY, .indirectX, .indirectY]
  | .STX => [.zeroPage, .zeroPageY, .absolute]
  | .STY => [.zeroPage, .zeroPageX, .absolute]
  | .ASL | .LSR | .ROL | .ROR => shiftModes
  | .CPX | .CPY => [.immediate, .zeroPage, .absolute]
  | .BIT => [.zeroPage, .absolute]
  | .INC | .DEC => [.zeroPage, .zeroPageX, .absolute, .absoluteX]
  | .BCC | .BCS | .BEQ | .BNE | .BMI | .BPL | .BVC | .BVS => [.relative]
  | .JSR => [.absolute]
  | .JMP => [.absolute, .indirect]
  | .TAX | .TAY | .TXA | .TYA | .TSX | .TXS | .INX | .DEX | .INY | .DEY => [.implied]
  | .CLC | .SEC | .CLI | .SEI | .CLD | .SED | .CLV => [.implied]
  | .PHA | .PLA | .PHP | .PLP | .RTS | .RTI | .BRK | .NOP => [.implied]

/-- The undocumented byte values 0x02 to 0x7F (30_encoding.md R88). -/
def undocumentedLow : List Byte :=
  [0x02, 0x03, 0x04, 0x07, 0x0B, 0x0C, 0x0F, 0x12, 0x13, 0x14, 0x17, 0x1A, 0x1B, 0x1C, 0x1F] ++
  [0x22, 0x23, 0x27, 0x2B, 0x2F, 0x32, 0x33, 0x34, 0x37, 0x3A, 0x3B, 0x3C, 0x3F] ++
  [0x42, 0x43, 0x44, 0x47, 0x4B, 0x4F, 0x52, 0x53, 0x54, 0x57, 0x5A, 0x5B, 0x5C, 0x5F] ++
  [0x62, 0x63, 0x64, 0x67, 0x6B, 0x6F, 0x72, 0x73, 0x74, 0x77, 0x7A, 0x7B, 0x7C, 0x7F]

/-- The undocumented byte values 0x80 to 0xFF (R88). -/
def undocumentedHigh : List Byte :=
  [0x80, 0x82, 0x83, 0x87, 0x89, 0x8B, 0x8F, 0x92, 0x93, 0x97, 0x9B, 0x9C, 0x9E, 0x9F] ++
  [0xA3, 0xA7, 0xAB, 0xAF, 0xB2, 0xB3, 0xB7, 0xBB, 0xBF] ++
  [0xC2, 0xC3, 0xC7, 0xCB, 0xCF, 0xD2, 0xD3, 0xD4, 0xD7, 0xDA, 0xDB, 0xDC, 0xDF] ++
  [0xE2, 0xE3, 0xE7, 0xEB, 0xEF, 0xF2, 0xF3, 0xF4, 0xF7, 0xFA, 0xFB, 0xFC, 0xFF]

/-- The 105 undocumented byte values (R88). -/
def undocumentedOpcodes : List Byte := undocumentedLow ++ undocumentedHigh

/-- The instruction is one the opcode table has: its mode is one of its mnemonic's modes, or it is `ill` with an
undocumented byte. The decoder gives only well-formed instructions. -/
def Instr.wellFormed : Instr → Bool
  | .lda o => Mnemonic.LDA.modes.contains o.mode
  | .ldx o => Mnemonic.LDX.modes.contains o.mode
  | .ldy o => Mnemonic.LDY.modes.contains o.mode
  | .sta m => Mnemonic.STA.modes.contains m.mode
  | .stx m => Mnemonic.STX.modes.contains m.mode
  | .sty m => Mnemonic.STY.modes.contains m.mode
  | .adc o => Mnemonic.ADC.modes.contains o.mode
  | .sbc o => Mnemonic.SBC.modes.contains o.mode
  | .and o => Mnemonic.AND.modes.contains o.mode
  | .ora o => Mnemonic.ORA.modes.contains o.mode
  | .eor o => Mnemonic.EOR.modes.contains o.mode
  | .asl o => Mnemonic.ASL.modes.contains o.mode
  | .lsr o => Mnemonic.LSR.modes.contains o.mode
  | .rol o => Mnemonic.ROL.modes.contains o.mode
  | .ror o => Mnemonic.ROR.modes.contains o.mode
  | .cmp o => Mnemonic.CMP.modes.contains o.mode
  | .cpx o => Mnemonic.CPX.modes.contains o.mode
  | .cpy o => Mnemonic.CPY.modes.contains o.mode
  | .bit m => Mnemonic.BIT.modes.contains m.mode
  | .inc m => Mnemonic.INC.modes.contains m.mode
  | .dec m => Mnemonic.DEC.modes.contains m.mode
  | .jmp o => Mnemonic.JMP.modes.contains o.mode
  | .bcc _ | .bcs _ | .beq _ | .bne _ | .bmi _ | .bpl _ | .bvc _ | .bvs _ => true
  | .jsr _ => true
  | .tax | .tay | .txa | .tya | .tsx | .txs | .inx | .dex | .iny | .dey => true
  | .clc | .sec | .cli | .sei | .cld | .sed | .clv => true
  | .pha | .pla | .php | .plp | .rts | .rti | .brk | .nop => true
  | .ill op => undocumentedOpcodes.contains op

end Sys2Proof
end

