-- ==== Sys2Proof/Decode.lean ====
section
/-! DEFINITION. The decoder (30_encoding.md R80 to R90): the 256-entry decode table, from the grid of R86; the decoder
of a list of bytes, total, rejecting by name; and the encoder, written from the rows of R85. Also the byte-order and
sign-extension helpers of 00_scope.md R12, which both use. -/

namespace Sys2Proof

/-- `hi:lo`, the number `hi * 256 + lo` (00_scope.md R12). -/
def hiLo (hi lo : Byte) : Word := BitVec.ofNat 16 (hi.toNat * 256 + lo.toNat)

/-- `v[15:8]`, the high byte of a word (R10). -/
def hiByte (w : Word) : Byte := BitVec.ofNat 8 (w.toNat / 256)

/-- `v[7:0]`, the low byte of a word (R10). -/
def loByte (w : Word) : Byte := BitVec.ofNat 8 w.toNat

/-- `zext_16(b)` (R12). -/
def zext (b : Byte) : Word := BitVec.ofNat 16 b.toNat

/-- `sext_16(b)`: `b` if `b[7] = 0` and `b + 0xFF00` if `b[7] = 1` (R12). -/
def sext (b : Byte) : Word := if b.msb then zext b + 0xFF00 else zext b

/-! ## The decode table -/

/-- A documented cell of the grid. -/
def doc (m : Mnemonic) (k : Mode) : Option (Mnemonic × Mode) := some (m, k)

/-- An undocumented cell of the grid, `---` in R86: the entry `ILL` (R88). -/
def ILL : Option (Mnemonic × Mode) := none

/-- Row 0x0x of the grid (R86). -/
def gridRow0 : List (Option (Mnemonic × Mode)) :=
  [doc .BRK .implied, doc .ORA .indirectX, ILL, ILL,
   ILL, doc .ORA .zeroPage, doc .ASL .zeroPage, ILL,
   doc .PHP .implied, doc .ORA .immediate, doc .ASL .accumulator, ILL,
   ILL, doc .ORA .absolute, doc .ASL .absolute, ILL]

/-- Row 0x1x of the grid (R86). -/
def gridRow1 : List (Option (Mnemonic × Mode)) :=
  [doc .BPL .relative, doc .ORA .indirectY, ILL, ILL,
   ILL, doc .ORA .zeroPageX, doc .ASL .zeroPageX, ILL,
   doc .CLC .implied, doc .ORA .absoluteY, ILL, ILL,
   ILL, doc .ORA .absoluteX, doc .ASL .absoluteX, ILL]

/-- Row 0x2x of the grid (R86). -/
def gridRow2 : List (Option (Mnemonic × Mode)) :=
  [doc .JSR .absolute, doc .AND .indirectX, ILL, ILL,
   doc .BIT .zeroPage, doc .AND .zeroPage, doc .ROL .zeroPage, ILL,
   doc .PLP .implied, doc .AND .immediate, doc .ROL .accumulator, ILL,
   doc .BIT .absolute, doc .AND .absolute, doc .ROL .absolute, ILL]

/-- Row 0x3x of the grid (R86). -/
def gridRow3 : List (Option (Mnemonic × Mode)) :=
  [doc .BMI .relative, doc .AND .indirectY, ILL, ILL,
   ILL, doc .AND .zeroPageX, doc .ROL .zeroPageX, ILL,
   doc .SEC .implied, doc .AND .absoluteY, ILL, ILL,
   ILL, doc .AND .absoluteX, doc .ROL .absoluteX, ILL]

/-- Row 0x4x of the grid (R86). -/
def gridRow4 : List (Option (Mnemonic × Mode)) :=
  [doc .RTI .implied, doc .EOR .indirectX, ILL, ILL,
   ILL, doc .EOR .zeroPage, doc .LSR .zeroPage, ILL,
   doc .PHA .implied, doc .EOR .immediate, doc .LSR .accumulator, ILL,
   doc .JMP .absolute, doc .EOR .absolute, doc .LSR .absolute, ILL]

/-- Row 0x5x of the grid (R86). -/
def gridRow5 : List (Option (Mnemonic × Mode)) :=
  [doc .BVC .relative, doc .EOR .indirectY, ILL, ILL,
   ILL, doc .EOR .zeroPageX, doc .LSR .zeroPageX, ILL,
   doc .CLI .implied, doc .EOR .absoluteY, ILL, ILL,
   ILL, doc .EOR .absoluteX, doc .LSR .absoluteX, ILL]

/-- Row 0x6x of the grid (R86). -/
def gridRow6 : List (Option (Mnemonic × Mode)) :=
  [doc .RTS .implied, doc .ADC .indirectX, ILL, ILL,
   ILL, doc .ADC .zeroPage, doc .ROR .zeroPage, ILL,
   doc .PLA .implied, doc .ADC .immediate, doc .ROR .accumulator, ILL,
   doc .JMP .indirect, doc .ADC .absolute, doc .ROR .absolute, ILL]

/-- Row 0x7x of the grid (R86). -/
def gridRow7 : List (Option (Mnemonic × Mode)) :=
  [doc .BVS .relative, doc .ADC .indirectY, ILL, ILL,
   ILL, doc .ADC .zeroPageX, doc .ROR .zeroPageX, ILL,
   doc .SEI .implied, doc .ADC .absoluteY, ILL, ILL,
   ILL, doc .ADC .absoluteX, doc .ROR .absoluteX, ILL]

/-- Row 0x8x of the grid (R86). -/
def gridRow8 : List (Option (Mnemonic × Mode)) :=
  [ILL, doc .STA .indirectX, ILL, ILL,
   doc .STY .zeroPage, doc .STA .zeroPage, doc .STX .zeroPage, ILL,
   doc .DEY .implied, ILL, doc .TXA .implied, ILL,
   doc .STY .absolute, doc .STA .absolute, doc .STX .absolute, ILL]

/-- Row 0x9x of the grid (R86). -/
def gridRow9 : List (Option (Mnemonic × Mode)) :=
  [doc .BCC .relative, doc .STA .indirectY, ILL, ILL,
   doc .STY .zeroPageX, doc .STA .zeroPageX, doc .STX .zeroPageY, ILL,
   doc .TYA .implied, doc .STA .absoluteY, doc .TXS .implied, ILL,
   ILL, doc .STA .absoluteX, ILL, ILL]

/-- Row 0xAx of the grid (R86). -/
def gridRowA : List (Option (Mnemonic × Mode)) :=
  [doc .LDY .immediate, doc .LDA .indirectX, doc .LDX .immediate, ILL,
   doc .LDY .zeroPage, doc .LDA .zeroPage, doc .LDX .zeroPage, ILL,
   doc .TAY .implied, doc .LDA .immediate, doc .TAX .implied, ILL,
   doc .LDY .absolute, doc .LDA .absolute, doc .LDX .absolute, ILL]

/-- Row 0xBx of the grid (R86). -/
def gridRowB : List (Option (Mnemonic × Mode)) :=
  [doc .BCS .relative, doc .LDA .indirectY, ILL, ILL,
   doc .LDY .zeroPageX, doc .LDA .zeroPageX, doc .LDX .zeroPageY, ILL,
   doc .CLV .implied, doc .LDA .absoluteY, doc .TSX .implied, ILL,
   doc .LDY .absoluteX, doc .LDA .absoluteX, doc .LDX .absoluteY, ILL]

/-- Row 0xCx of the grid (R86). -/
def gridRowC : List (Option (Mnemonic × Mode)) :=
  [doc .CPY .immediate, doc .CMP .indirectX, ILL, ILL,
   doc .CPY .zeroPage, doc .CMP .zeroPage, doc .DEC .zeroPage, ILL,
   doc .INY .implied, doc .CMP .immediate, doc .DEX .implied, ILL,
   doc .CPY .absolute, doc .CMP .absolute, doc .DEC .absolute, ILL]

/-- Row 0xDx of the grid (R86). -/
def gridRowD : List (Option (Mnemonic × Mode)) :=
  [doc .BNE .relative, doc .CMP .indirectY, ILL, ILL,
   ILL, doc .CMP .zeroPageX, doc .DEC .zeroPageX, ILL,
   doc .CLD .implied, doc .CMP .absoluteY, ILL, ILL,
   ILL, doc .CMP .absoluteX, doc .DEC .absoluteX, ILL]

/-- Row 0xEx of the grid (R86). -/
def gridRowE : List (Option (Mnemonic × Mode)) :=
  [doc .CPX .immediate, doc .SBC .indirectX, ILL, ILL,
   doc .CPX .zeroPage, doc .SBC .zeroPage, doc .INC .zeroPage, ILL,
   doc .INX .implied, doc .SBC .immediate, doc .NOP .implied, ILL,
   doc .CPX .absolute, doc .SBC .absolute, doc .INC .absolute, ILL]

/-- Row 0xFx of the grid (R86). -/
def gridRowF : List (Option (Mnemonic × Mode)) :=
  [doc .BEQ .relative, doc .SBC .indirectY, ILL, ILL,
   ILL, doc .SBC .zeroPageX, doc .INC .zeroPageX, ILL,
   doc .SED .implied, doc .SBC .absoluteY, ILL, ILL,
   ILL, doc .SBC .absoluteX, doc .INC .absoluteX, ILL]

/-- The opcode map as a 16 by 16 grid: the row is the high nibble of the opcode, the column the low nibble (R86). -/
def opcodeGrid : List (List (Option (Mnemonic × Mode))) :=
  [gridRow0, gridRow1, gridRow2, gridRow3, gridRow4, gridRow5, gridRow6, gridRow7,
   gridRow8, gridRow9, gridRowA, gridRowB, gridRowC, gridRowD, gridRowE, gridRowF]

/-- Base cycles of a read (70_reset_and_hazards.md R268), informative. -/
def readCycles : Mode → Nat
  | .immediate => 2
  | .zeroPage => 3
  | .zeroPageX | .zeroPageY | .absolute | .absoluteX | .absoluteY => 4
  | .indirectY => 5
  | .indirectX => 6
  | .implied | .accumulator | .relative | .indirect => 0

/-- Base cycles of a store (R268), informative. -/
def storeCycles : Mode → Nat
  | .zeroPage => 3
  | .zeroPageX | .zeroPageY | .absolute => 4
  | .absoluteX | .absoluteY => 5
  | .indirectX | .indirectY => 6
  | .immediate | .implied | .accumulator | .relative | .indirect => 0

/-- Base cycles of a read-modify-write instruction (R268), informative. -/
def modifyCycles : Mode → Nat
  | .accumulator => 2
  | .zeroPage => 5
  | .zeroPageX | .absolute => 6
  | .absoluteX => 7
  | .immediate | .implied | .zeroPageY | .absoluteY | .indirectX | .indirectY | .relative | .indirect => 0

/-- The base cycle count of a table row (R268), informative: no step reads it. A pair that is no row gives 0. -/
def baseCycles (m : Mnemonic) (k : Mode) : Nat :=
  match m with
  | .LDA | .LDX | .LDY | .ADC | .SBC | .AND | .ORA | .EOR | .CMP | .CPX | .CPY | .BIT => readCycles k
  | .STA | .STX | .STY => storeCycles k
  | .ASL | .LSR | .ROL | .ROR | .INC | .DEC => modifyCycles k
  | .TAX | .TAY | .TXA | .TYA | .TSX | .TXS | .INX | .DEX | .INY | .DEY => 2
  | .CLC | .SEC | .CLI | .SEI | .CLD | .SED | .CLV | .NOP => 2
  | .BCC | .BCS | .BEQ | .BNE | .BMI | .BPL | .BVC | .BVS => 2
  | .PHA | .PHP => 3
  | .PLA | .PLP => 4
  | .JSR | .RTS | .RTI => 6
  | .JMP => match k with
    | .indirect => 5
    | .absolute | .implied | .accumulator | .immediate | .zeroPage | .zeroPageX | .zeroPageY | .absoluteX
    | .absoluteY | .indirectX | .indirectY | .relative => 3
  | .BRK => 7

/-- The page-cross penalty flag of a table row (R269), informative: the reads in AbsoluteX, AbsoluteY and IndirectY. -/
def pageCrossAddsCycle (m : Mnemonic) (k : Mode) : Bool :=
  [Mnemonic.LDA, .LDX, .LDY, .ADC, .SBC, .AND, .ORA, .EOR, .CMP].contains m &&
  [Mode.absoluteX, .absoluteY, .indirectY].contains k

/-- A decode entry (R84). -/
structure DecodeEntry where
  opcode : Byte
  mnemonic : Mnemonic
  mode : Mode
  /-- `instruction_bytes`. -/
  bytes : Nat
  /-- `base_cycles`, timing only. -/
  baseCycles : Nat
  /-- `page_cross_adds_cycle`, timing only. -/
  pageCrossAddsCycle : Bool
deriving DecidableEq, Repr

/-- The decoder of an opcode byte, total over the 256 values (R83); `none` is the entry `ILL` (R88). -/
def decodeEntry (op : Byte) : Option DecodeEntry :=
  match (opcodeGrid.getD (op.toNat / 16) []).getD (op.toNat % 16) ILL with
  | none => none
  | some (m, k) =>
    some { opcode := op, mnemonic := m, mode := k, bytes := k.length, baseCycles := baseCycles m k,
           pageCrossAddsCycle := pageCrossAddsCycle m k }

/-! ## From bytes to an instruction -/

/-- The memory operand of a mode, from the operand bytes (R82); `none` for a mode that gives no data address. -/
def addrOf (k : Mode) (b1 b2 : Byte) : Option Addr :=
  match k with
  | .zeroPage => some (.zp b1)
  | .zeroPageX => some (.zpX b1)
  | .zeroPageY => some (.zpY b1)
  | .absolute => some (.abs (hiLo b2 b1))
  | .absoluteX => some (.absX (hiLo b2 b1))
  | .absoluteY => some (.absY (hiLo b2 b1))
  | .indirectX => some (.indX b1)
  | .indirectY => some (.indY b1)
  | .implied | .accumulator | .immediate | .relative | .indirect => none

/-- The source operand of a mode: the immediate byte, or a memory operand. -/
def sourceOf (k : Mode) (b1 b2 : Byte) : Option Source :=
  if k = .immediate then some (.imm b1) else (addrOf k b1 b2).map .mem

/-- The operand of a shift or rotate: the accumulator, or a memory operand. -/
def targetOf (k : Mode) (b1 b2 : Byte) : Option Target :=
  if k = .accumulator then some .acc else (addrOf k b1 b2).map .mem

/-- JMP's operand: the target, or the pointer it is read from. -/
def jumpOperandOf (k : Mode) (b1 b2 : Byte) : Option JumpOperand :=
  if k = .indirect then some (.ind (hiLo b2 b1)) else
  if k = .absolute then some (.abs (hiLo b2 b1)) else none

/-- The instruction of a mnemonic and mode with its operand bytes; a byte the mode does not have is not looked at. -/
def buildInstr (m : Mnemonic) (k : Mode) (b1 b2 : Byte) : Option Instr :=
  match m with
  | .LDA => (sourceOf k b1 b2).map .lda
  | .LDX => (sourceOf k b1 b2).map .ldx
  | .LDY => (sourceOf k b1 b2).map .ldy
  | .STA => (addrOf k b1 b2).map .sta
  | .STX => (addrOf k b1 b2).map .stx
  | .STY => (addrOf k b1 b2).map .sty
  | .TAX => some .tax
  | .TAY => some .tay
  | .TXA => some .txa
  | .TYA => some .tya
  | .TSX => some .tsx
  | .TXS => some .txs
  | .ADC => (sourceOf k b1 b2).map .adc
  | .SBC => (sourceOf k b1 b2).map .sbc
  | .AND => (sourceOf k b1 b2).map .and
  | .ORA => (sourceOf k b1 b2).map .ora
  | .EOR => (sourceOf k b1 b2).map .eor
  | .ASL => (targetOf k b1 b2).map .asl
  | .LSR => (targetOf k b1 b2).map .lsr
  | .ROL => (targetOf k b1 b2).map .rol
  | .ROR => (targetOf k b1 b2).map .ror
  | .CMP => (sourceOf k b1 b2).map .cmp
  | .CPX => (sourceOf k b1 b2).map .cpx
  | .CPY => (sourceOf k b1 b2).map .cpy
  | .BIT => (addrOf k b1 b2).map .bit
  | .INC => (addrOf k b1 b2).map .inc
  | .DEC => (addrOf k b1 b2).map .dec
  | .INX => some .inx
  | .DEX => some .dex
  | .INY => some .iny
  | .DEY => some .dey
  | .BCC => some (.bcc b1)
  | .BCS => some (.bcs b1)
  | .BEQ => some (.beq b1)
  | .BNE => some (.bne b1)
  | .BMI => some (.bmi b1)
  | .BPL => some (.bpl b1)
  | .BVC => some (.bvc b1)
  | .BVS => some (.bvs b1)
  | .CLC => some .clc
  | .SEC => some .sec
  | .CLI => some .cli
  | .SEI => some .sei
  | .CLD => some .cld
  | .SED => some .sed
  | .CLV => some .clv
  | .PHA => some .pha
  | .PLA => some .pla
  | .PHP => some .php
  | .PLP => some .plp
  | .JSR => some (.jsr (hiLo b2 b1))
  | .RTS => some .rts
  | .RTI => some .rti
  | .JMP => (jumpOperandOf k b1 b2).map .jmp
  | .BRK => some .brk
  | .NOP => some .nop

/-- The instruction an opcode byte and its operand bytes stand for. An undocumented opcode gives `ill` (R88). Every row
of the table builds an instruction, so the default of `getD` is never taken. -/
def assemble (op b1 b2 : Byte) : Instr :=
  match decodeEntry op with
  | none => .ill op
  | some e => (buildInstr e.mnemonic e.mode b1 b2).getD (.ill op)

/-- How many operand bytes follow an opcode (R90). `ILL` has no length: no operand byte is fetched (R88). -/
def operandCount (op : Byte) : Nat :=
  match decodeEntry op with
  | none => 0
  | some e => e.bytes - 1

/-- Why a list of bytes holds no instruction. -/
inductive DecodeError where
  /-- The list is empty: there is no opcode byte. -/
  | noOpcode
  /-- The list ends before the last operand byte of this opcode. -/
  | operandMissing (op : Byte)
deriving DecidableEq, Repr

/-- The instruction at the head of a list of bytes, and the bytes after it (R80, R81). Every opcode byte decodes; only
a list that is too short is rejected. -/
def decode : List Byte → Except DecodeError (Instr × List Byte)
  | [] => .error .noOpcode
  | op :: rest =>
    match operandCount op, rest with
    | 0, rest => .ok (assemble op 0 0, rest)
    | 1, b1 :: rest => .ok (assemble op b1 0, rest)
    | _ + 2, b1 :: b2 :: rest => .ok (assemble op b1 b2, rest)
    | _ + 1, _ => .error (.operandMissing op)

/-! ## The encoder -/

/-- The opcode bytes of each mnemonic, by mode: the rows of R85. -/
def Mnemonic.opcodes : Mnemonic → List (Mode × Byte)
  | .LDA =>
    [(.indirectX, 0xA1), (.zeroPage, 0xA5), (.immediate, 0xA9), (.absolute, 0xAD),
     (.indirectY, 0xB1), (.zeroPageX, 0xB5), (.absoluteY, 0xB9), (.absoluteX, 0xBD)]
  | .LDX =>
    [(.immediate, 0xA2), (.zeroPage, 0xA6), (.absolute, 0xAE), (.zeroPageY, 0xB6),
     (.absoluteY, 0xBE)]
  | .LDY =>
    [(.immediate, 0xA0), (.zeroPage, 0xA4), (.absolute, 0xAC), (.zeroPageX, 0xB4),
     (.absoluteX, 0xBC)]
  | .STA =>
    [(.indirectX, 0x81), (.zeroPage, 0x85), (.absolute, 0x8D), (.indirectY, 0x91),
     (.zeroPageX, 0x95), (.absoluteY, 0x99), (.absoluteX, 0x9D)]
  | .STX => [(.zeroPage, 0x86), (.absolute, 0x8E), (.zeroPageY, 0x96)]
  | .STY => [(.zeroPage, 0x84), (.absolute, 0x8C), (.zeroPageX, 0x94)]
  | .TAX => [(.implied, 0xAA)]
  | .TAY => [(.implied, 0xA8)]
  | .TXA => [(.implied, 0x8A)]
  | .TYA => [(.implied, 0x98)]
  | .TSX => [(.implied, 0xBA)]
  | .TXS => [(.implied, 0x9A)]
  | .ADC =>
    [(.indirectX, 0x61), (.zeroPage, 0x65), (.immediate, 0x69), (.absolute, 0x6D),
     (.indirectY, 0x71), (.zeroPageX, 0x75), (.absoluteY, 0x79), (.absoluteX, 0x7D)]
  | .SBC =>
    [(.indirectX, 0xE1), (.zeroPage, 0xE5), (.immediate, 0xE9), (.absolute, 0xED),
     (.indirectY, 0xF1), (.zeroPageX, 0xF5), (.absoluteY, 0xF9), (.absoluteX, 0xFD)]
  | .AND =>
    [(.indirectX, 0x21), (.zeroPage, 0x25), (.immediate, 0x29), (.absolute, 0x2D),
     (.indirectY, 0x31), (.zeroPageX, 0x35), (.absoluteY, 0x39), (.absoluteX, 0x3D)]
  | .ORA =>
    [(.indirectX, 0x01), (.zeroPage, 0x05), (.immediate, 0x09), (.absolute, 0x0D),
     (.indirectY, 0x11), (.zeroPageX, 0x15), (.absoluteY, 0x19), (.absoluteX, 0x1D)]
  | .EOR =>
    [(.indirectX, 0x41), (.zeroPage, 0x45), (.immediate, 0x49), (.absolute, 0x4D),
     (.indirectY, 0x51), (.zeroPageX, 0x55), (.absoluteY, 0x59), (.absoluteX, 0x5D)]
  | .ASL =>
    [(.zeroPage, 0x06), (.accumulator, 0x0A), (.absolute, 0x0E), (.zeroPageX, 0x16),
     (.absoluteX, 0x1E)]
  | .LSR =>
    [(.zeroPage, 0x46), (.accumulator, 0x4A), (.absolute, 0x4E), (.zeroPageX, 0x56),
     (.absoluteX, 0x5E)]
  | .ROL =>
    [(.zeroPage, 0x26), (.accumulator, 0x2A), (.absolute, 0x2E), (.zeroPageX, 0x36),
     (.absoluteX, 0x3E)]
  | .ROR =>
    [(.zeroPage, 0x66), (.accumulator, 0x6A), (.absolute, 0x6E), (.zeroPageX, 0x76),
     (.absoluteX, 0x7E)]
  | .CMP =>
    [(.indirectX, 0xC1), (.zeroPage, 0xC5), (.immediate, 0xC9), (.absolute, 0xCD),
     (.indirectY, 0xD1), (.zeroPageX, 0xD5), (.absoluteY, 0xD9), (.absoluteX, 0xDD)]
  | .CPX => [(.immediate, 0xE0), (.zeroPage, 0xE4), (.absolute, 0xEC)]
  | .CPY => [(.immediate, 0xC0), (.zeroPage, 0xC4), (.absolute, 0xCC)]
  | .BIT => [(.zeroPage, 0x24), (.absolute, 0x2C)]
  | .INC => [(.zeroPage, 0xE6), (.absolute, 0xEE), (.zeroPageX, 0xF6), (.absoluteX, 0xFE)]
  | .DEC => [(.zeroPage, 0xC6), (.absolute, 0xCE), (.zeroPageX, 0xD6), (.absoluteX, 0xDE)]
  | .INX => [(.implied, 0xE8)]
  | .DEX => [(.implied, 0xCA)]
  | .INY => [(.implied, 0xC8)]
  | .DEY => [(.implied, 0x88)]
  | .BCC => [(.relative, 0x90)]
  | .BCS => [(.relative, 0xB0)]
  | .BEQ => [(.relative, 0xF0)]
  | .BNE => [(.relative, 0xD0)]
  | .BMI => [(.relative, 0x30)]
  | .BPL => [(.relative, 0x10)]
  | .BVC => [(.relative, 0x50)]
  | .BVS => [(.relative, 0x70)]
  | .CLC => [(.implied, 0x18)]
  | .SEC => [(.implied, 0x38)]
  | .CLI => [(.implied, 0x58)]
  | .SEI => [(.implied, 0x78)]
  | .CLD => [(.implied, 0xD8)]
  | .SED => [(.implied, 0xF8)]
  | .CLV => [(.implied, 0xB8)]
  | .PHA => [(.implied, 0x48)]
  | .PLA => [(.implied, 0x68)]
  | .PHP => [(.implied, 0x08)]
  | .PLP => [(.implied, 0x28)]
  | .JSR => [(.absolute, 0x20)]
  | .RTS => [(.implied, 0x60)]
  | .RTI => [(.implied, 0x40)]
  | .JMP => [(.absolute, 0x4C), (.indirect, 0x6C)]
  | .BRK => [(.implied, 0x00)]
  | .NOP => [(.implied, 0xEA)]

/-- The opcode byte of a mnemonic and mode (R85); `none` if the table has no such row. -/
def opcodeFor (m : Mnemonic) (k : Mode) : Option Byte := m.opcodes.lookup k

/-- The operand bytes of a memory operand, low byte first (R81, R82). -/
def Addr.bytes : Addr → List Byte
  | .zp z | .zpX z | .zpY z | .indX z | .indY z => [z]
  | .abs w | .absX w | .absY w => [loByte w, hiByte w]

/-- The operand bytes of a source operand. -/
def Source.bytes : Source → List Byte
  | .imm v => [v]
  | .mem m => m.bytes

/-- The operand bytes of a shift or rotate operand. -/
def Target.bytes : Target → List Byte
  | .acc => []
  | .mem m => m.bytes

/-- The operand bytes of an instruction. -/
def Instr.operandBytes : Instr → List Byte
  | .lda o | .ldx o | .ldy o | .adc o | .sbc o | .and o | .ora o | .eor o | .cmp o | .cpx o | .cpy o => o.bytes
  | .sta m | .stx m | .sty m | .bit m | .inc m | .dec m => m.bytes
  | .asl o | .lsr o | .rol o | .ror o => o.bytes
  | .bcc d | .bcs d | .beq d | .bne d | .bmi d | .bpl d | .bvc d | .bvs d => [d]
  | .jsr w | .jmp (.abs w) | .jmp (.ind w) => [loByte w, hiByte w]
  | .tax | .tay | .txa | .tya | .tsx | .txs | .inx | .dex | .iny | .dey => []
  | .clc | .sec | .cli | .sei | .cld | .sed | .clv => []
  | .pha | .pla | .php | .plp | .rts | .rti | .brk | .nop => []
  | .ill _ => []

/-- The opcode byte of an instruction; `none` if no row of the table has its mode. -/
def Instr.opcode : Instr → Option Byte
  | .ill op => if undocumentedOpcodes.contains op then some op else none
  | i =>
    match i.mnemonic, i.mode with
    | some m, some k => opcodeFor m k
    | _, _ => none

/-- The bytes of an instruction: the opcode byte, then the operand bytes (R80); `none` if it is not well formed. -/
def encode (i : Instr) : Option (List Byte) := i.opcode.map (· :: i.operandBytes)

/-- The instruction length (R81, R90). `ill` has none in the spec; its one byte, the opcode byte, is counted. -/
def Instr.length (i : Instr) : Nat :=
  match i.mode with
  | some k => k.length
  | none => 1

/-! ## Table words -/

/-- The three bytes, lowest address first, of an instruction of `nbits` bits whose bits are `w`, bit 0 the least
significant bit of the first byte; the bits from `nbits` up are 0. -/
def tableBytes (nbits w : Nat) : List Byte :=
  let v := w % 2 ^ nbits
  [BitVec.ofNat 8 v, BitVec.ofNat 8 (v / 256), BitVec.ofNat 8 (v / 65536)]

/-- The instruction the decoder reads from an instruction whose bits are `w`. -/
def decodeTableWord (nbits w : Nat) : Option Instr :=
  match decode (tableBytes nbits w) with
  | .ok (i, _) => some i
  | .error _ => none

end Sys2Proof
end

