-- ==== Sys2Proof/Machine/Memory.lean ====
section
/-! DEFINITION. The byte array behind the bus (20_memory.md R62, R63): a list of (address, byte) pairs in one canonical
form, its read and its write. -/

namespace Sys2Proof.Machine

/-- What an address that is not listed reads as. The spec gives no initial contents (`INITIAL_MEMORY`, R70, D11);
0x00 is the model's (DESIGN CHOICE, unsafe: notes/assumptions/2.md). Any other contents are a list of pairs. -/
def unlistedByte : Byte := 0x00

/-- The byte at an address. -/
def readByte (m : Memory) (a : Nat) : Byte :=
  match m with
  | [] => unlistedByte
  | (k, v) :: rest => if k = a then v else readByte rest a

/-- Memory without an entry at `a`: `a` then reads as unlisted. -/
def eraseByte (m : Memory) (a : Nat) : Memory :=
  match m with
  | [] => []
  | (k, u) :: rest => if k = a then eraseByte rest a else (k, u) :: eraseByte rest a

/-- Memory with the entry `(a, v)` in its place by address. -/
def insertByte (m : Memory) (a : Nat) (v : Byte) : Memory :=
  match m with
  | [] => [(a, v)]
  | (k, u) :: rest =>
    if a < k then (a, v) :: (k, u) :: rest
    else if a = k then (a, v) :: rest
    else (k, u) :: insertByte rest a v

/-- Memory with the byte at `a` replaced by `v`, in canonical form again. -/
def writeByte (m : Memory) (a : Nat) (v : Byte) : Memory :=
  if v = unlistedByte then eraseByte m a else insertByte m a v

/-- The pairs stand at strictly rising addresses, all at `low` or above and inside the address space, and none holds
what an unlisted address reads as. -/
def canonicalFrom (low : Nat) (m : Memory) : Bool :=
  match m with
  | [] => true
  | (k, v) :: rest => decide (low ≤ k) && decide (k < memSize) && decide (v ≠ unlistedByte) && canonicalFrom (k + 1) rest

/-- The canonical form: equal memories are equal lists. -/
def Memory.wf (m : Memory) : Bool := canonicalFrom 0 m

/-- `write_u16(a, w)` of the bus side: the low byte first (20_memory.md R60, R61). -/
def writeWord (m : Memory) (a w : Word) : Memory := writeByte (writeByte m a.toNat (loByte w)) (a + 1).toNat (hiByte w)

/-- `bs` written at `a`, `a +16 1`, … in this order (70_reset_and_hazards.md R261, the loader's writes). -/
def writeBytes (m : Memory) (a : Word) (bs : List Byte) : Memory :=
  match bs with
  | [] => m
  | b :: rest => writeBytes (writeByte m a.toNat b) (a + 1) rest

end Sys2Proof.Machine
end

