-- ==== Sys2Proof/Machine/State.lean ====
section
/-! DEFINITION. The machine's state as plain data (10_state.md), the state right after reset (R55), and the reasons a
step could stop. -/

namespace Sys2Proof.Machine

/-- The run state of the dispatcher (10_state.md R52). -/
inductive RunState where
  | running
  /-- Entered by BRK (60_exceptions.md R242). Terminal. -/
  | halted
  /-- Entered by IllegalOpcode: the opcode byte and the address it was fetched from (R241). Terminal. -/
  | faulted (op : Byte) (addr : Word)
deriving DecidableEq, Repr

/-- One bus transaction: one byte read or written (20_memory.md R66). -/
inductive BusEvent where
  | read (addr : Word) (v : Byte)
  | write (addr : Word) (v : Byte)
deriving DecidableEq, Repr

/-- The state of the block and of the memory behind its bus. -/
structure State where
  /-- The accumulator `A` (R31). -/
  a : Byte
  /-- `X`, index_x (R32). -/
  x : Byte
  /-- `Y`, index_y (R33). -/
  y : Byte
  /-- `SP`, the offset into the stack page (R35). -/
  sp : Byte
  /-- `PC`, the address of the next instruction (R36). -/
  pc : Word
  /-- `P` as it is stored (R40): read it by `getP` and write it by `setP`, which hold bit 5 at 1 (R41). -/
  p : Byte
  /-- The run state (R52). -/
  runState : RunState
  /-- The 64 KiB array behind the bus (20_memory.md R62), canonical (`Memory.wf`). -/
  mem : Memory
  /-- The bus transactions of the latest step taken while Running, or of the reset, in order (20_memory.md R66;
  how long they are kept is the model's choice, notes/assumptions/4.md). -/
  bus : List BusEvent
  /-- The parameters of 00_scope.md R9: the model's own field, which no step writes (notes/assumptions/1.md). -/
  params : Params
deriving DecidableEq, Repr

/-- Reasons a step could stop with a fault of the model. There is none: every bus access succeeds (20_memory.md R63),
no handler can fail (40_addressing_sequencer.md R124), and IllegalOpcode is a next state whose run state is `faulted`
(60_exceptions.md R241; notes/assumptions/6.md). -/
inductive Fault where
deriving DecidableEq, Repr

/-- Reasons an instruction has no meaning in the model. -/
inductive Refusal where
  /-- The instruction has no meaning yet. No arm of `exec` raises it. Safe: nothing is claimed of the instruction. -/
  | notModelled (mnemonic : String)
deriving DecidableEq, Repr

/-- The machine right after reset (10_state.md R55, 70_reset_and_hazards.md R262) with the default parameters and
nothing listed in memory: PC is the reset vector's word, here read from unlisted bytes, and the bus holds the reset's
two vector reads. No program is loaded (notes/assumptions/3.md). -/
def State.reset : State where
  a := 0x00
  x := 0x00
  y := 0x00
  sp := 0xFD
  pc := 0x0000
  p := 0x24
  runState := .running
  mem := []
  bus := [.read 0xFFFC 0x00, .read 0xFFFD 0x00]
  params := Params.defaults

end Sys2Proof.Machine
end

