-- ==== Sys2Proof/Machine/Ops.lean ====
section
/-! DEFINITION. The named operations over registers, status, bus and stack (00_scope.md R13, R14; 10_state.md R35, R41,
R42), the two terminal outcomes of a step (60_exceptions.md R241, R242), and the return of RTI (49_stack_control.md
R226). -/

namespace Sys2Proof.Machine

/-! ## Registers -/

/-- `A <- v`. -/
def setA (v : Byte) (s : State) : State := { s with a := v }

/-- `X <- v`. -/
def setX (v : Byte) (s : State) : State := { s with x := v }

/-- `Y <- v`. -/
def setY (v : Byte) (s : State) : State := { s with y := v }

/-- `SP <- v`. -/
def setSp (v : Byte) (s : State) : State := { s with sp := v }

/-- `PC <- target`. -/
def setPc (target : Word) (s : State) : State := { s with pc := target }

/-- `PC <- opc +16 len`, with PC at `opc` (40_addressing_sequencer.md R121). -/
def advance (len : Word) (s : State) : State := setPc (s.pc + len) s

/-! ## The status register -/

/-- The seven flags of P (10_state.md R40). -/
inductive Flag where
  | c | z | i | d | b | v | n
deriving DecidableEq, Repr

/-- The bit of P a flag is (R40). Bit 5 is no flag. -/
def flagBit : Flag → Nat
  | .c => 0
  | .z => 1
  | .i => 2
  | .d => 3
  | .b => 4
  | .v => 6
  | .n => 7

/-- Reading P: bit 5 reads as 1 (R41). -/
def getP (s : State) : Byte := s.p ||| 0x20

/-- Writing P: bit 5 is forced to 1 (R41). -/
def setP (v : Byte) (s : State) : State := { s with p := v ||| 0x20 }

/-- Testing one flag (R42). -/
def flag (f : Flag) (s : State) : Bool := (getP s).getLsbD (flagBit f)

/-- A byte with bit `k` replaced by `b`. -/
def withBit (p : Byte) (k : Nat) (b : Bool) : Byte :=
  if b then p ||| (1#8 <<< k) else p &&& ~~~(1#8 <<< k)

/-- Setting or clearing one flag (R42). -/
def setFlag (f : Flag) (b : Bool) (s : State) : State := setP (withBit (getP s) (flagBit f) b) s

/-! ## The bus -/

/-- Whether an address is mapped on the bus: the 64 KiB array backs every one of them (20_memory.md R63;
93_implementation_defined.md section 1, row 1; notes/assumptions/8.md). -/
def isMapped (_ : Word) : Bool := true

/-- What the bus gives at an address: the stored byte, or `BUS_READ` where nothing maps the address (R63, D23). -/
def busByte (a : Word) (s : State) : Byte :=
  match isMapped a with
  | true => readByte s.mem a.toNat
  | false => readByte s.params.busRead a.toNat

/-- `MemRead(addr, 1)`: one byte read, recorded as a transaction (00_scope.md R14, 20_memory.md R66). -/
def busRead (a : Word) (s : State) : Byte × State :=
  (busByte a s, { s with bus := s.bus ++ [.read a (busByte a s)] })

/-- `MemWrite(addr, 1, v)`: one byte write, recorded as a transaction (R14, R66). -/
def busWrite (a : Word) (v : Byte) (s : State) : State :=
  { s with mem := writeByte s.mem a.toNat v, bus := s.bus ++ [.write a v] }

/-- Two byte reads, the low byte's and then the high byte's, combined as `hi:lo`. -/
def readPair (loAddr hiAddr : Word) (s : State) : Word × State :=
  let (lo, s1) := busRead loAddr s
  let (hi, s2) := busRead hiAddr s1
  (hiLo hi lo, s2)

/-- `MemRead(addr, 2)` (R14; 20_memory.md R61, R64). -/
def memRead16 (a : Word) (s : State) : Word × State := readPair a (a + 1) s

/-- `ZpRead16(z)`: a pointer in page 0, its high byte at `wrap8(z + 1)` (R14). -/
def zpRead16 (z : Byte) (s : State) : Word × State := readPair (zext z) (zext (z + 1)) s

/-- The start of a step's transaction list (20_memory.md R66). -/
def clearBus (s : State) : State := { s with bus := [] }

/-! ## The stack -/

/-- `0x0100 + SP` (10_state.md R35). -/
def stackAddr (sp : Byte) : Word := stackBase + zext sp

/-- `Push(v)` (40_addressing_sequencer.md R114). -/
def push (v : Byte) (s : State) : State := setSp (s.sp - 1) (busWrite (stackAddr s.sp) v s)

/-- `Pop()` (40_addressing_sequencer.md R115; 90_conflicts.md C1). -/
def pop (s : State) : Byte × State := busRead (stackAddr (s.sp + 1)) (setSp (s.sp + 1) s)

/-! ## The terminal outcomes, and the return of RTI -/

/-- `raise IllegalOpcode(op, opc)`, with PC at `opc`: the one exception of the block (60_exceptions.md R241). It records
the opcode byte and its address, and changes nothing else: nothing is saved and no vector is read (R247). -/
def raiseIllegalOpcode (op : Byte) (s : State) : State := { s with runState := .faulted op s.pc }

/-- `halt`: the block enters Halted (60_exceptions.md R242). -/
def halt (s : State) : State := { s with runState := .halted }

/-- P after a pulled byte: bits 7, 6, 3, 2, 1 and 0 from the byte, bit 5 at 1, bit 4 (B) kept (49_stack_control.md R223;
92_eei_decisions.md D8). -/
def pulledP (p old : Byte) : Byte := (p &&& 0xCF) ||| (old &&& 0x10) ||| 0x20

/-- `P <- (Pop() & 0xCF) | (P & 0x10) | 0x20` (R223, R226). -/
def pullP (s : State) : State :=
  let (p, s1) := pop s
  setP (pulledP p (getP s1)) s1

/-- Pull a word, low byte first (R225, R226). -/
def pullWord (s : State) : Word × State :=
  let (lo, s1) := pop s
  let (hi, s2) := pop s1
  (hiLo hi lo, s2)

/-- The return of RTI: P, then PC, from the stack, with no `+1` (R226). The block has no trap to return from (R248). -/
def returnFromInterrupt (s : State) : State :=
  let (target, s1) := pullWord (pullP s)
  setPc target s1

end Sys2Proof.Machine
end

