-- ==== Sys2Proof/Machine/Operands.lean ====
section
/-! DEFINITION. The addressing-mode resolver (40_addressing_sequencer.md R100 to R113) and the operand accesses of the
instruction bodies (R116, R117). PC is at `opc` when a resolver is called; the operand bytes were fetched with the
instruction and stand in it. -/

namespace Sys2Proof.Machine

/-- The resolver's output: the effective address, the instruction length, and the page-cross signal, which is timing
only (R100, R113). -/
structure Resolved where
  ea : Word
  len : Word
  pcross : Bool
deriving DecidableEq, Repr

/-- Whether two addresses lie in different pages: the test of R113. -/
def crossesPage (a b : Word) : Bool := hiByte a != hiByte b

/-- A base address indexed with 16-bit wrap-around, with its page-cross signal (R107, R108, R110). -/
def indexed (base : Word) (index : Byte) (len : Word) : Resolved :=
  { ea := base + zext index, len := len, pcross := crossesPage base (base + zext index) }

/-- The resolver of the memory modes, with the pointer reads it makes. -/
def resolve (m : Addr) (s : State) : Resolved × State :=
  match m with
  | .zp z => ({ ea := zext z, len := 2, pcross := false }, s)              -- R103
  | .zpX z => ({ ea := zext (z + s.x), len := 2, pcross := false }, s)     -- R104
  | .zpY z => ({ ea := zext (z + s.y), len := 2, pcross := false }, s)     -- R105
  | .abs w => ({ ea := w, len := 3, pcross := false }, s)                  -- R106
  | .absX w => (indexed w s.x 3, s)                                        -- R107
  | .absY w => (indexed w s.y 3, s)                                        -- R108
  | .indX z =>                                                             -- R109
    let (ptr, s1) := zpRead16 (z + s.x) s
    ({ ea := ptr, len := 2, pcross := false }, s1)
  | .indY z =>                                                             -- R110
    let (ptr, s1) := zpRead16 z s
    (indexed ptr s.y 2, s1)

/-- The resolver of the Relative mode: the branch target, from the address after the branch (R111). -/
def resolveRelative (d : Byte) (s : State) : Resolved :=
  { ea := s.pc + 2 + sext d, len := 2, pcross := crossesPage (s.pc + 2) (s.pc + 2 + sext d) }

/-- Where JMP (ind) reads the high byte of its target (R112; `JMP_IND_PAGE_WRAP`, D6). -/
def pointerHighAddr (ptr : Word) (pageWrap : Bool) : Word :=
  if pageWrap then hiLo (hiByte ptr) (loByte ptr + 1) else ptr + 1

/-- The resolver of JMP's two modes (R106, R112). -/
def resolveJump (o : JumpOperand) (s : State) : Resolved × State :=
  match o with
  | .abs w => ({ ea := w, len := 3, pcross := false }, s)
  | .ind ptr =>
    let (target, s1) := readPair ptr (pointerHighAddr ptr s.params.jmpIndPageWrap) s
    ({ ea := target, len := 3, pcross := false }, s1)

/-- Resolve, advance PC, then `Operand()` (R116, R120). The immediate byte was read once, by the fetch at `opc +16 1`
(R102; notes/assumptions/5.md). -/
def loadSource (o : Source) (s : State) : Byte × State :=
  match o with
  | .imm v => (v, advance 2 s)
  | .mem m =>
    let (r, s1) := resolve m s
    busRead r.ea (advance r.len s1)

/-- Resolve, advance PC, then the one write of a store (R120; 41_load_store.md R143 to R145). -/
def storeAt (m : Addr) (v : Byte) (s : State) : State :=
  let (r, s1) := resolve m s
  busWrite r.ea v (advance r.len s1)

/-- Resolve, advance PC, then `Operand()` and `WriteBack(f operand)` (R116, R117, R120). Gives the operand as it was read. -/
def modifyTarget (o : Target) (f : Byte → Byte) (s : State) : Byte × State :=
  match o with
  | .acc => (s.a, setA (f s.a) (advance 1 s))
  | .mem m =>
    let (r, s1) := resolve m s
    let (v, s2) := busRead r.ea (advance r.len s1)
    (v, busWrite r.ea (f v) s2)

end Sys2Proof.Machine
end

