-- ==== Sys2Proof/Machine/Flags.lean ====
section
/-! DEFINITION. The ALU and every flag computation (00_scope.md R16; 40_addressing_sequencer.md R118, R119; the shift
rules of 44_shift_rotate.md; 45_compare_bit.md R183). -/

namespace Sys2Proof.Machine

/-- `SetZN(v)`: `P.Z <- (v = 0)` and `P.N <- v[7]` (00_scope.md R16). -/
def setZN (v : Byte) (s : State) : State := setFlag .n v.msb (setFlag .z (v == 0) s)

/-- What the adder gives (40_addressing_sequencer.md R118). -/
structure AddResult where
  r : Byte
  cout : Bool
  v : Bool
deriving DecidableEq, Repr

/-- `a + m + cin`, exactly, before any wrap. -/
def exactSum (a m : Byte) (cin : Bool) : Nat := a.toNat + m.toNat + cin.toNat

/-- `AddC(a, m, cin)` (R118). P.D is not read. -/
def addC (a m : Byte) (cin : Bool) : AddResult :=
  let r := BitVec.ofNat 8 (exactSum a m cin)
  { r := r, cout := decide (256 ≤ exactSum a m cin), v := a.msb == m.msb && r.msb != a.msb }

/-- A sum into A, with its flags (43_arithmetic_logical.md R160, R161). -/
def addToA (m : Byte) (s : State) : State :=
  let sum := addC s.a m (flag .c s)
  setZN sum.r (setFlag .v sum.v (setFlag .c sum.cout (setA sum.r s)))

/-- A logical result into A, with Z and N (R162 to R164). -/
def logicToA (r : Byte) (s : State) : State := setZN r (setA r s)

/-- `Compare(reg, m)` (40_addressing_sequencer.md R119). V is not written. -/
def compareReg (reg m : Byte) (s : State) : State :=
  setFlag .n (reg - m).msb (setFlag .z (reg - m == 0) (setFlag .c (decide (m.toNat ≤ reg.toNat)) s))

/-- The flags of BIT (45_compare_bit.md R183). -/
def bitTest (m : Byte) (s : State) : State :=
  setFlag .v (m.getLsbD 6) (setFlag .n (m.getLsbD 7) (setFlag .z (s.a &&& m == 0) s))

/-- `wrap8(v << 1)` (44_shift_rotate.md R170). -/
def aslByte (v : Byte) : Byte := v <<< 1

/-- `v >> 1` (R171). -/
def lsrByte (v : Byte) : Byte := v >>> 1

/-- `wrap8(v << 1) | P.C` (R172). -/
def rolByte (c : Bool) (v : Byte) : Byte := v <<< 1 ||| (BitVec.ofBool c).setWidth 8

/-- `(v >> 1) | (P.C << 7)` (R173). -/
def rorByte (c : Bool) (v : Byte) : Byte := v >>> 1 ||| ((BitVec.ofBool c).setWidth 8 <<< 7)

/-- The flags of a shift or rotate: C is the bit shifted out, Z and N come from the result (R170 to R173). -/
def shiftFlags (out : Bool) (r : Byte) (s : State) : State := setZN r (setFlag .c out s)

end Sys2Proof.Machine
end

