-- ==== Sys2Proof/Machine/Arithmetic.lean ====
section
/-! DEFINITION. Arithmetic and logical instructions (43_arithmetic_logical.md). -/

namespace Sys2Proof.Machine

/-- ADC: `A <- AddC(A, m, P.C)`, with C, V, Z and N (R160). -/
def execAdc (o : Source) (s : State) : Host.Outcome State Fault Refusal :=
  let (m, s1) := loadSource o s
  .next (addToA m s1)

/-- SBC: `A <- AddC(A, ~m, P.C)`, with C, V, Z and N (R161). -/
def execSbc (o : Source) (s : State) : Host.Outcome State Fault Refusal :=
  let (m, s1) := loadSource o s
  .next (addToA (~~~m) s1)

/-- AND: `A <- A & m; SetZN(A)` (R162). -/
def execAnd (o : Source) (s : State) : Host.Outcome State Fault Refusal :=
  let (m, s1) := loadSource o s
  .next (logicToA (s.a &&& m) s1)

/-- ORA: `A <- A | m; SetZN(A)` (R163). -/
def execOra (o : Source) (s : State) : Host.Outcome State Fault Refusal :=
  let (m, s1) := loadSource o s
  .next (logicToA (s.a ||| m) s1)

/-- EOR: `A <- A ^ m; SetZN(A)` (R164). -/
def execEor (o : Source) (s : State) : Host.Outcome State Fault Refusal :=
  let (m, s1) := loadSource o s
  .next (logicToA (s.a ^^^ m) s1)

end Sys2Proof.Machine
end

