-- ==== Sys2Proof/Machine/Branch.lean ====
section
/-! DEFINITION. Conditional branch instructions (47_branch.md). -/

namespace Sys2Proof.Machine

/-- The common branch: resolve the target, advance PC by 2, and take the target if the condition holds (R200). -/
def branch (cond : Bool) (d : Byte) (s : State) : State :=
  let r := resolveRelative d s
  if cond then setPc r.ea (advance r.len s) else advance r.len s

/-- BCC: branch if carry clear, `cond = (P.C = 0)` (R201). -/
def execBcc (d : Byte) (s : State) : Host.Outcome State Fault Refusal :=
  .next (branch (!flag .c s) d s)

/-- BCS: branch if carry set, `cond = (P.C = 1)` (R202). -/
def execBcs (d : Byte) (s : State) : Host.Outcome State Fault Refusal :=
  .next (branch (flag .c s) d s)

/-- BEQ: branch if equal, `cond = (P.Z = 1)` (R203). -/
def execBeq (d : Byte) (s : State) : Host.Outcome State Fault Refusal :=
  .next (branch (flag .z s) d s)

/-- BNE: branch if not equal, `cond = (P.Z = 0)` (R204). -/
def execBne (d : Byte) (s : State) : Host.Outcome State Fault Refusal :=
  .next (branch (!flag .z s) d s)

/-- BMI: branch if minus, `cond = (P.N = 1)` (R205). -/
def execBmi (d : Byte) (s : State) : Host.Outcome State Fault Refusal :=
  .next (branch (flag .n s) d s)

/-- BPL: branch if plus, `cond = (P.N = 0)` (R206). -/
def execBpl (d : Byte) (s : State) : Host.Outcome State Fault Refusal :=
  .next (branch (!flag .n s) d s)

/-- BVC: branch if overflow clear, `cond = (P.V = 0)` (R207). -/
def execBvc (d : Byte) (s : State) : Host.Outcome State Fault Refusal :=
  .next (branch (!flag .v s) d s)

/-- BVS: branch if overflow set, `cond = (P.V = 1)` (R208). -/
def execBvs (d : Byte) (s : State) : Host.Outcome State Fault Refusal :=
  .next (branch (flag .v s) d s)

end Sys2Proof.Machine
end

