-- ==== Sys2Proof/Machine/Compare.lean ====
section
/-! DEFINITION. Compare and bit-test instructions (45_compare_bit.md). -/

namespace Sys2Proof.Machine

/-- CMP: `Compare(A, m)` (R180). -/
def execCmp (o : Source) (s : State) : Host.Outcome State Fault Refusal :=
  let (m, s1) := loadSource o s
  .next (compareReg s.a m s1)

/-- CPX: `Compare(X, m)` (R181). -/
def execCpx (o : Source) (s : State) : Host.Outcome State Fault Refusal :=
  let (m, s1) := loadSource o s
  .next (compareReg s.x m s1)

/-- CPY: `Compare(Y, m)` (R182). -/
def execCpy (o : Source) (s : State) : Host.Outcome State Fault Refusal :=
  let (m, s1) := loadSource o s
  .next (compareReg s.y m s1)

/-- BIT: Z from `A & m`, N and V from bits 7 and 6 of m (R183). -/
def execBit (m : Addr) (s : State) : Host.Outcome State Fault Refusal :=
  let (v, s1) := loadSource (.mem m) s
  .next (bitTest v s1)

end Sys2Proof.Machine
end

