-- ==== Sys2Proof/Machine/FlagOps.lean ====
section
/-! DEFINITION. Flag instructions (48_flag.md). -/

namespace Sys2Proof.Machine

/-- CLC: `P.C <- 0` (R210). -/
def execClc (s : State) : Host.Outcome State Fault Refusal :=
  .next (setFlag .c false (advance 1 s))

/-- SEC: `P.C <- 1` (R211). -/
def execSec (s : State) : Host.Outcome State Fault Refusal :=
  .next (setFlag .c true (advance 1 s))

/-- CLI: `P.I <- 0` (R212). -/
def execCli (s : State) : Host.Outcome State Fault Refusal :=
  .next (setFlag .i false (advance 1 s))

/-- SEI: `P.I <- 1` (R213). -/
def execSei (s : State) : Host.Outcome State Fault Refusal :=
  .next (setFlag .i true (advance 1 s))

/-- CLD: `P.D <- 0` (R214). -/
def execCld (s : State) : Host.Outcome State Fault Refusal :=
  .next (setFlag .d false (advance 1 s))

/-- SED: `P.D <- 1` (R215). -/
def execSed (s : State) : Host.Outcome State Fault Refusal :=
  .next (setFlag .d true (advance 1 s))

/-- CLV: `P.V <- 0` (R216). -/
def execClv (s : State) : Host.Outcome State Fault Refusal :=
  .next (setFlag .v false (advance 1 s))

end Sys2Proof.Machine
end

