-- ==== Sys2Proof/Machine/IncDec.lean ====
section
/-! DEFINITION. Increment and decrement instructions (46_inc_dec.md). -/

namespace Sys2Proof.Machine

/-- INC: one read, then one write of `v +8 1`; SetZN (R190). -/
def execInc (m : Addr) (s : State) : Host.Outcome State Fault Refusal :=
  let (v, s1) := modifyTarget (.mem m) (· + 1) s
  .next (setZN (v + 1) s1)

/-- DEC: one read, then one write of `v -8 1`; SetZN (R191). -/
def execDec (m : Addr) (s : State) : Host.Outcome State Fault Refusal :=
  let (v, s1) := modifyTarget (.mem m) (· - 1) s
  .next (setZN (v - 1) s1)

/-- INX: `X <- X +8 1; SetZN(X)` (R192). -/
def execInx (s : State) : Host.Outcome State Fault Refusal :=
  .next (setZN (s.x + 1) (setX (s.x + 1) (advance 1 s)))

/-- DEX: `X <- X -8 1; SetZN(X)` (R193). -/
def execDex (s : State) : Host.Outcome State Fault Refusal :=
  .next (setZN (s.x - 1) (setX (s.x - 1) (advance 1 s)))

/-- INY: `Y <- Y +8 1; SetZN(Y)` (R194). -/
def execIny (s : State) : Host.Outcome State Fault Refusal :=
  .next (setZN (s.y + 1) (setY (s.y + 1) (advance 1 s)))

/-- DEY: `Y <- Y -8 1; SetZN(Y)` (R195). -/
def execDey (s : State) : Host.Outcome State Fault Refusal :=
  .next (setZN (s.y - 1) (setY (s.y - 1) (advance 1 s)))

end Sys2Proof.Machine
end

