-- ==== Sys2Proof/Machine/LoadStore.lean ====
section
/-! DEFINITION. Load and store instructions (41_load_store.md). -/

namespace Sys2Proof.Machine

/-- LDA: `m <- Operand(); A <- m; SetZN(m)` (R140). -/
def execLda (o : Source) (s : State) : Host.Outcome State Fault Refusal :=
  let (m, s1) := loadSource o s
  .next (setZN m (setA m s1))

/-- LDX: `m <- Operand(); X <- m; SetZN(m)` (R141). -/
def execLdx (o : Source) (s : State) : Host.Outcome State Fault Refusal :=
  let (m, s1) := loadSource o s
  .next (setZN m (setX m s1))

/-- LDY: `m <- Operand(); Y <- m; SetZN(m)` (R142). -/
def execLdy (o : Source) (s : State) : Host.Outcome State Fault Refusal :=
  let (m, s1) := loadSource o s
  .next (setZN m (setY m s1))

/-- STA: `MemWrite(ea, 1, A)` (R143). -/
def execSta (m : Addr) (s : State) : Host.Outcome State Fault Refusal :=
  .next (storeAt m s.a s)

/-- STX: `MemWrite(ea, 1, X)` (R144). -/
def execStx (m : Addr) (s : State) : Host.Outcome State Fault Refusal :=
  .next (storeAt m s.x s)

/-- STY: `MemWrite(ea, 1, Y)` (R145). -/
def execSty (m : Addr) (s : State) : Host.Outcome State Fault Refusal :=
  .next (storeAt m s.y s)

end Sys2Proof.Machine
end

