-- ==== Sys2Proof/Machine/Shift.lean ====
section
/-! DEFINITION. Shift and rotate instructions (44_shift_rotate.md). -/

namespace Sys2Proof.Machine

/-- ASL: shift left, bit 7 to C (R170). -/
def execAsl (o : Target) (s : State) : Host.Outcome State Fault Refusal :=
  let (v, s1) := modifyTarget o aslByte s
  .next (shiftFlags (v.getLsbD 7) (aslByte v) s1)

/-- LSR: shift right, bit 0 to C (R171). -/
def execLsr (o : Target) (s : State) : Host.Outcome State Fault Refusal :=
  let (v, s1) := modifyTarget o lsrByte s
  .next (shiftFlags (v.getLsbD 0) (lsrByte v) s1)

/-- ROL: rotate left through carry, the old carry into bit 0 (R172). -/
def execRol (o : Target) (s : State) : Host.Outcome State Fault Refusal :=
  let (v, s1) := modifyTarget o (rolByte (flag .c s)) s
  .next (shiftFlags (v.getLsbD 7) (rolByte (flag .c s) v) s1)

/-- ROR: rotate right through carry, the old carry into bit 7 (R173). -/
def execRor (o : Target) (s : State) : Host.Outcome State Fault Refusal :=
  let (v, s1) := modifyTarget o (rorByte (flag .c s)) s
  .next (shiftFlags (v.getLsbD 0) (rorByte (flag .c s) v) s1)

end Sys2Proof.Machine
end

