-- ==== Sys2Proof/Machine/StackControl.lean ====
section
/-! DEFINITION. Stack, jump, call, return, BRK and NOP (49_stack_control.md), and ILL (60_exceptions.md R241, R243). -/

namespace Sys2Proof.Machine

/-- PHA: `Push(A)` (R220). -/
def execPha (s : State) : Host.Outcome State Fault Refusal :=
  .next (push s.a (advance 1 s))

/-- PLA: `A <- Pop(); SetZN(A)` (R221, D19). -/
def execPla (s : State) : Host.Outcome State Fault Refusal :=
  let (v, s1) := pop (advance 1 s)
  .next (setZN v (setA v s1))

/-- PHP: `Push(P | 0x30)` (R222, D8). -/
def execPhp (s : State) : Host.Outcome State Fault Refusal :=
  .next (push (getP s ||| 0x30) (advance 1 s))

/-- PLP: `P <- (Pop() & 0xCF) | (P & 0x10) | 0x20` (R223, D8). -/
def execPlp (s : State) : Host.Outcome State Fault Refusal :=
  .next (pullP (advance 1 s))

/-- JSR: push `PC -16 1`, high byte then low byte, and jump (R224). PC is `opc +16 3` when it is pushed. -/
def execJsr (target : Word) (s : State) : Host.Outcome State Fault Refusal :=
  let s1 := advance 3 s
  let ret := s1.pc - 1
  .next (setPc target (push (loByte ret) (push (hiByte ret) s1)))

/-- RTS: pull a word, low byte first, and jump to it plus 1 (R225). -/
def execRts (s : State) : Host.Outcome State Fault Refusal :=
  let (ret, s1) := pullWord (advance 1 s)
  .next (setPc (ret + 1) s1)

/-- RTI: pull P as PLP does, then PC with no `+1` (R226, D9). -/
def execRti (s : State) : Host.Outcome State Fault Refusal :=
  .next (returnFromInterrupt (advance 1 s))

/-- JMP: `PC <- ea` (R227). -/
def execJmp (o : JumpOperand) (s : State) : Host.Outcome State Fault Refusal :=
  let (r, s1) := resolveJump o s
  .next (setPc r.ea (advance r.len s1))

/-- BRK: B is set and the block halts, before any advance of PC unless `BRK_HALT_PC_ADVANCE` (R228, D5). Nothing is
pushed and no vector is read (R247). -/
def execBrk (s : State) : Host.Outcome State Fault Refusal :=
  let s1 := setFlag .b true s
  .next (halt (if s.params.brkHaltPcAdvance then advance 1 s1 else s1))

/-- NOP: only PC advances (R229). -/
def execNop (s : State) : Host.Outcome State Fault Refusal :=
  .next (advance 1 s)

/-- ILL: `raise IllegalOpcode(op, opc)`; PC stays at `opc` (R241, R243). -/
def execIll (op : Byte) (s : State) : Host.Outcome State Fault Refusal :=
  .next (raiseIllegalOpcode op s)

end Sys2Proof.Machine
end

