-- ==== Sys2Proof/Machine/Transfer.lean ====
section
/-! DEFINITION. Register transfer instructions (42_transfer.md). -/

namespace Sys2Proof.Machine

/-- TAX: `X <- A; SetZN(X)` (R150). -/
def execTax (s : State) : Host.Outcome State Fault Refusal :=
  .next (setZN s.a (setX s.a (advance 1 s)))

/-- TAY: `Y <- A; SetZN(Y)` (R151). -/
def execTay (s : State) : Host.Outcome State Fault Refusal :=
  .next (setZN s.a (setY s.a (advance 1 s)))

/-- TXA: `A <- X; SetZN(A)` (R152). -/
def execTxa (s : State) : Host.Outcome State Fault Refusal :=
  .next (setZN s.x (setA s.x (advance 1 s)))

/-- TYA: `A <- Y; SetZN(A)` (R153). -/
def execTya (s : State) : Host.Outcome State Fault Refusal :=
  .next (setZN s.y (setA s.y (advance 1 s)))

/-- TSX: `X <- SP; if TSX_SETS_NZ: SetZN(X)` (R154; 90_conflicts.md C2, D18). -/
def execTsx (s : State) : Host.Outcome State Fault Refusal :=
  let s1 := setX s.sp (advance 1 s)
  .next (if s.params.tsxSetsNz then setZN s.sp s1 else s1)

/-- TXS: `SP <- X`, no flags (R155). -/
def execTxs (s : State) : Host.Outcome State Fault Refusal :=
  .next (setSp s.x (advance 1 s))

end Sys2Proof.Machine
end

