-- ==== Sys2Proof/Machine/Fetch.lean ====
section
/-! DEFINITION. Fetching an instruction (40_addressing_sequencer.md R120, R126): the opcode byte at PC, then the operand
bytes its opcode has, each one bus read, lowest address first. -/

namespace Sys2Proof.Machine

/-- The instruction at PC, and the state with its fetch reads recorded. No operand byte of an undocumented opcode is
read (60_exceptions.md R241). -/
def fetch (s : State) : Instr × State :=
  let (op, s1) := busRead s.pc s
  match operandCount op with
  | 0 => (assemble op 0 0, s1)
  | 1 =>
    let (b1, s2) := busRead (s.pc + 1) s1
    (assemble op b1 0, s2)
  | _ + 2 =>
    let (b1, s2) := busRead (s.pc + 1) s1
    let (b2, s3) := busRead (s.pc + 2) s2
    (assemble op b1 b2, s3)

/-- The three bytes from PC on, as memory holds them, the addresses wrapping at 0xFFFF (10_state.md R38): enough for any
instruction. -/
def bytesAtPc (s : State) : List Byte :=
  [readByte s.mem s.pc.toNat, readByte s.mem (s.pc + 1).toNat, readByte s.mem (s.pc + 2).toNat]

/-- The bus reads of fetching the first `n` bytes of `bs` from `pc` on. -/
def fetchEvents (n : Nat) (pc : Word) (bs : List Byte) : List BusEvent :=
  match n, bs with
  | n + 1, b :: rest => .read pc b :: fetchEvents n (pc + 1) rest
  | 0, _ => []
  | _ + 1, [] => []

end Sys2Proof.Machine
end

