-- ==== Sys2Proof/Machine/Step.lean ====
section
/-! DEFINITION. One step of the block (40_addressing_sequencer.md R120), and an instruction word placed where the next
step fetches. -/

namespace Sys2Proof.Machine

/-- One step: while Running, fetch, decode and execute one instruction, over a transaction list that begins empty. The
BRK check of R120 is the arm of the decoded BRK, which halts before any advance. In Halted and Faulted a step does
nothing (60_exceptions.md R244). -/
def step (s : State) : Host.Outcome State Fault Refusal :=
  match s.runState with
  | .running =>
    let (i, s1) := fetch (clearBus s)
    exec i s1
  | .halted => .next s
  | .faulted _ _ => .next s

/-- The state with an instruction word in memory at PC, Running, so that the very next step runs it (it stands for the
load of a program from outside: notes/assumptions/3.md). -/
def State.withFetchWord (s : State) (nbits w : Nat) : State :=
  { s with mem := writeBytes s.mem s.pc (tableBytes nbits w), runState := .running }

end Sys2Proof.Machine
end

