-- ==== Sys2Proof/Machine/Timing.lean ====
section
/-! DEFINITION. The informative timing of 70_reset_and_hazards.md R267 to R270, outside the state: how many cycles an
instruction takes, from the instruction and the state it starts in. No step reads it (10_state.md R54). -/

namespace Sys2Proof.Machine

/-- The page-cross signal of an instruction (40_addressing_sequencer.md R113). -/
def pageCross (i : Instr) (s : State) : Bool :=
  match i with
  | .lda (.mem m) | .ldx (.mem m) | .ldy (.mem m) | .adc (.mem m) | .sbc (.mem m) | .and (.mem m) | .ora (.mem m)
  | .eor (.mem m) | .cmp (.mem m) | .cpx (.mem m) | .cpy (.mem m) => (resolve m s).1.pcross
  | .lda (.imm _) | .ldx (.imm _) | .ldy (.imm _) | .adc (.imm _) | .sbc (.imm _) | .and (.imm _) | .ora (.imm _)
  | .eor (.imm _) | .cmp (.imm _) | .cpx (.imm _) | .cpy (.imm _) => false
  | .sta m | .stx m | .sty m | .bit m | .inc m | .dec m => (resolve m s).1.pcross
  | .asl (.mem m) | .lsr (.mem m) | .rol (.mem m) | .ror (.mem m) => (resolve m s).1.pcross
  | .asl .acc | .lsr .acc | .rol .acc | .ror .acc => false
  | .bcc d | .bcs d | .beq d | .bne d | .bmi d | .bpl d | .bvc d | .bvs d => (resolveRelative d s).pcross
  | .jmp _ | .jsr _ | .rts | .rti | .brk | .nop | .ill _ => false
  | .tax | .tay | .txa | .tya | .tsx | .txs | .inx | .dex | .iny | .dey => false
  | .clc | .sec | .cli | .sei | .cld | .sed | .clv | .pha | .pla | .php | .plp => false

/-- Whether a branch is taken (47_branch.md R201 to R208); `none` for an instruction that is no branch. -/
def branchTaken (i : Instr) (s : State) : Option Bool :=
  match i with
  | .bcc _ => some (!flag .c s)
  | .bcs _ => some (flag .c s)
  | .beq _ => some (flag .z s)
  | .bne _ => some (!flag .z s)
  | .bmi _ => some (flag .n s)
  | .bpl _ => some (!flag .n s)
  | .bvc _ => some (!flag .v s)
  | .bvs _ => some (flag .v s)
  | .lda _ | .ldx _ | .ldy _ | .sta _ | .stx _ | .sty _ | .adc _ | .sbc _ | .and _ | .ora _ | .eor _ => none
  | .asl _ | .lsr _ | .rol _ | .ror _ | .cmp _ | .cpx _ | .cpy _ | .bit _ | .inc _ | .dec _ => none
  | .jmp _ | .jsr _ | .rts | .rti | .brk | .nop | .ill _ => none
  | .tax | .tay | .txa | .tya | .tsx | .txs | .inx | .dex | .iny | .dey => none
  | .clc | .sec | .cli | .sei | .cld | .sed | .clv | .pha | .pla | .php | .plp => none

/-- The cycles beside the base count: one for a crossed page in a page-cross-sensitive row (R269); for a taken branch
one, and one more across a page (R270). -/
def extraCycles (e : DecodeEntry) (i : Instr) (s : State) : Nat :=
  match branchTaken i s with
  | some taken => if taken then (if pageCross i s then 2 else 1) else 0
  | none => if e.pageCrossAddsCycle && pageCross i s then 1 else 0

/-- The cycles an instruction takes from a state (R268 to R270); `none` for ILL and for a term that is no row. -/
def cycles (i : Instr) (s : State) : Option Nat :=
  match i.opcode.bind decodeEntry with
  | some e => some (e.baseCycles + extraCycles e i s)
  | none => none

end Sys2Proof.Machine
end

