-- ==== Sys2Proof/Machine/Control.lean ====
section
/-! DEFINITION. The control port and the inspection port (00_scope.md R18; 60_exceptions.md R250, R252): the loader's
effect on memory, the reset, the host's runs, and what the host can read and write between steps
(70_reset_and_hazards.md R260 to R262). -/

namespace Sys2Proof.Machine

/-- The loader's effect: the program at `LOAD_ADDR`, then the reset vector, low byte first (R261, D15). The loader is
outside the block, so its writes are no transactions of a step. -/
def loadProgram (program : List Byte) (s : State) : State :=
  let loadAddr := s.params.loadAddr
  { s with mem := writeWord (writeBytes s.mem loadAddr program) resetVector loadAddr }

/-- Where the reset takes PC from: `START_PC`, or the reset vector by two bus reads (R262). -/
def resetPc (s : State) : Word × State :=
  match s.params.startPc with
  | some start => (start, s)
  | none => memRead16 resetVector s

/-- The reset of the block (R262). It writes no memory; its only bus transactions are the vector's two reads. -/
def resetBlock (s : State) : State :=
  let (start, s1) := resetPc (clearBus s)
  { s1 with a := 0x00, x := 0x00, y := 0x00, sp := s.params.spReset, p := pReset, pc := start, runState := .running }

/-- `load_and_run` up to Running, from any state: the loader, then the reset (R260). Memory outside the loader's bytes is
what the block has (DEDUCED, notes/assumptions/17.md). -/
def loadAndReset (program : List Byte) (s : State) : State := resetBlock (loadProgram program s)

/-- The first `load_and_run` up to Running, over `INITIAL_MEMORY` (R260; 20_memory.md R70). -/
def launch (params : Params) (initialMemory : Memory) (program : List Byte) : State :=
  loadAndReset program { State.reset with mem := initialMemory, params := params }

/-- `Run(n)`: up to n steps, no more once the block is not Running (60_exceptions.md R250). -/
def runFor : Nat → State → Host.Outcome State Fault Refusal
  | 0, s => .next s
  | n + 1, s =>
    match s.runState with
    | .running =>
      match step s with
      | .next t => runFor n t
      | .fault r => .fault r
      | .refused r => .refused r
    | .halted => .next s
    | .faulted _ _ => .next s

/-- What the host can do between two steps through the control port (00_scope.md R18; R250). Run-until-halted is the
relation `RunsTo`. -/
inductive HostAction where
  /-- `load_and_run` up to Running; it also restarts a block that has stopped (R253, R260). -/
  | start (program : List Byte)
  | step
  | run (n : Nat)
  /-- Take no further step: the run state stays Running, and the block can be resumed (D16). -/
  | stop
deriving DecidableEq, Repr

/-- The control port (R250). -/
def hostControl (h : HostAction) (s : State) : Host.Outcome State Fault Refusal :=
  match h with
  | .start program => .next (loadAndReset program s)
  | .step => step s
  | .run n => runFor n s
  | .stop => .next s

/-- What the inspection port shows of the register file (00_scope.md R18, R252): six registers, read-only. -/
structure Inspection where
  accumulator : Byte
  indexX : Byte
  indexY : Byte
  stackPointer : Byte
  programCounter : Word
  /-- "the raw status bit pattern", with bit 5 reading as 1 (10_state.md R41). -/
  status : Byte
deriving DecidableEq, Repr

/-- The inspection port's registers. -/
def inspect (s : State) : Inspection :=
  { accumulator := s.a, indexX := s.x, indexY := s.y, stackPointer := s.sp, programCounter := s.pc, status := getP s }

/-! The inspection port's "memory read/write operations" (R18, R252) are the bus side's four operations (20_memory.md
R60). The host uses them between steps, so they are no transactions of the block (notes/assumptions/17.md). -/

/-- `read_byte`, by the host. -/
def inspectByte (a : Word) (s : State) : Byte := busByte a s

/-- `read_u16`, by the host: little-endian. -/
def inspectWord (a : Word) (s : State) : Word := hiLo (inspectByte (a + 1) s) (inspectByte a s)

/-- `write_byte`, by the host. It writes memory and nothing else: the port's register access is read-only. -/
def inspectWriteByte (a : Word) (v : Byte) (s : State) : State := { s with mem := writeByte s.mem a.toNat v }

/-- `write_u16`, by the host: the low byte first. -/
def inspectWriteWord (a w : Word) (s : State) : State := { s with mem := writeWord s.mem a w }

end Sys2Proof.Machine
end

