-- ==== Sys2Proof/Safety.lean ====
section
/-! DEFINITION. The vocabulary of the claims: which registers, flags and bytes each instruction may write (10_state.md
R34, R50; 20_memory.md R67), what stays unchanged, the invariant of the machine, and what a safe run is. -/

namespace Sys2Proof.Machine

/-! ## What an instruction may write -/

/-- The byte registers of the register file (10_state.md R30). P is seen through its flags and PC on its own. -/
inductive Reg where
  | a | x | y | sp
deriving DecidableEq, Repr

/-- Reading a byte register. -/
def reg (r : Reg) (s : State) : Byte :=
  match r with
  | .a => s.a
  | .x => s.x
  | .y => s.y
  | .sp => s.sp

/-- The registers an instruction writes: the table of 10_state.md R34, read by instruction. -/
def writtenRegs : Instr → List Reg
  | .lda _ | .txa | .tya | .adc _ | .sbc _ | .and _ | .ora _ | .eor _ => [.a]
  | .asl .acc | .lsr .acc | .rol .acc | .ror .acc => [.a]
  | .pla => [.a, .sp]
  | .ldx _ | .tax | .tsx | .inx | .dex => [.x]
  | .ldy _ | .tay | .iny | .dey => [.y]
  | .txs | .pha | .php | .plp | .jsr _ | .rts | .rti => [.sp]
  | .asl (.mem _) | .lsr (.mem _) | .rol (.mem _) | .ror (.mem _) => []
  | .sta _ | .stx _ | .sty _ | .cmp _ | .cpx _ | .cpy _ | .bit _ | .inc _ | .dec _ => []
  | .bcc _ | .bcs _ | .beq _ | .bne _ | .bmi _ | .bpl _ | .bvc _ | .bvs _ => []
  | .clc | .sec | .cli | .sei | .cld | .sed | .clv | .jmp _ | .brk | .nop | .ill _ => []

/-- The flags an instruction writes: the table of 10_state.md R50. -/
def writtenFlags : Instr → List Flag
  | .lda _ | .ldx _ | .ldy _ | .tax | .tay | .txa | .tya | .tsx | .pla | .and _ | .ora _ | .eor _ => [.n, .z]
  | .inc _ | .dec _ | .inx | .dex | .iny | .dey => [.n, .z]
  | .adc _ | .sbc _ => [.n, .v, .z, .c]
  | .asl _ | .lsr _ | .rol _ | .ror _ | .cmp _ | .cpx _ | .cpy _ => [.n, .z, .c]
  | .bit _ => [.n, .v, .z]
  | .clc | .sec => [.c]
  | .cli | .sei => [.i]
  | .cld | .sed => [.d]
  | .clv => [.v]
  | .plp | .rti => [.n, .v, .d, .i, .z, .c]
  | .brk => [.b]
  | .sta _ | .stx _ | .sty _ | .txs | .pha | .php | .jsr _ | .rts | .jmp _ | .nop => []
  | .bcc _ | .bcs _ | .beq _ | .bne _ | .bmi _ | .bpl _ | .bvc _ | .bvs _ => []
  | .ill _ => []

/-- The addresses an instruction stores a byte to, from the state it starts in: the effective address the resolver gives,
or the stack bytes below SP (20_memory.md R67). -/
def storedAddrs (i : Instr) (s : State) : List Word :=
  match i with
  | .sta m | .stx m | .sty m | .inc m | .dec m => [(resolve m s).1.ea]
  | .asl (.mem m) | .lsr (.mem m) | .rol (.mem m) | .ror (.mem m) => [(resolve m s).1.ea]
  | .pha | .php => [stackAddr s.sp]
  | .jsr _ => [stackAddr s.sp, stackAddr (s.sp - 1)]
  | .asl .acc | .lsr .acc | .rol .acc | .ror .acc => []
  | .lda _ | .ldx _ | .ldy _ | .adc _ | .sbc _ | .and _ | .ora _ | .eor _ | .cmp _ | .cpx _ | .cpy _ | .bit _ => []
  | .tax | .tay | .txa | .tya | .tsx | .txs | .inx | .dex | .iny | .dey => []
  | .bcc _ | .bcs _ | .beq _ | .bne _ | .bmi _ | .bpl _ | .bvc _ | .bvs _ => []
  | .clc | .sec | .cli | .sei | .cld | .sed | .clv | .pla | .plp | .rts | .rti | .jmp _ | .brk | .nop | .ill _ => []

/-- Whether an instruction leaves PC at `opc +16 len`: every one but the control transfers of
40_addressing_sequencer.md R122, BRK (49_stack_control.md R228) and ILL (60_exceptions.md R241). -/
def onlyAdvancesPc : Instr → Bool
  | .bcc _ | .bcs _ | .beq _ | .bne _ | .bmi _ | .bpl _ | .bvc _ | .bvs _ => false
  | .jmp _ | .jsr _ | .rts | .rti | .brk | .ill _ => false
  | .lda _ | .ldx _ | .ldy _ | .sta _ | .stx _ | .sty _ | .adc _ | .sbc _ | .and _ | .ora _ | .eor _ => true
  | .asl _ | .lsr _ | .rol _ | .ror _ | .cmp _ | .cpx _ | .cpy _ | .bit _ | .inc _ | .dec _ => true
  | .tax | .tay | .txa | .tya | .tsx | .txs | .inx | .dex | .iny | .dey => true
  | .clc | .sec | .cli | .sei | .cld | .sed | .clv | .pha | .pla | .php | .plp | .nop => true

/-- Everything but the named registers, flags and bytes is as it was: each other byte register, each other flag and bit
5 of P, each other byte of memory, and the parameters. PC, the run state and the transaction list are spoken of apart. -/
def KeepsAllBut (regs : List Reg) (flags : List Flag) (stored : List Word) (s t : State) : Prop :=
  (∀ r, r ∉ regs → reg r t = reg r s) ∧
  (∀ f, f ∉ flags → flag f t = flag f s) ∧
  (getP t).getLsbD 5 = true ∧
  (∀ a : Word, a ∉ stored → readByte t.mem a.toNat = readByte s.mem a.toNat) ∧
  t.params = s.params

/-- Z and N say of a result byte what SetZN says (00_scope.md R16). -/
def HasZN (v : Byte) (t : State) : Prop := flag .z t = (v == 0) ∧ flag .n t = v.getLsbD 7

/-- The byte a source operand gives: the immediate byte, or the memory byte at the effective address. -/
def sourceValue (o : Source) (s : State) : Byte :=
  match o with
  | .imm v => v
  | .mem m => readByte s.mem (resolve m s).1.ea.toNat

/-- The byte a shift or rotate operand gives: A, or the memory byte at the effective address. -/
def targetValue (o : Target) (s : State) : Byte :=
  match o with
  | .acc => s.a
  | .mem m => readByte s.mem (resolve m s).1.ea.toNat

/-- The result of a read-modify-write stands in its operand (40_addressing_sequencer.md R117): in A, or in the memory
byte at the effective address, which is the state's before the instruction. -/
def HoldsResult (o : Target) (r : Byte) (s t : State) : Prop :=
  match o with
  | .acc => t.a = r
  | .mem m => readByte t.mem (resolve m s).1.ea.toNat = r

/-- The rows of the decode table for a mnemonic are exactly these bytes with these modes (30_encoding.md R85). -/
def HasRows (m : Mnemonic) (rows : List (Byte × Mode)) : Prop :=
  ∀ op k, ((decodeEntry op).map fun e => (e.mnemonic, e.mode)) = some (m, k) ↔ (op, k) ∈ rows

/-- Where the operand bytes come from (40_addressing_sequencer.md R103 to R111): an opcode byte of mode `k` at PC is
fetched with the byte at `opc +16 1` as its first operand byte and, in a mode of three bytes, the byte at `opc +16 2` as
its second. -/
def FetchesOperands (k : Mode) : Prop :=
  ∀ (s : State) (e : DecodeEntry), decodeEntry (readByte s.mem s.pc.toNat) = some e → e.mode = k →
    some (fetch s).1 = buildInstr e.mnemonic k (readByte s.mem ((s.pc.toNat + 1) % 65536))
      (if k.length = 3 then readByte s.mem ((s.pc.toNat + 2) % 65536) else 0)

/-- One instruction executed `n` times over. -/
def execTimes : Nat → Instr → State → Host.Outcome State Fault Refusal
  | 0, _, s => .next s
  | n + 1, i, s =>
    match exec i s with
    | .next t => execTimes n i t
    | .fault r => .fault r
    | .refused r => .refused r

/-- The frame of an instruction that moves on to the next one: what `KeepsAllBut` says, PC past the instruction's bytes
(40_addressing_sequencer.md R121), and the run state as it was. -/
def MovesOn (i : Instr) (regs : List Reg) (flags : List Flag) (stored : List Word) (s t : State) : Prop :=
  KeepsAllBut regs flags stored s t ∧ t.pc = s.pc + BitVec.ofNat 16 i.length ∧ t.runState = s.runState

/-- The branch rule (47_branch.md R200) for a family of branches `i` with its condition: it completes in every state; PC
becomes the advanced PC plus the signed displacement if the condition holds, and the advanced PC if not, modulo 65536;
nothing else changes, and no data memory is accessed. -/
def BranchesWhen (i : Byte → Instr) (cond : State → Bool) : Prop :=
  ∀ d s, ∃ t, exec (i d) s = .next t ∧
    (t.pc.toNat : Int) = (s.pc.toNat + 2 + (if cond s then d.toInt else 0)) % 65536 ∧
    KeepsAllBut [] [] [] s t ∧ t.runState = s.runState ∧ t.bus = s.bus

/-- The rule of a flag instruction (48_flag.md): it completes in every state, sets the flag to `b`, and touches nothing
else but PC, which moves on. -/
def WritesFlag (i : Instr) (f : Flag) (b : Bool) : Prop :=
  ∀ s, ∃ t, exec i s = .next t ∧ flag f t = b ∧ MovesOn i [] [f] [] s t ∧ t.bus = s.bus

/-- Two states agree but for I and D. -/
def AgreeButID (s t : State) : Prop :=
  t.a = s.a ∧ t.x = s.x ∧ t.y = s.y ∧ t.sp = s.sp ∧ t.pc = s.pc ∧ t.runState = s.runState ∧ t.mem = s.mem ∧
  t.bus = s.bus ∧ t.params = s.params ∧ ∀ f, f ≠ .i → f ≠ .d → flag f t = flag f s

/-- A state with another value of the parameter `BUS_READ` (00_scope.md R9). -/
def withBusRead (f : Memory) (s : State) : State := { s with params := { s.params with busRead := f } }

/-! ## The bus transactions of an instruction -/

/-- The direction and the address of a bus transaction. -/
inductive Access where
  | read (addr : Word)
  | write (addr : Word)
deriving DecidableEq, Repr

/-- An event without its byte. -/
def BusEvent.access : BusEvent → Access
  | .read a _ => .read a
  | .write a _ => .write a

/-- The pointer reads of a memory operand: two bytes of page 0, the low one first (20_memory.md R67;
40_addressing_sequencer.md R109, R110). -/
def pointerReads (m : Addr) (s : State) : List Access :=
  match m with
  | .indX z => [.read (zext (z + s.x)), .read (zext (z + s.x + 1))]
  | .indY z => [.read (zext z), .read (zext (z + 1))]
  | .zp _ | .zpX _ | .zpY _ | .abs _ | .absX _ | .absY _ => []

/-- The pointer and data accesses of a source operand. The immediate byte's one read is the fetch's
(notes/assumptions/5.md). -/
def sourceAccesses (o : Source) (s : State) : List Access :=
  match o with
  | .imm _ => []
  | .mem m => pointerReads m s ++ [.read (resolve m s).1.ea]

/-- The pointer and data accesses of a read-modify-write operand. -/
def targetAccesses (o : Target) (s : State) : List Access :=
  match o with
  | .acc => []
  | .mem m => pointerReads m s ++ [.read (resolve m s).1.ea, .write (resolve m s).1.ea]

/-- The accesses of an instruction after its fetch, in order, from the state it starts in: the table of 20_memory.md
R67, with the resolver's `ea` and the stack bytes of 49_stack_control.md. -/
def accesses (i : Instr) (s : State) : List Access :=
  match i with
  | .lda o | .ldx o | .ldy o | .adc o | .sbc o | .and o | .ora o | .eor o | .cmp o | .cpx o | .cpy o => sourceAccesses o s
  | .bit m => sourceAccesses (.mem m) s
  | .sta m | .stx m | .sty m => pointerReads m s ++ [.write (resolve m s).1.ea]
  | .inc m | .dec m => targetAccesses (.mem m) s
  | .asl o | .lsr o | .rol o | .ror o => targetAccesses o s
  | .pha | .php => [.write (stackAddr s.sp)]
  | .pla | .plp => [.read (stackAddr (s.sp + 1))]
  | .jsr _ => [.write (stackAddr s.sp), .write (stackAddr (s.sp - 1))]
  | .rts => [.read (stackAddr (s.sp + 1)), .read (stackAddr (s.sp + 2))]
  | .rti => [.read (stackAddr (s.sp + 1)), .read (stackAddr (s.sp + 2)), .read (stackAddr (s.sp + 3))]
  | .jmp (.ind ptr) => [.read ptr, .read (pointerHighAddr ptr s.params.jmpIndPageWrap)]
  | .jmp (.abs _) => []
  | .tax | .tay | .txa | .tya | .tsx | .txs | .inx | .dex | .iny | .dey => []
  | .bcc _ | .bcs _ | .beq _ | .bne _ | .bmi _ | .bpl _ | .bvc _ | .bvs _ => []
  | .clc | .sec | .cli | .sei | .cld | .sed | .clv | .brk | .nop | .ill _ => []

/-- Memory after a list of transactions carried out on `m` in order; `none` if a read gives another byte than the one
memory holds at that point. -/
def replay (l : List BusEvent) (m : Memory) : Option Memory :=
  match l with
  | [] => some m
  | .read a v :: rest => if readByte m a.toNat = v then replay rest m else none
  | .write a v :: rest => replay rest (writeByte m a.toNat v)

/-! ## The invariant and safe runs -/

/-- A stopped block stands at the byte that stopped it: BRK's 0x00 at PC (or just before it, under
`BRK_HALT_PC_ADVANCE`), or the recorded undocumented byte at PC (49_stack_control.md R228; 60_exceptions.md R241). -/
def StandsAtStop (s : State) : Prop :=
  match s.runState with
  | .running => True
  | .halted => readByte s.mem (if s.params.brkHaltPcAdvance then s.pc - 1 else s.pc).toNat = 0x00
  | .faulted op addr => addr = s.pc ∧ readByte s.mem addr.toNat = op ∧ op ∈ undocumentedOpcodes

/-- The invariant of the machine: memory is canonical, bit 5 of P is stored as 1 (10_state.md R41), B is 1 exactly in
Halted (R47), and a stopped block stands at the byte that stopped it. -/
def Inv (s : State) : Prop :=
  s.mem.wf = true ∧ s.p.getLsbD 5 = true ∧ (flag .b s = true ↔ s.runState = .halted) ∧ StandsAtStop s

/-- The block has not met an undocumented opcode: a Faulted run is no normal end (60_exceptions.md R244). -/
def NotFaulted (s : State) : Prop := ∀ op addr, s.runState ≠ .faulted op addr

/-- Run-until-halted (60_exceptions.md R250): some number of steps takes the block out of Running. -/
def RunsTo (s t : State) : Prop := t.runState ≠ .running ∧ ∃ n, runFor n s = .next t

/-- A safe run: however far the host runs it, it never faults. -/
def SafeRun (s : State) : Prop := ∀ n t, runFor n s = .next t → NotFaulted t

end Sys2Proof.Machine
end

