-- ==== Sys2Proof/Certificates/Slice0/Obligations.lean ====
section
/-! DEFINITION. The statements for the provers. A statement about an instruction has as its conclusion that exec answers
a next state, and says its result and its frame. -/

open Sys2Proof Sys2Proof.Machine

/-- From any state the reset leaves A = X = Y = 0, SP = SP_RESET, P = 0x24, PC = START_PC or the little-endian word at
0xFFFC, Running, memory and parameters as they were; its only bus transactions are the vector's two reads, and none
under START_PC. State.reset is such a state. The zeros of A and Y, SP_RESET's default and the zero bits of P are the
spec's own decisions D4, D3 and D27; PC = 0 in State.reset rests on notes/assumptions/2.md and 3.md.
(70_reset_and_hazards.md R262, 10_state.md R55, 92_eei_decisions.md D3, D4, D27.) -/
def Obligations.ResetLeavesTheResetValues : Prop :=
  (∀ s : State,
    let t := resetBlock s
    t.a = 0x00 ∧ t.x = 0x00 ∧ t.y = 0x00 ∧ t.sp = s.params.spReset ∧ getP t = 0x24 ∧ t.runState = .running ∧
    t.mem = s.mem ∧ t.params = s.params ∧
    (∀ start, s.params.startPc = some start → t.pc = start ∧ t.bus = []) ∧
    (s.params.startPc = none →
      t.pc.toNat = (readByte s.mem 0xFFFD).toNat * 256 + (readByte s.mem 0xFFFC).toNat ∧
      t.bus = [.read 0xFFFC (readByte s.mem 0xFFFC), .read 0xFFFD (readByte s.mem 0xFFFD)])) ∧
  resetBlock State.reset = State.reset

/-- For any parameters, any initial memory and any program of at most 65536 bytes: after the launch the word at 0xFFFC
is LOAD_ADDR, each program byte whose address is not in the vector stands at LOAD_ADDR + k, every other byte is the
initial one, the block is Running, and PC is START_PC or, without one, LOAD_ADDR. That the vector is written after
the program is the spec's own decision D15. (70_reset_and_hazards.md R260, 70_reset_and_hazards.md R261,
92_eei_decisions.md D15.) -/
def Obligations.LaunchPlacesProgramAndVector : Prop :=
  ∀ (params : Params) (m : Memory) (program : List Byte), program.length ≤ 65536 →
    let t := launch params m program
    readByte t.mem 0xFFFC = loByte params.loadAddr ∧ readByte t.mem 0xFFFD = hiByte params.loadAddr ∧
    (∀ (k : Nat) (b : Byte), program[k]? = some b → params.loadAddr + BitVec.ofNat 16 k ≠ 0xFFFC →
      params.loadAddr + BitVec.ofNat 16 k ≠ 0xFFFD →
      readByte t.mem (params.loadAddr + BitVec.ofNat 16 k).toNat = b) ∧
    (∀ a : Word, (∀ k, k < program.length → a ≠ params.loadAddr + BitVec.ofNat 16 k) → a ≠ 0xFFFC → a ≠ 0xFFFD →
      readByte t.mem a.toNat = readByte m a.toNat) ∧
    t.runState = .running ∧ t.pc = params.startPc.getD params.loadAddr

/-- State.reset meets Inv: memory canonical, bit 5 of P stored as 1, B = 1 exactly in Halted, and a stopped block at the
byte that stopped it. (10_state.md R41, 10_state.md R47, 20_memory.md R62, 10_state.md R55.) -/
def Obligations.ResetMeetsTheInvariant : Prop :=
  Inv State.reset

/-- For any parameters, any canonical initial memory and any program, the state after the launch meets Inv.
(70_reset_and_hazards.md R260, 10_state.md R41, 10_state.md R47.) -/
def Obligations.LaunchMeetsTheInvariant : Prop :=
  ∀ (params : Params) (m : Memory) (program : List Byte), m.wf = true → Inv (launch params m program)

/-- From every state that meets Inv, a step gives a state that meets Inv: memory stays canonical, bit 5 of P stays 1, B
is 1 exactly in Halted, and a stopped block stands at the byte that stopped it. (10_state.md R41, 10_state.md R47,
60_exceptions.md R241, 60_exceptions.md R244, 49_stack_control.md R228.) -/
def Obligations.EveryStepKeepsTheInvariant : Prop :=
  ∀ s t : State, Inv s → step s = .next t → Inv t

/-- After a bus write of v at a, a bus read at b gives v if b = a, and the byte from before if not, at every pair of
addresses. (20_memory.md R72, 20_memory.md R63.) -/
def Obligations.ReadGivesTheLatestWrite : Prop :=
  ∀ (a b : Word) (v : Byte) (s : State),
    (busRead b (busWrite a v s)).1 = if b = a then v else (busRead b s).1

/-- Two canonical memories that give the same byte at each of the 65536 addresses are equal as data. What an unlisted
byte reads as (notes/assumptions/2.md) does not matter to it. (20_memory.md R62, 20_memory.md R70.) -/
def Obligations.CanonicalMemoriesThatReadAlikeAreEqual : Prop :=
  ∀ m m' : Memory, m.wf = true → m'.wf = true → (∀ a : Word, readByte m a.toNat = readByte m' a.toNat) → m = m'

/-- MemRead(a, 2) gives byte(a) + 256 * byte(a + 1 mod 65536) by two reads in that order, and ZpRead16(z) gives byte(z)
+ 256 * byte(z + 1 mod 256), in every state. (20_memory.md R61, 20_memory.md R64, 20_memory.md R65, 00_scope.md
R14.) -/
def Obligations.PairReadsAreLittleEndian : Prop :=
  (∀ (a : Word) (s : State),
    (memRead16 a s).1.toNat =
      (readByte s.mem ((a.toNat + 1) % 65536)).toNat * 256 + (readByte s.mem a.toNat).toNat ∧
    (memRead16 a s).2 = { s with
      bus := s.bus ++ [.read a (readByte s.mem a.toNat), .read (a + 1) (readByte s.mem (a + 1).toNat)] }) ∧
  (∀ (z : Byte) (s : State),
    (zpRead16 z s).1.toNat =
      (readByte s.mem ((z.toNat + 1) % 256)).toNat * 256 + (readByte s.mem z.toNat).toNat)

/-- With z the byte after the opcode: the effective address is z, (z + X) mod 256 or (z + Y) mod 256, the length is 2,
there is no page cross, and the resolver reads nothing. z is the byte at opc + 1 modulo 65536, and only LDX and STX
have a ZeroPageY row. That the resolver itself reads nothing is the model's choice (notes/assumptions/5.md and
15.md): the rules have it read the operand byte, which the model's fetch has already read, once and at the same place
in the order. (40_addressing_sequencer.md R103, 40_addressing_sequencer.md R104, 40_addressing_sequencer.md R105.)
-/
def Obligations.ZeroPageModesStayInPageZero : Prop :=
  FetchesOperands .zeroPage ∧ FetchesOperands .zeroPageX ∧ FetchesOperands .zeroPageY ∧
  (∀ (op : Byte) (e : DecodeEntry), decodeEntry op = some e → e.mode = .zeroPageY →
    e.mnemonic ∈ [Mnemonic.LDX, .STX]) ∧
  ∀ (z b2 : Byte) (s : State),
    addrOf .zeroPage z b2 = some (.zp z) ∧ addrOf .zeroPageX z b2 = some (.zpX z) ∧
    addrOf .zeroPageY z b2 = some (.zpY z) ∧
    (resolve (.zp z) s).1.ea.toNat = z.toNat ∧
    (resolve (.zpX z) s).1.ea.toNat = (z.toNat + s.x.toNat) % 256 ∧
    (resolve (.zpY z) s).1.ea.toNat = (z.toNat + s.y.toNat) % 256 ∧
    ∀ m ∈ [Addr.zp z, .zpX z, .zpY z],
      (resolve m s).1.len = 2 ∧ (resolve m s).1.pcross = false ∧ (resolve m s).2 = s

/-- With w = hi:lo of the two bytes after the opcode: the effective address is w, (w + X) mod 65536 or (w + Y) mod
65536, the length is 3, the page cross is true exactly when the indexed high byte differs, and the resolver reads
nothing. The two bytes are those at opc + 1 and opc + 2 modulo 65536, the low one first. That the resolver itself
reads nothing is the model's choice (notes/assumptions/5.md and 15.md): the rules have it read the operand bytes,
which the model's fetch has already read, once and at the same place in the order. (40_addressing_sequencer.md R106,
40_addressing_sequencer.md R107, 40_addressing_sequencer.md R108.) -/
def Obligations.AbsoluteModesIndexModulo65536 : Prop :=
  FetchesOperands .absolute ∧ FetchesOperands .absoluteX ∧ FetchesOperands .absoluteY ∧
  ∀ (w : Word) (lo hi : Byte) (s : State),
    addrOf .absolute lo hi = some (.abs (hiLo hi lo)) ∧ addrOf .absoluteX lo hi = some (.absX (hiLo hi lo)) ∧
    addrOf .absoluteY lo hi = some (.absY (hiLo hi lo)) ∧ (hiLo hi lo).toNat = hi.toNat * 256 + lo.toNat ∧
    (resolve (.abs w) s).1.ea = w ∧
    (resolve (.absX w) s).1.ea.toNat = (w.toNat + s.x.toNat) % 65536 ∧
    (resolve (.absY w) s).1.ea.toNat = (w.toNat + s.y.toNat) % 65536 ∧
    (resolve (.abs w) s).1.pcross = false ∧
    ((resolve (.absX w) s).1.pcross = true ↔ (resolve (.absX w) s).1.ea.toNat / 256 ≠ w.toNat / 256) ∧
    ((resolve (.absY w) s).1.pcross = true ↔ (resolve (.absY w) s).1.ea.toNat / 256 ≠ w.toNat / 256) ∧
    ∀ m ∈ [Addr.abs w, .absX w, .absY w], (resolve m s).1.len = 3 ∧ (resolve m s).2 = s

/-- With z the byte after the opcode and p = (z + X) mod 256: the effective address is the byte at p plus 256 times the
byte at (p + 1) mod 256, read in that order; the length is 2 and there is no page cross. z is the byte at opc + 1
modulo 65536. That the two pointer reads are the resolver's whole effect is the model's choice
(notes/assumptions/5.md and 15.md): the rule has the resolver read z too, which the model's fetch has already read,
once and at the same place in the order. (40_addressing_sequencer.md R109.) -/
def Obligations.IndirectXReadsItsPointerInPageZero : Prop :=
  FetchesOperands .indirectX ∧
  ∀ (z b2 : Byte) (s : State),
    let p := (z.toNat + s.x.toNat) % 256
    let q := (p + 1) % 256
    addrOf .indirectX z b2 = some (.indX z) ∧
    (resolve (.indX z) s).1.ea.toNat = (readByte s.mem q).toNat * 256 + (readByte s.mem p).toNat ∧
    (resolve (.indX z) s).1.len = 2 ∧ (resolve (.indX z) s).1.pcross = false ∧
    (resolve (.indX z) s).2 = { s with
      bus := s.bus ++ [.read (BitVec.ofNat 16 p) (readByte s.mem p), .read (BitVec.ofNat 16 q) (readByte s.mem q)] }

/-- With z the byte after the opcode: base is the byte at z plus 256 times the byte at (z + 1) mod 256, the effective
address is (base + Y) mod 65536, the page cross is true exactly when the high byte changes, and the length is 2. z
is the byte at opc + 1 modulo 65536. That the pointer's high byte wraps in page 0 is the spec's own decision D7.
That the two pointer reads are the resolver's whole effect is the model's choice (notes/assumptions/5.md and 15.md):
the rule has the resolver read z too, which the model's fetch has already read, once and at the same place in the
order. (40_addressing_sequencer.md R110, 92_eei_decisions.md D7.) -/
def Obligations.IndirectYAddsYToItsPointer : Prop :=
  FetchesOperands .indirectY ∧
  ∀ (z b2 : Byte) (s : State),
    let q := (z.toNat + 1) % 256
    let base := (readByte s.mem q).toNat * 256 + (readByte s.mem z.toNat).toNat
    addrOf .indirectY z b2 = some (.indY z) ∧
    (resolve (.indY z) s).1.ea.toNat = (base + s.y.toNat) % 65536 ∧
    (resolve (.indY z) s).1.len = 2 ∧
    ((resolve (.indY z) s).1.pcross = true ↔ (resolve (.indY z) s).1.ea.toNat / 256 ≠ base / 256) ∧
    (resolve (.indY z) s).2 = { s with
      bus := s.bus ++ [.read (zext z) (readByte s.mem z.toNat), .read (BitVec.ofNat 16 q) (readByte s.mem q)] }

/-- With d the byte after the opcode: the target is (opc + 2 + d read as signed) mod 65536, the length is 2, and the
page cross is true exactly when the high bytes of opc + 2 and of the target differ. The eight branches are the only
rows with this mode. d is the byte at opc + 1 modulo 65536. (R111.) -/
def Obligations.RelativeTargetIsSignedFromTheAdvancedPc : Prop :=
  FetchesOperands .relative ∧
  (∀ (d : Byte) (s : State),
    ((resolveRelative d s).ea.toNat : Int) = (s.pc.toNat + 2 + d.toInt) % 65536 ∧
    (resolveRelative d s).len = 2 ∧
    ((resolveRelative d s).pcross = true ↔ (s.pc.toNat + 2) % 65536 / 256 ≠ (resolveRelative d s).ea.toNat / 256)) ∧
  (∀ (op : Byte) (e : DecodeEntry), decodeEntry op = some e →
    (e.mode = .relative ↔ e.mnemonic ∈ [Mnemonic.BCC, .BCS, .BEQ, .BNE, .BMI, .BPL, .BVC, .BVS]) ∧
    (e.mode = .relative → ∀ d b2, buildInstr e.mnemonic e.mode d b2 ∈
      [some (Instr.bcc d), some (.bcs d), some (.beq d), some (.bne d), some (.bmi d), some (.bpl d), some (.bvc d),
       some (.bvs d)]))

/-- For all a, m and carry: r = (a + m + cin) mod 256, cout is true exactly when the sum reaches 256, v is true exactly
when a and m have the same sign and r another, which is bit 7 of (a ^ r) & (m ^ r), and exactly when the signed sum
leaves -128 to 127. (R118.) -/
def Obligations.AdderGivesSumCarryAndOverflow : Prop :=
  ∀ (a m : Byte) (cin : Bool),
    let n := a.toNat + m.toNat + cin.toNat
    let signed := a.toInt + m.toInt + (cin.toNat : Int)
    (addC a m cin).r.toNat = n % 256 ∧
    ((addC a m cin).cout = true ↔ 256 ≤ n) ∧
    ((addC a m cin).v = true ↔
      a.getLsbD 7 = m.getLsbD 7 ∧ (addC a m cin).r.getLsbD 7 ≠ a.getLsbD 7) ∧
    (addC a m cin).v = ((a ^^^ (addC a m cin).r) &&& (m ^^^ (addC a m cin).r)).getLsbD 7 ∧
    ((addC a m cin).v = true ↔ signed < -128 ∨ 127 < signed)

/-- Compare(reg, m) sets C exactly when reg >= m unsigned, Z exactly when reg = m, which is when the wrapped difference
is 0, N to bit 7 of that difference; V, every other flag, every register and all of memory are unchanged. (R119.) -/
def Obligations.ComparatorWritesOnlyCarryZeroNegative : Prop :=
  ∀ (r m : Byte) (s : State),
    let t := compareReg r m s
    (flag .c t = true ↔ m.toNat ≤ r.toNat) ∧ (flag .z t = true ↔ r = m) ∧ (flag .z t = true ↔ r - m = 0) ∧
    flag .n t = (r - m).getLsbD 7 ∧
    KeepsAllBut [] [.c, .z, .n] [] s t ∧ t.pc = s.pc ∧ t.runState = s.runState ∧ t.bus = s.bus

/-- Push(v) writes v at 0x0100 + SP by one bus write and leaves SP = SP - 1 modulo 256; every other byte, register and
flag is unchanged. (R114.) -/
def Obligations.PushWritesThenMovesSpDown : Prop :=
  ∀ (v : Byte) (s : State),
    let t := push v s
    (stackAddr s.sp).toNat = 0x0100 + s.sp.toNat ∧
    readByte t.mem (0x0100 + s.sp.toNat) = v ∧ t.sp.toNat = (s.sp.toNat + 255) % 256 ∧
    KeepsAllBut [.sp] [] [stackAddr s.sp] s t ∧ t.pc = s.pc ∧ t.runState = s.runState ∧
    t.bus = s.bus ++ [.write (stackAddr s.sp) v]

/-- Pop() leaves SP + 1 modulo 256 and returns the byte at 0x0100 plus that, changing nothing else but the transaction
list; after Push(v) it returns v and restores SP. The order is the spec's own choice, C1.
(40_addressing_sequencer.md R115, 90_conflicts.md C1.) -/
def Obligations.PopReturnsTheLastPush : Prop :=
  (∀ s : State,
    (pop s).1 = readByte s.mem (0x0100 + (s.sp.toNat + 1) % 256) ∧ (pop s).2.sp.toNat = (s.sp.toNat + 1) % 256 ∧
    KeepsAllBut [.sp] [] [] s (pop s).2 ∧ (pop s).2.pc = s.pc ∧ (pop s).2.runState = s.runState) ∧
  (∀ (v : Byte) (s : State), (pop (push v s)).1 = v ∧ (pop (push v s)).2.sp = s.sp)

/-- For every operand and state LDA, LDX and LDY complete: the register holds the operand, Z and N are its, every other
register, flag and byte is unchanged, and PC moves on. Their rows are the listed ones. The byte values are those of
30_encoding.md R85, which the spec marks as general knowledge. (R140, R141, R142.) -/
def Obligations.LoadsWriteTheirRegisterAndZN : Prop :=
  (∀ (o : Source) (s : State), ∃ t, exec (.lda o) s = .next t ∧ t.a = sourceValue o s ∧
    HasZN (sourceValue o s) t ∧ MovesOn (.lda o) [.a] [.z, .n] [] s t) ∧
  (∀ (o : Source) (s : State), ∃ t, exec (.ldx o) s = .next t ∧ t.x = sourceValue o s ∧
    HasZN (sourceValue o s) t ∧ MovesOn (.ldx o) [.x] [.z, .n] [] s t) ∧
  (∀ (o : Source) (s : State), ∃ t, exec (.ldy o) s = .next t ∧ t.y = sourceValue o s ∧
    HasZN (sourceValue o s) t ∧ MovesOn (.ldy o) [.y] [.z, .n] [] s t) ∧
  HasRows .LDA [(0xA1, .indirectX), (0xA5, .zeroPage), (0xA9, .immediate), (0xAD, .absolute),
      (0xB1, .indirectY), (0xB5, .zeroPageX), (0xB9, .absoluteY), (0xBD, .absoluteX)] ∧
  HasRows .LDX [(0xA2, .immediate), (0xA6, .zeroPage), (0xAE, .absolute), (0xB6, .zeroPageY),
      (0xBE, .absoluteY)] ∧
  HasRows .LDY [(0xA0, .immediate), (0xA4, .zeroPage), (0xAC, .absolute), (0xB4, .zeroPageX),
      (0xBC, .absoluteX)]

/-- For every memory operand and state STA, STX and STY complete: the byte at the resolved address is the register,
every other byte, every register and every flag is unchanged, PC moves on, and the data transaction is that one
write: no read at ea. Their rows are the listed ones, and 0x89 is ILL. The byte values are those of 30_encoding.md
R85, which the spec marks as general knowledge. (R143, R144, R145.) -/
def Obligations.StoresWriteTheByteAtTheEffectiveAddress : Prop :=
  (∀ (m : Addr) (s : State), ∃ t, exec (.sta m) s = .next t ∧
    readByte t.mem (resolve m s).1.ea.toNat = s.a ∧ MovesOn (.sta m) [] [] [(resolve m s).1.ea] s t ∧
    t.bus = (resolve m s).2.bus ++ [.write (resolve m s).1.ea s.a]) ∧
  (∀ (m : Addr) (s : State), ∃ t, exec (.stx m) s = .next t ∧
    readByte t.mem (resolve m s).1.ea.toNat = s.x ∧ MovesOn (.stx m) [] [] [(resolve m s).1.ea] s t ∧
    t.bus = (resolve m s).2.bus ++ [.write (resolve m s).1.ea s.x]) ∧
  (∀ (m : Addr) (s : State), ∃ t, exec (.sty m) s = .next t ∧
    readByte t.mem (resolve m s).1.ea.toNat = s.y ∧ MovesOn (.sty m) [] [] [(resolve m s).1.ea] s t ∧
    t.bus = (resolve m s).2.bus ++ [.write (resolve m s).1.ea s.y]) ∧
  HasRows .STA [(0x81, .indirectX), (0x85, .zeroPage), (0x8D, .absolute), (0x91, .indirectY),
      (0x95, .zeroPageX), (0x99, .absoluteY), (0x9D, .absoluteX)] ∧
  HasRows .STX [(0x86, .zeroPage), (0x8E, .absolute), (0x96, .zeroPageY)] ∧
  HasRows .STY [(0x84, .zeroPage), (0x8C, .absolute), (0x94, .zeroPageX)] ∧
  decodeEntry 0x89 = none

/-- In every state TAX, TAY, TXA, TYA and TXS complete: the destination holds the source, Z and N come from it (for TXS
no flag changes), and every other register, flag and byte is unchanged. Their rows are the listed ones. The byte
values are those of 30_encoding.md R85, which the spec marks as general knowledge. (R150, R151, R152, R153, R155.) -/
def Obligations.TransfersCopyARegister : Prop :=
  (∀ s : State, ∃ t, exec .tax s = .next t ∧ t.x = s.a ∧ HasZN s.a t ∧ MovesOn .tax [.x] [.z, .n] [] s t) ∧
  (∀ s : State, ∃ t, exec .tay s = .next t ∧ t.y = s.a ∧ HasZN s.a t ∧ MovesOn .tay [.y] [.z, .n] [] s t) ∧
  (∀ s : State, ∃ t, exec .txa s = .next t ∧ t.a = s.x ∧ HasZN s.x t ∧ MovesOn .txa [.a] [.z, .n] [] s t) ∧
  (∀ s : State, ∃ t, exec .tya s = .next t ∧ t.a = s.y ∧ HasZN s.y t ∧ MovesOn .tya [.a] [.z, .n] [] s t) ∧
  (∀ s : State, ∃ t, exec .txs s = .next t ∧ t.sp = s.x ∧ MovesOn .txs [.sp] [] [] s t) ∧
  HasRows .TAX [(0xAA, .implied)] ∧
  HasRows .TAY [(0xA8, .implied)] ∧
  HasRows .TXA [(0x8A, .implied)] ∧
  HasRows .TYA [(0x98, .implied)] ∧
  HasRows .TXS [(0x9A, .implied)]

/-- In every state TSX completes: X holds SP; Z and N come from it when the parameter TSX_SETS_NZ is true and are
unchanged when it is false; nothing else changes but PC. The parameter and its default are the spec's own choice, C2
and D18. Its row is 0xBA. The byte values are those of 30_encoding.md R85, which the spec marks as general
knowledge. (42_transfer.md R154, 90_conflicts.md C2, 92_eei_decisions.md D18, 30_encoding.md R85.) -/
def Obligations.TsxCopiesSpAndSetsZNByParameter : Prop :=
  (∀ s : State, ∃ t, exec .tsx s = .next t ∧ t.x = s.sp ∧
    (s.params.tsxSetsNz = true → HasZN s.sp t ∧ MovesOn .tsx [.x] [.z, .n] [] s t) ∧
    (s.params.tsxSetsNz = false → MovesOn .tsx [.x] [] [] s t)) ∧
  HasRows .TSX [(0xBA, .implied)]

/-- For every operand and state ADC gives A = (A + M + C) mod 256 and SBC A = (A + (255 - M) + C) mod 256, whatever D
is; C is the carry out (for SBC exactly A >= M + (1 - C)), V the classic signed overflow of A and M (of A and 255 -
M), Z and N come from the result; nothing else changes but PC. Their rows are the listed ones. The byte values are
those of 30_encoding.md R85, which the spec marks as general knowledge. (R160, R161.) -/
def Obligations.AdcAndSbcAddWithCarryInBinary : Prop :=
  (∀ (o : Source) (s : State), ∃ t, exec (.adc o) s = .next t ∧
    let m := sourceValue o s
    let n := s.a.toNat + m.toNat + (flag .c s).toNat
    t.a.toNat = n % 256 ∧ (flag .c t = true ↔ 256 ≤ n) ∧
    (flag .v t = true ↔ s.a.getLsbD 7 = m.getLsbD 7 ∧ t.a.getLsbD 7 ≠ s.a.getLsbD 7) ∧
    HasZN t.a t ∧ MovesOn (.adc o) [.a] [.n, .v, .z, .c] [] s t) ∧
  (∀ (o : Source) (s : State), ∃ t, exec (.sbc o) s = .next t ∧
    let m := sourceValue o s
    let n := s.a.toNat + (255 - m.toNat) + (flag .c s).toNat
    t.a.toNat = n % 256 ∧ (flag .c t = true ↔ m.toNat + (1 - (flag .c s).toNat) ≤ s.a.toNat) ∧
    (flag .v t = true ↔ s.a.getLsbD 7 = (!m.getLsbD 7) ∧ t.a.getLsbD 7 ≠ s.a.getLsbD 7) ∧
    HasZN t.a t ∧ MovesOn (.sbc o) [.a] [.n, .v, .z, .c] [] s t) ∧
  HasRows .ADC [(0x61, .indirectX), (0x65, .zeroPage), (0x69, .immediate), (0x6D, .absolute),
      (0x71, .indirectY), (0x75, .zeroPageX), (0x79, .absoluteY), (0x7D, .absoluteX)] ∧
  HasRows .SBC [(0xE1, .indirectX), (0xE5, .zeroPage), (0xE9, .immediate), (0xED, .absolute),
      (0xF1, .indirectY), (0xF5, .zeroPageX), (0xF9, .absoluteY), (0xFD, .absoluteX)]

/-- For every operand and state AND, ORA and EOR complete: A is the bitwise combination, Z and N come from it, every
other register, flag (C and V too) and byte is unchanged. Their rows are the listed ones. The byte values are those
of 30_encoding.md R85, which the spec marks as general knowledge. (R162, R163, R164.) -/
def Obligations.LogicWritesAAndZN : Prop :=
  (∀ (o : Source) (s : State), ∃ t, exec (.and o) s = .next t ∧ t.a = s.a &&& sourceValue o s ∧
    HasZN (s.a &&& sourceValue o s) t ∧ MovesOn (.and o) [.a] [.z, .n] [] s t) ∧
  (∀ (o : Source) (s : State), ∃ t, exec (.ora o) s = .next t ∧ t.a = s.a ||| sourceValue o s ∧
    HasZN (s.a ||| sourceValue o s) t ∧ MovesOn (.ora o) [.a] [.z, .n] [] s t) ∧
  (∀ (o : Source) (s : State), ∃ t, exec (.eor o) s = .next t ∧ t.a = s.a ^^^ sourceValue o s ∧
    HasZN (s.a ^^^ sourceValue o s) t ∧ MovesOn (.eor o) [.a] [.z, .n] [] s t) ∧
  HasRows .AND [(0x21, .indirectX), (0x25, .zeroPage), (0x29, .immediate), (0x2D, .absolute),
      (0x31, .indirectY), (0x35, .zeroPageX), (0x39, .absoluteY), (0x3D, .absoluteX)] ∧
  HasRows .ORA [(0x01, .indirectX), (0x05, .zeroPage), (0x09, .immediate), (0x0D, .absolute),
      (0x11, .indirectY), (0x15, .zeroPageX), (0x19, .absoluteY), (0x1D, .absoluteX)] ∧
  HasRows .EOR [(0x41, .indirectX), (0x45, .zeroPage), (0x49, .immediate), (0x4D, .absolute),
      (0x51, .indirectY), (0x55, .zeroPageX), (0x59, .absoluteY), (0x5D, .absoluteX)]

/-- For every operand and state ASL gives (2v) mod 256 and ROL (2v) mod 256 plus the old carry, written back to A or to
the byte at the resolved address; C is bit 7 of v, Z and N come from the result; every other register, flag and byte
is unchanged. Nine ROLs of A restore A and C. Their rows are the listed ones. The byte values are those of
30_encoding.md R85, which the spec marks as general knowledge. (R170, R172.) -/
def Obligations.LeftShiftsMoveBitSevenToCarry : Prop :=
  (∀ (o : Target) (s : State), ∃ (t : State) (r : Byte), exec (.asl o) s = .next t ∧ HoldsResult o r s t ∧
    r.toNat = 2 * (targetValue o s).toNat % 256 ∧
    flag .c t = (targetValue o s).getLsbD 7 ∧ HasZN r t ∧
    MovesOn (.asl o) (writtenRegs (.asl o)) [.n, .z, .c] (storedAddrs (.asl o) s) s t) ∧
  (∀ (o : Target) (s : State), ∃ (t : State) (r : Byte), exec (.rol o) s = .next t ∧ HoldsResult o r s t ∧
    r.toNat = 2 * (targetValue o s).toNat % 256 + (flag .c s).toNat ∧
    flag .c t = (targetValue o s).getLsbD 7 ∧ HasZN r t ∧
    MovesOn (.rol o) (writtenRegs (.rol o)) [.n, .z, .c] (storedAddrs (.rol o) s) s t) ∧
  (∀ s : State, ∃ t, execTimes 9 (.rol .acc) s = .next t ∧ t.a = s.a ∧ flag .c t = flag .c s) ∧
  HasRows .ASL [(0x06, .zeroPage), (0x0A, .accumulator), (0x0E, .absolute), (0x16, .zeroPageX),
      (0x1E, .absoluteX)] ∧
  HasRows .ROL [(0x26, .zeroPage), (0x2A, .accumulator), (0x2E, .absolute), (0x36, .zeroPageX),
      (0x3E, .absoluteX)]

/-- For every operand and state LSR gives v / 2 and ROR v / 2 plus 128 times the old carry, written back to A or to the
byte at the resolved address; C is bit 0 of v, Z and N come from the result (so N is 0 after LSR and the old carry
after ROR); every other register, flag and byte is unchanged. Their rows are the listed ones. The byte values are
those of 30_encoding.md R85, which the spec marks as general knowledge. (R171, R173.) -/
def Obligations.RightShiftsMoveBitZeroToCarry : Prop :=
  (∀ (o : Target) (s : State), ∃ (t : State) (r : Byte), exec (.lsr o) s = .next t ∧ HoldsResult o r s t ∧
    r.toNat = (targetValue o s).toNat / 2 ∧
    flag .c t = (targetValue o s).getLsbD 0 ∧ HasZN r t ∧ flag .n t = false ∧
    MovesOn (.lsr o) (writtenRegs (.lsr o)) [.n, .z, .c] (storedAddrs (.lsr o) s) s t) ∧
  (∀ (o : Target) (s : State), ∃ (t : State) (r : Byte), exec (.ror o) s = .next t ∧ HoldsResult o r s t ∧
    r.toNat = (targetValue o s).toNat / 2 + 128 * (flag .c s).toNat ∧
    flag .c t = (targetValue o s).getLsbD 0 ∧ HasZN r t ∧ flag .n t = flag .c s ∧
    MovesOn (.ror o) (writtenRegs (.ror o)) [.n, .z, .c] (storedAddrs (.ror o) s) s t) ∧
  HasRows .LSR [(0x46, .zeroPage), (0x4A, .accumulator), (0x4E, .absolute), (0x56, .zeroPageX),
      (0x5E, .absoluteX)] ∧
  HasRows .ROR [(0x66, .zeroPage), (0x6A, .accumulator), (0x6E, .absolute), (0x76, .zeroPageX),
      (0x7E, .absoluteX)]

/-- For every operand and state CMP, CPX and CPY complete: C is register >= operand unsigned, Z and N come from the
wrapped difference, V and every other flag, every register and all of memory are unchanged. Their rows are the
listed ones. The byte values are those of 30_encoding.md R85, which the spec marks as general knowledge. (R180,
R181, R182.) -/
def Obligations.ComparesChangeOnlyFlags : Prop :=
  (∀ (o : Source) (s : State), ∃ t, exec (.cmp o) s = .next t ∧
    (flag .c t = true ↔ (sourceValue o s).toNat ≤ s.a.toNat) ∧ HasZN (s.a - sourceValue o s) t ∧
    MovesOn (.cmp o) [] [.n, .z, .c] [] s t) ∧
  (∀ (o : Source) (s : State), ∃ t, exec (.cpx o) s = .next t ∧
    (flag .c t = true ↔ (sourceValue o s).toNat ≤ s.x.toNat) ∧ HasZN (s.x - sourceValue o s) t ∧
    MovesOn (.cpx o) [] [.n, .z, .c] [] s t) ∧
  (∀ (o : Source) (s : State), ∃ t, exec (.cpy o) s = .next t ∧
    (flag .c t = true ↔ (sourceValue o s).toNat ≤ s.y.toNat) ∧ HasZN (s.y - sourceValue o s) t ∧
    MovesOn (.cpy o) [] [.n, .z, .c] [] s t) ∧
  HasRows .CMP [(0xC1, .indirectX), (0xC5, .zeroPage), (0xC9, .immediate), (0xCD, .absolute),
      (0xD1, .indirectY), (0xD5, .zeroPageX), (0xD9, .absoluteY), (0xDD, .absoluteX)] ∧
  HasRows .CPX [(0xE0, .immediate), (0xE4, .zeroPage), (0xEC, .absolute)] ∧
  HasRows .CPY [(0xC0, .immediate), (0xC4, .zeroPage), (0xCC, .absolute)]

/-- For every memory operand and state BIT completes: Z is (A and M) = 0, N is bit 7 of M, V is bit 6 of M; A, C, every
other flag and register and all of memory are unchanged. Apart from it, only ADC, SBC, PLP and RTI can take V from 0 to
1. Its rows are the listed ones. The byte values are those of
30_encoding.md R85, which the spec marks as general knowledge. (R183.) -/
def Obligations.BitTestLoadsNAndVFromTheOperand : Prop :=
  (∀ (m : Addr) (s : State), ∃ t, exec (.bit m) s = .next t ∧
    let v := readByte s.mem (resolve m s).1.ea.toNat
    (flag .z t = true ↔ s.a &&& v = 0) ∧ flag .n t = v.getLsbD 7 ∧ flag .v t = v.getLsbD 6 ∧
    MovesOn (.bit m) [] [.n, .v, .z] [] s t) ∧
  (∀ (i : Instr) (s t : State), exec i s = .next t → flag .v s = false → flag .v t = true →
    i.mnemonic ∈ [some Mnemonic.BIT, some .ADC, some .SBC, some .PLP, some .RTI]) ∧
  HasRows .BIT [(0x24, .zeroPage), (0x2C, .absolute)]

/-- For every memory operand and state INC and DEC complete: the byte at the resolved address becomes itself plus or
minus 1 modulo 256 by one read and one write, Z and N come from the result; every other byte, every register, C and
every other flag is unchanged. Their rows are the listed ones; 0x1A and 0x3A, the missing accumulator forms, are ILL.
The byte values are those of 30_encoding.md R85, which the spec marks as general knowledge. (R190, R191.) -/
def Obligations.IncAndDecChangeOneMemoryByte : Prop :=
  (∀ (m : Addr) (s : State), ∃ t, exec (.inc m) s = .next t ∧
    let v := readByte s.mem (resolve m s).1.ea.toNat
    let r := readByte t.mem (resolve m s).1.ea.toNat
    r.toNat = (v.toNat + 1) % 256 ∧ HasZN r t ∧
    MovesOn (.inc m) [] [.z, .n] [(resolve m s).1.ea] s t ∧
    t.bus = (resolve m s).2.bus ++ [.read (resolve m s).1.ea v, .write (resolve m s).1.ea r]) ∧
  (∀ (m : Addr) (s : State), ∃ t, exec (.dec m) s = .next t ∧
    let v := readByte s.mem (resolve m s).1.ea.toNat
    let r := readByte t.mem (resolve m s).1.ea.toNat
    r.toNat = (v.toNat + 255) % 256 ∧ HasZN r t ∧
    MovesOn (.dec m) [] [.z, .n] [(resolve m s).1.ea] s t ∧
    t.bus = (resolve m s).2.bus ++ [.read (resolve m s).1.ea v, .write (resolve m s).1.ea r]) ∧
  HasRows .INC [(0xE6, .zeroPage), (0xEE, .absolute), (0xF6, .zeroPageX), (0xFE, .absoluteX)] ∧
  HasRows .DEC [(0xC6, .zeroPage), (0xCE, .absolute), (0xD6, .zeroPageX), (0xDE, .absoluteX)] ∧
  decodeEntry 0x1A = none ∧ decodeEntry 0x3A = none

/-- In every state INX, DEX, INY and DEY complete: the index register changes by 1 modulo 256, Z and N come from it;
every other register, C and every other flag, and all of memory are unchanged. Their rows are the listed ones. The
byte values are those of 30_encoding.md R85, which the spec marks as general knowledge. (R192, R193, R194, R195.) -/
def Obligations.IndexRegistersCountModulo256 : Prop :=
  (∀ s : State, ∃ t, exec .inx s = .next t ∧ t.x.toNat = (s.x.toNat + 1) % 256 ∧ HasZN t.x t ∧
    MovesOn .inx [.x] [.z, .n] [] s t) ∧
  (∀ s : State, ∃ t, exec .dex s = .next t ∧ t.x.toNat = (s.x.toNat + 255) % 256 ∧ HasZN t.x t ∧
    MovesOn .dex [.x] [.z, .n] [] s t) ∧
  (∀ s : State, ∃ t, exec .iny s = .next t ∧ t.y.toNat = (s.y.toNat + 1) % 256 ∧ HasZN t.y t ∧
    MovesOn .iny [.y] [.z, .n] [] s t) ∧
  (∀ s : State, ∃ t, exec .dey s = .next t ∧ t.y.toNat = (s.y.toNat + 255) % 256 ∧ HasZN t.y t ∧
    MovesOn .dey [.y] [.z, .n] [] s t) ∧
  HasRows .INX [(0xE8, .implied)] ∧
  HasRows .DEX [(0xCA, .implied)] ∧
  HasRows .INY [(0xC8, .implied)] ∧
  HasRows .DEY [(0x88, .implied)]

/-- For every displacement and state the eight branches complete: PC is the advanced PC plus the signed displacement
when the flag has the expected value and the advanced PC when not, modulo 65536; no register, flag or byte changes,
and no data memory is accessed. Their rows are the listed ones. The byte values are those of 30_encoding.md R85,
which the spec marks as general knowledge. (R200, R201, R202, R203, R204, R205, R206, R207, R208.) -/
def Obligations.BranchesTestOneFlagAndMoveOnlyPc : Prop :=
  BranchesWhen .bcc (fun s => !flag .c s) ∧ BranchesWhen .bcs (fun s => flag .c s) ∧
  BranchesWhen .beq (fun s => flag .z s) ∧ BranchesWhen .bne (fun s => !flag .z s) ∧
  BranchesWhen .bmi (fun s => flag .n s) ∧ BranchesWhen .bpl (fun s => !flag .n s) ∧
  BranchesWhen .bvc (fun s => !flag .v s) ∧ BranchesWhen .bvs (fun s => flag .v s) ∧
  HasRows .BCC [(0x90, .relative)] ∧
  HasRows .BCS [(0xB0, .relative)] ∧
  HasRows .BEQ [(0xF0, .relative)] ∧
  HasRows .BNE [(0xD0, .relative)] ∧
  HasRows .BMI [(0x30, .relative)] ∧
  HasRows .BPL [(0x10, .relative)] ∧
  HasRows .BVC [(0x50, .relative)] ∧
  HasRows .BVS [(0x70, .relative)]

/-- In every state the seven flag instructions complete: the named flag has its value, every other flag, every register
and all of memory are unchanged, and no data access is made. ADC and SBC give the same A and the same other flags
whatever D is. I is 1 in State.reset. Their rows are the listed ones. That clearing I by CLI
enables nothing (R212, D12) is not part of this. The byte values are those of 30_encoding.md R85, which the spec
marks as general knowledge. (R210, R211, R213, R214, R215, R216.) -/
def Obligations.FlagInstructionsTouchOneFlag : Prop :=
  WritesFlag .clc .c false ∧
  WritesFlag .sec .c true ∧
  WritesFlag .cli .i false ∧
  WritesFlag .sei .i true ∧
  WritesFlag .cld .d false ∧
  WritesFlag .sed .d true ∧
  WritesFlag .clv .v false ∧
  (∀ (d : Bool) (o : Source) (s : State), ∀ i ∈ [Instr.adc o, .sbc o], ∃ t t', exec i s = .next t ∧
    exec i (setFlag .d d s) = .next t' ∧ t'.a = t.a ∧ ∀ f, f ≠ .d → flag f t' = flag f t) ∧
  flag .i State.reset = true ∧
  HasRows .CLC [(0x18, .implied)] ∧
  HasRows .SEC [(0x38, .implied)] ∧
  HasRows .CLI [(0x58, .implied)] ∧
  HasRows .SEI [(0x78, .implied)] ∧
  HasRows .CLD [(0xD8, .implied)] ∧
  HasRows .SED [(0xF8, .implied)] ∧
  HasRows .CLV [(0xB8, .implied)]

/-- In every state PHA completes: A stands at 0x0100 + SP, SP is one less modulo 256, every other byte and register and
every flag is unchanged. Its row is 0x48. The byte values are those of 30_encoding.md R85, which the spec marks as
general knowledge. (R220.) -/
def Obligations.PhaPushesA : Prop :=
  (∀ s : State, ∃ t, exec .pha s = .next t ∧ readByte t.mem (0x0100 + s.sp.toNat) = s.a ∧
    t.sp.toNat = (s.sp.toNat + 255) % 256 ∧ MovesOn .pha [.sp] [] [stackAddr s.sp] s t) ∧
  HasRows .PHA [(0x48, .implied)]

/-- In every state PLA completes: A is the byte at 0x0100 + (SP + 1 mod 256), SP is one more modulo 256, Z and N come
from the byte; nothing else changes but PC. That PLA sets Z and N is the spec's own decision D19. Its row is 0x68.
The byte values are those of 30_encoding.md R85, which the spec marks as general knowledge. (49_stack_control.md
R221, 92_eei_decisions.md D19, 30_encoding.md R85.) -/
def Obligations.PlaPullsAAndSetsZN : Prop :=
  (∀ s : State, ∃ t, exec .pla s = .next t ∧ t.a = readByte s.mem (0x0100 + (s.sp.toNat + 1) % 256) ∧
    t.sp.toNat = (s.sp.toNat + 1) % 256 ∧ HasZN t.a t ∧ MovesOn .pla [.a, .sp] [.z, .n] [] s t) ∧
  HasRows .PLA [(0x68, .implied)]

/-- In every state PHP completes: the byte at 0x0100 + SP is P with bits 4 and 5 set, SP is one less modulo 256, P and
everything else is unchanged but PC. The pushed bits are the spec's own decision D8. Its row is 0x08. The byte
values are those of 30_encoding.md R85, which the spec marks as general knowledge. (49_stack_control.md R222,
92_eei_decisions.md D8, 30_encoding.md R85.) -/
def Obligations.PhpPushesPWithBitsFourAndFive : Prop :=
  (∀ s : State, ∃ t, exec .php s = .next t ∧ readByte t.mem (0x0100 + s.sp.toNat) = getP s ||| 0x30 ∧
    t.sp.toNat = (s.sp.toNat + 255) % 256 ∧ getP t = getP s ∧ MovesOn .php [.sp] [] [stackAddr s.sp] s t) ∧
  HasRows .PHP [(0x08, .implied)]

/-- In every state PLP completes: with p the byte at 0x0100 + (SP + 1 mod 256), N, V, D, I, Z and C are p's bits, B and
bit 5 are as before, SP is one more modulo 256; nothing else changes but PC. Keeping B is the spec's own decision
D8. Its row is 0x28. The byte values are those of 30_encoding.md R85, which the spec marks as general knowledge.
(49_stack_control.md R223, 92_eei_decisions.md D8, 10_state.md R41, 30_encoding.md R85.) -/
def Obligations.PlpPullsEveryFlagButB : Prop :=
  (∀ s : State, ∃ t, exec .plp s = .next t ∧
    let p := readByte s.mem (0x0100 + (s.sp.toNat + 1) % 256)
    (∀ f, f ≠ .b → flag f t = p.getLsbD (flagBit f)) ∧ getP t = (p &&& 0xCF) ||| (getP s &&& 0x10) ||| 0x20 ∧
    t.sp.toNat = (s.sp.toNat + 1) % 256 ∧ MovesOn .plp [.sp] [.n, .v, .d, .i, .z, .c] [] s t) ∧
  HasRows .PLP [(0x28, .implied)]

/-- From every state PHP and then PLP complete, and P (read whole, B and bit 5 too) and SP are as before. It rests on
the spec's own decision D8. (49_stack_control.md R222, 49_stack_control.md R223, 95_test_vectors.md section 1.2.) -/
def Obligations.PhpThenPlpRestoresP : Prop :=
  ∀ s : State, ∃ t u, exec .php s = .next t ∧ exec .plp t = .next u ∧ getP u = getP s ∧ u.sp = s.sp

/-- For every target and state JSR completes: the high byte of opc + 2 stands at 0x0100 + SP, the low byte at 0x0100 +
(SP - 1 mod 256), SP is two less modulo 256, PC is the target; every other byte and register and every flag is
unchanged, and the two writes are its data transactions in that order. Its row is 0x20. The byte values are those of
30_encoding.md R85, which the spec marks as general knowledge. (R224.) -/
def Obligations.JsrPushesItsLastByteAddressAndJumps : Prop :=
  (∀ (target : Word) (s : State), ∃ t, exec (.jsr target) s = .next t ∧
    let ret := (s.pc.toNat + 2) % 65536
    let hiAt := 0x0100 + s.sp.toNat
    let loAt := 0x0100 + (s.sp.toNat + 255) % 256
    (readByte t.mem hiAt).toNat = ret / 256 ∧ (readByte t.mem loAt).toNat = ret % 256 ∧
    t.sp.toNat = (s.sp.toNat + 254) % 256 ∧ t.pc = target ∧ t.runState = s.runState ∧
    KeepsAllBut [.sp] [] [stackAddr s.sp, stackAddr (s.sp - 1)] s t ∧
    t.bus = s.bus ++ [.write (BitVec.ofNat 16 hiAt) (BitVec.ofNat 8 (ret / 256)),
      .write (BitVec.ofNat 16 loAt) (BitVec.ofNat 8 ret)]) ∧
  HasRows .JSR [(0x20, .absolute)] ∧
  (∀ lo hi : Byte, buildInstr .JSR .absolute lo hi = some (.jsr (hiLo hi lo)))

/-- In every state RTS completes: PC is the word whose low byte is at 0x0100 + (SP + 1 mod 256) and whose high byte is
at 0x0100 + (SP + 2 mod 256), plus 1 modulo 65536; SP is two more modulo 256; every other register, every flag and
all of memory are unchanged. After a JSR to any target, RTS returns to the instruction after it and restores SP. Its
row is 0x60. The byte values are those of 30_encoding.md R85, which the spec marks as general knowledge. (R225.) -/
def Obligations.RtsReturnsToThePulledWordPlusOne : Prop :=
  (∀ s : State, ∃ t, exec .rts s = .next t ∧
    t.pc.toNat = ((readByte s.mem (0x0100 + (s.sp.toNat + 2) % 256)).toNat * 256 +
      (readByte s.mem (0x0100 + (s.sp.toNat + 1) % 256)).toNat + 1) % 65536 ∧
    t.sp.toNat = (s.sp.toNat + 2) % 256 ∧ KeepsAllBut [.sp] [] [] s t ∧ t.runState = s.runState) ∧
  (∀ (target : Word) (s : State), ∃ t u, exec (.jsr target) s = .next t ∧ exec .rts t = .next u ∧
    u.pc = s.pc + 3 ∧ u.sp = s.sp) ∧
  HasRows .RTS [(0x60, .implied)]

/-- In every state RTI completes: N, V, D, I, Z and C come from the byte at 0x0100 + (SP + 1 mod 256), B is kept, PC is
the word at the next two stack bytes, low first, SP is three more modulo 256; nothing else changes. The sequence is
the spec's own decision D9. Its row is 0x40. The byte values are those of 30_encoding.md R85, which the spec marks
as general knowledge. (49_stack_control.md R226, 60_exceptions.md R248, 92_eei_decisions.md D9, 30_encoding.md R85.)
-/
def Obligations.RtiPullsPAndThenPc : Prop :=
  (∀ s : State, ∃ t, exec .rti s = .next t ∧
    let p := readByte s.mem (0x0100 + (s.sp.toNat + 1) % 256)
    (∀ f, f ≠ .b → flag f t = p.getLsbD (flagBit f)) ∧ getP t = (p &&& 0xCF) ||| (getP s &&& 0x10) ||| 0x20 ∧
    t.pc.toNat = (readByte s.mem (0x0100 + (s.sp.toNat + 3) % 256)).toNat * 256 +
      (readByte s.mem (0x0100 + (s.sp.toNat + 2) % 256)).toNat ∧
    t.sp.toNat = (s.sp.toNat + 3) % 256 ∧ KeepsAllBut [.sp] [.n, .v, .d, .i, .z, .c] [] s t ∧ t.runState = s.runState) ∧
  HasRows .RTI [(0x40, .implied)]

/-- For every operand and state JMP completes and changes nothing but PC: Absolute makes no data access and goes to the
operand; Indirect reads the low byte at the pointer and the high byte at the next address, inside the pointer's page
when JMP_IND_PAGE_WRAP is true. JMP and the page wrap are the spec's general knowledge and its decision D6. Its rows
are 0x4C (Absolute) and 0x6C (Indirect), and the operand's low byte comes first. The byte values are those of
30_encoding.md R85, which the spec marks as general knowledge. That the pointer reads are the only transactions
here, and that Absolute has none, rests on the operand bytes being read by the fetch, before exec, which is the
model's choice (notes/assumptions/5.md and 15.md). (49_stack_control.md R227, 40_addressing_sequencer.md R106,
40_addressing_sequencer.md R112, 92_eei_decisions.md D6, 30_encoding.md R85.) -/
def Obligations.JmpGoesToItsTarget : Prop :=
  (∀ (w : Word) (s : State), ∃ t, exec (.jmp (.abs w)) s = .next t ∧ t.pc = w ∧ t.bus = s.bus ∧
    KeepsAllBut [] [] [] s t ∧ t.runState = s.runState) ∧
  (∀ (ptr : Word) (s : State), ∃ t, exec (.jmp (.ind ptr)) s = .next t ∧
    let hiAt := if s.params.jmpIndPageWrap then ptr.toNat / 256 * 256 + (ptr.toNat + 1) % 256
      else (ptr.toNat + 1) % 65536
    t.pc.toNat = (readByte s.mem hiAt).toNat * 256 + (readByte s.mem ptr.toNat).toNat ∧
    t.bus = s.bus ++ [.read ptr (readByte s.mem ptr.toNat), .read (BitVec.ofNat 16 hiAt) (readByte s.mem hiAt)] ∧
    KeepsAllBut [] [] [] s t ∧ t.runState = s.runState) ∧
  HasRows .JMP [(0x4C, .absolute), (0x6C, .indirect)] ∧
  (∀ lo hi : Byte, buildInstr .JMP .absolute lo hi = some (.jmp (.abs (hiLo hi lo))) ∧
    buildInstr .JMP .indirect lo hi = some (.jmp (.ind (hiLo hi lo))))

/-- In every state NOP completes and the state is the one before with PC one more, modulo 65536. NOP is the spec's
general knowledge. Its row is 0xEA. The byte values are those of 30_encoding.md R85, which the spec marks as general
knowledge. (49_stack_control.md R229, 30_encoding.md R85.) -/
def Obligations.NopOnlyAdvancesPc : Prop :=
  (∀ s : State, ∃ t, exec .nop s = .next t ∧ t.pc.toNat = (s.pc.toNat + 1) % 65536 ∧ t = { s with pc := t.pc }) ∧
  HasRows .NOP [(0xEA, .implied)]

/-- In every state BRK completes: the run state is Halted, B is 1, every other flag, every register and all of memory
are unchanged, no bus transaction is made, and PC stays at opc, or is opc + 1 when BRK_HALT_PC_ADVANCE is true. PC,
I and the absence of pushes are the spec's own decision D5. (49_stack_control.md R228, 60_exceptions.md R242,
60_exceptions.md R247, 92_eei_decisions.md D5.) -/
def Obligations.BrkSetsBAndHalts : Prop :=
  ∀ s : State, ∃ t, exec .brk s = .next t ∧ t.runState = .halted ∧ flag .b t = true ∧
    KeepsAllBut [] [.b] [] s t ∧ t.bus = s.bus ∧
    t.pc = if s.params.brkHaltPcAdvance then s.pc + 1 else s.pc

/-- For every byte and state ILL takes its exception: the run state is Faulted with the opcode byte and PC, and the
state is otherwise the one before: A, X, Y, SP, P, PC, memory and the transaction list. And while Running, a step
that fetches an undocumented byte ends so, with the opcode fetch as its only transaction. That these bytes fault is
the spec's own decision D2; that the fault is a next state is notes/assumptions/6.md. (60_exceptions.md R241,
60_exceptions.md R243, 92_eei_decisions.md D2, D21.) -/
def Obligations.IllegalOpcodeIsRecordedAndChangesNothing : Prop :=
  (∀ (op : Byte) (s : State), ∃ t, exec (.ill op) s = .next t ∧ t.runState = .faulted op s.pc ∧
    t = { s with runState := t.runState }) ∧
  (∀ s : State, s.runState = .running → readByte s.mem s.pc.toNat ∈ undocumentedOpcodes →
    step s = .next { s with
      runState := .faulted (readByte s.mem s.pc.toNat) s.pc, bus := [.read s.pc (readByte s.mem s.pc.toNat)] })

/-- If the block is Running and the three bytes at PC (addresses wrapping) decode to i, then step is exec of i on the
state whose transaction list is just the fetch of the bytes of i, in address order. Three parts of this are the
model's choices: the list begins empty at each step (notes/assumptions/4.md), the operand bytes, an immediate one
too, are read by the fetch and not by the resolver or the body (5.md), and the BRK check of R120 is the arm of the
decoded BRK (15.md). (40_addressing_sequencer.md R120, 40_addressing_sequencer.md R126, 30_encoding.md R90.) -/
def Obligations.StepRunsTheDecodedInstruction : Prop :=
  ∀ (s : State) (i : Instr) (rest : List Byte), s.runState = .running → decode (bytesAtPc s) = .ok (i, rest) →
    step s = exec i { s with bus := fetchEvents i.length s.pc (bytesAtPc s) }

/-- When the run state is not Running, a step answers the same state, and so does a run of any length. It is the spec's
own decision D22. (60_exceptions.md R244, 92_eei_decisions.md D22.) -/
def Obligations.TerminalStatesDoNotStep : Prop :=
  ∀ s : State, s.runState ≠ .running → step s = .next s ∧ ∀ n, runFor n s = .next s

/-- From every Running state a step completes, and the run state after it is Halted if the byte at PC is 0x00, Faulted
with that byte and PC if it is undocumented, and Running otherwise: there is no other outcome. (R240.) -/
def Obligations.TheOpcodeByteSelectsTheOutcome : Prop :=
  ∀ s : State, s.runState = .running → ∃ t, step s = .next t ∧
    (readByte s.mem s.pc.toNat = 0x00 → t.runState = .halted) ∧
    (readByte s.mem s.pc.toNat ∈ undocumentedOpcodes → t.runState = .faulted (readByte s.mem s.pc.toNat) s.pc) ∧
    (readByte s.mem s.pc.toNat ≠ 0x00 → readByte s.mem s.pc.toNat ∉ undocumentedOpcodes → t.runState = .running)

/-- For every well-formed instruction, whatever its operand bytes, and every list of bytes after it: it has an encoding
of 1 to 3 bytes, and decoding that followed by the list gives the instruction and the list. (30_encoding.md R80,
30_encoding.md R82, 30_encoding.md R85, 30_encoding.md R90.) -/
def Obligations.DecodeReturnsTheEncodedInstruction : Prop :=
  ∀ i : Instr, i.wellFormed = true → ∃ bs, encode i = some bs ∧ bs.length = i.length ∧ 1 ≤ bs.length ∧ bs.length ≤ 3 ∧
    ∀ rest, decode (bs ++ rest) = .ok (i, rest)

/-- For all three bytes and every list after them, decoding answers a well-formed instruction and the bytes left over,
and the encoding of that instruction followed by what is left over is the input: no bit is dropped and each word has
one meaning. (30_encoding.md R83, 30_encoding.md R85, 30_encoding.md R88, 30_encoding.md R90.) -/
def Obligations.EveryThreeBytesAreOneInstruction : Prop :=
  ∀ (b0 b1 b2 : Byte) (more : List Byte), ∃ i rest bs, decode (b0 :: b1 :: b2 :: more) = .ok (i, rest) ∧
    i.wellFormed = true ∧ encode i = some bs ∧ bs ++ rest = b0 :: b1 :: b2 :: more

/-- A byte has no documented entry exactly when it is one of the 105 listed; there are 105 of them, none listed twice; a
documented entry names its own byte and has the length of its mode; and every documented entry builds an instruction
of its mnemonic. That the others are ILL is the spec's own decision D2. (30_encoding.md R83, 30_encoding.md R88,
92_eei_decisions.md D2.) -/
def Obligations.UndocumentedBytesAreTheIllRows : Prop :=
  (∀ op : Byte, decodeEntry op = none ↔ op ∈ undocumentedOpcodes) ∧
  undocumentedOpcodes.length = 105 ∧ undocumentedOpcodes.Nodup ∧
  (∀ (op : Byte) (e : DecodeEntry), decodeEntry op = some e →
    e.opcode = op ∧ e.bytes = e.mode.length ∧ e.mode ∈ e.mnemonic.modes ∧
    ∀ b1 b2, ∃ i, buildInstr e.mnemonic e.mode b1 b2 = some i ∧ i.mnemonic = some e.mnemonic ∧ i.mode = some e.mode)

/-- A9 05 is LDA #5, 0A is ASL A, 29 76 is AND #$76, A2 88 is LDX #$88, E0 88 is CPX #$88, F0 02 is BEQ +2, E8 is INX
and 00 is BRK; and 20 09 80 is JSR $8009 with the low byte first. (95_test_vectors.md section 1.1, 30_encoding.md
R85.) -/
def Obligations.ScenarioWordsDecode : Prop :=
  decode [0xA9, 0x05] = .ok (.lda (.imm 0x05), []) ∧ decode [0x0A] = .ok (.asl .acc, []) ∧
  decode [0x29, 0x76] = .ok (.and (.imm 0x76), []) ∧ decode [0xA2, 0x88] = .ok (.ldx (.imm 0x88), []) ∧
  decode [0xE0, 0x88] = .ok (.cpx (.imm 0x88), []) ∧ decode [0xF0, 0x02] = .ok (.beq 0x02, []) ∧
  decode [0xE8] = .ok (.inx, []) ∧ decode [0x00] = .ok (.brk, []) ∧
  decode [0x20, 0x09, 0x80] = .ok (.jsr 0x8009, [])

/-- For every instruction and state exec answers a next state; each byte register outside the table of R34, each flag
outside the table of R50, bit 5 of P, each byte of memory outside the addresses the instruction stores to (computed
by the resolver from the state before), and the parameters are unchanged. (10_state.md R34, 10_state.md R50,
20_memory.md R67, 20_memory.md R70, 40_addressing_sequencer.md R124.) -/
def Obligations.EveryInstructionKeepsAllButItsTable : Prop :=
  ∀ (i : Instr) (s : State), ∃ t, exec i s = .next t ∧
    KeepsAllBut (writtenRegs i) (writtenFlags i) (storedAddrs i s) s t

/-- For every instruction that is no branch, JMP, JSR, RTS, RTI, BRK or ILL, and every state: exec answers a next state
whose PC is opc plus the length of the instruction modulo 65536 and whose run state is unchanged.
(40_addressing_sequencer.md R121, 40_addressing_sequencer.md R122, 10_state.md R37, 40_addressing_sequencer.md
R124.) -/
def Obligations.OnlyControlTransfersRedirectPc : Prop :=
  ∀ (i : Instr) (s : State), onlyAdvancesPc i = true → ∃ t, exec i s = .next t ∧
    t.pc.toNat = (s.pc.toNat + i.length) % 65536 ∧ t.runState = s.runState

/-- For every instruction and state exec appends to the transaction list exactly the reads and writes of its row of R67,
in order, each at its address: the pointer bytes, the resolver's ea, the stack bytes at 0x0100 + SP as SP moves.
Carrying them out on the memory before, each read gives the byte memory holds at that point, and the memory at the
end is the memory after the instruction. R67's one read of an immediate operand is made by the fetch, before exec,
and so is not in the list here (the model's choice, notes/assumptions/5.md). That each access happens once, with no
dummy access, is the spec's own decision D10 (notes/assumptions/10.md). (20_memory.md R66, 20_memory.md R67,
20_memory.md R68, 40_addressing_sequencer.md R126, 92_eei_decisions.md D10.) -/
def Obligations.TransactionsAccountForMemory : Prop :=
  ∀ (i : Instr) (s : State), ∃ t l, exec i s = .next t ∧ t.bus = s.bus ++ l ∧ l.map BusEvent.access = accesses i s ∧
    replay l s.mem = some t.mem

/-- From two states that agree but for I and D, every instruction other than PHP answers two states that agree but for I
and D: registers, PC, run state, memory, transactions and every other flag are the same. That I has no effect is the
spec's own decision D12. (10_state.md R45, 10_state.md R46, 92_eei_decisions.md D12, D17.) -/
def Obligations.InterruptAndDecimalFlagsHaveNoEffect : Prop :=
  ∀ (i : Instr) (s s' : State), i ≠ .php → AgreeButID s s' →
    ∃ t t', exec i s = .next t ∧ exec i s' = .next t' ∧ AgreeButID t t'

/-- From every state and for every b the four instructions complete and A is as before. The law's form is the spec's own
correction, C4. (43_arithmetic_logical.md R165, 90_conflicts.md C4.) -/
def Obligations.AddThenSubtractRestoresA : Prop :=
  ∀ (b : Byte) (s : State), ∃ s1 s2 s3 s4, exec .clc s = .next s1 ∧ exec (.adc (.imm b)) s1 = .next s2 ∧
    exec .sec s2 = .next s3 ∧ exec (.sbc (.imm b)) s3 = .next s4 ∧ s4.a = s.a

/-- Run(0) answers the same state. From a Running state Run(1) is a step, and Run(n + 1) is Run(n) from the state after
a step. From every state Run(n) completes, and running k more from where it stopped is Run(n + k). The host's Stop
answers the very same state, still Running if it was, so that the block can be resumed; its Step is a step and its
Run(n) is that run. That a stop leaves the block Running is the spec's own decision D16. That Run(n) takes fewer
steps once the block is not Running is read from 'up to n' (notes/assumptions/17.md). (60_exceptions.md R250,
60_exceptions.md R253, 92_eei_decisions.md D16.) -/
def Obligations.RunsOfStepsCompose : Prop :=
  (∀ s : State, runFor 0 s = .next s) ∧
  (∀ s : State, s.runState = .running → runFor 1 s = step s) ∧
  (∀ (n : Nat) (s t : State), s.runState = .running → step s = .next t → runFor (n + 1) s = runFor n t) ∧
  (∀ (n k : Nat) (s : State), ∃ t, runFor n s = .next t ∧ runFor (n + k) s = runFor k t) ∧
  (∀ s : State, hostControl .stop s = .next s) ∧ (∀ s : State, hostControl .step s = step s) ∧
  (∀ (n : Nat) (s : State), hostControl (.run n) s = runFor n s)

/-- The page-cross-sensitive rows are exactly those of the nine reads (LDA, LDX, LDY, ADC, SBC, AND, ORA, EOR, CMP) in
AbsoluteX, AbsoluteY and IndirectY. Each such read takes 4 cycles in AbsoluteX and AbsoluteY and 5 in IndirectY, and
one more when the indexed high byte differs. STA takes 5, 5 and 6 in these modes and the six read-modify-writes 7 in
AbsoluteX, crossing or not. Each of the eight branches takes 2 when not taken, 3 when taken in the page of opc + 2,
4 across it. Every other row takes its base count in every state. The numbers are the spec's general knowledge, and
which addresses are compared is its decision D20. (70_reset_and_hazards.md R268, 70_reset_and_hazards.md R269,
70_reset_and_hazards.md R270, 92_eei_decisions.md D20.) -/
def Obligations.CyclesOfIndexedReadsAndBranches : Prop :=
  (∀ (op : Byte) (e : DecodeEntry), decodeEntry op = some e →
    (e.pageCrossAddsCycle = true ↔
      e.mnemonic ∈ [Mnemonic.LDA, .LDX, .LDY, .ADC, .SBC, .AND, .ORA, .EOR, .CMP] ∧
      e.mode ∈ [Mode.absoluteX, .absoluteY, .indirectY])) ∧
  (∀ (w : Word) (s : State),
    let ea := (w.toNat + s.x.toNat) % 65536
    ∀ i ∈ [Instr.lda, .ldy, .adc, .sbc, .and, .ora, .eor, .cmp],
      cycles (i (.mem (.absX w))) s = some (if ea / 256 = w.toNat / 256 then 4 else 5)) ∧
  (∀ (w : Word) (s : State),
    let ea := (w.toNat + s.y.toNat) % 65536
    ∀ i ∈ [Instr.lda, .ldx, .adc, .sbc, .and, .ora, .eor, .cmp],
      cycles (i (.mem (.absY w))) s = some (if ea / 256 = w.toNat / 256 then 4 else 5)) ∧
  (∀ (z : Byte) (s : State),
    let base := (readByte s.mem ((z.toNat + 1) % 256)).toNat * 256 + (readByte s.mem z.toNat).toNat
    let ea := (base + s.y.toNat) % 65536
    ∀ i ∈ [Instr.lda, .adc, .sbc, .and, .ora, .eor, .cmp],
      cycles (i (.mem (.indY z))) s = some (if ea / 256 = base / 256 then 5 else 6)) ∧
  (∀ (w : Word) (z : Byte) (s : State),
    cycles (.sta (.absX w)) s = some 5 ∧ cycles (.sta (.absY w)) s = some 5 ∧ cycles (.sta (.indY z)) s = some 6 ∧
    (∀ i ∈ [Instr.asl, .lsr, .rol, .ror], cycles (i (.mem (.absX w))) s = some 7) ∧
    (∀ i ∈ [Instr.inc, .dec], cycles (i (.absX w)) s = some 7)) ∧
  (∀ (d : Byte) (s : State),
    let after := (s.pc.toNat + 2) % 65536
    let target : Int := ((s.pc.toNat : Int) + 2 + d.toInt) % 65536
    ∀ b ∈ [(Instr.bcc, !flag .c s), (.bcs, flag .c s), (.beq, flag .z s), (.bne, !flag .z s), (.bmi, flag .n s),
        (.bpl, !flag .n s), (.bvc, !flag .v s), (.bvs, flag .v s)],
      cycles (b.1 d) s = some (if b.2 then (if target / 256 = (after : Int) / 256 then 3 else 4) else 2)) ∧
  (∀ (i : Instr) (s : State) (op : Byte) (e : DecodeEntry), i.opcode = some op → decodeEntry op = some e →
    e.pageCrossAddsCycle = false → e.mode ≠ .relative → cycles i s = some e.baseCycles)

/-- In every state the inspection port shows A, X, Y, SP, PC and P, with bit 5 of P at 1, and its reads give the stored
byte and the little-endian word, modulo 65536. Its byte write leaves the byte at its address, its word write the low
byte at the address and the high byte at the next one; every other byte, the six registers, the run state, the
transaction list and the parameters are as before. A canonical memory stays canonical, and from a Running state that
meets Inv both writes give a state that meets Inv. That the port's memory operations are the four of 20_memory.md
R60, and that they are no transactions of the block, is the model's reading (notes/assumptions/17.md and 4.md).
(00_scope.md R18, 60_exceptions.md R252, 20_memory.md R60, 10_state.md R41.) -/
def Obligations.InspectionPortShowsRegistersAndAccessesMemory : Prop :=
  (∀ s : State, inspect s = ⟨s.a, s.x, s.y, s.sp, s.pc, getP s⟩ ∧ (inspect s).status.getLsbD 5 = true) ∧
  (∀ (a : Word) (s : State), inspectByte a s = readByte s.mem a.toNat ∧
    (inspectWord a s).toNat =
      (readByte s.mem ((a.toNat + 1) % 65536)).toNat * 256 + (readByte s.mem a.toNat).toNat) ∧
  (∀ (a : Word) (v : Byte) (s : State),
    let t := inspectWriteByte a v s
    (∀ b, inspectByte b t = if b = a then v else inspectByte b s) ∧ t = { s with mem := t.mem } ∧
    inspect t = inspect s ∧ (s.mem.wf = true → t.mem.wf = true) ∧ (s.runState = .running → Inv s → Inv t)) ∧
  (∀ (a w : Word) (s : State),
    let t := inspectWriteWord a w s
    (∀ b, b ≠ a → b ≠ a + 1 → inspectByte b t = inspectByte b s) ∧ inspectByte a t = loByte w ∧
    inspectByte (a + 1) t = hiByte w ∧ inspectWord a t = w ∧ t = { s with mem := t.mem } ∧
    inspect t = inspect s ∧ (s.mem.wf = true → t.mem.wf = true) ∧ (s.runState = .running → Inv s → Inv t))

/-- For every state and every value f of BUS_READ: a bus read with f gives the stored byte, and a step and the reset
from the state with f answer exactly what they answer without it, with f in the parameters. That every address is
mapped is 93_implementation_defined.md section 1, row 1; that BUS_READ stands in the parameters as data is the
model's choice (notes/assumptions/1.md and 8.md). (00_scope.md R9, 20_memory.md R63, 93_implementation_defined.md
section 1, 92_eei_decisions.md D23.) -/
def Obligations.UnmappedReadValueIsNeverConsulted : Prop :=
  ∀ (f : Memory) (s : State),
    (∀ a : Word, (busRead a (withBusRead f s)).1 = readByte s.mem a.toNat) ∧
    (∃ t, step s = .next t ∧ step (withBusRead f s) = .next (withBusRead f t)) ∧
    resetBlock (withBusRead f s) = withBusRead f (resetBlock s)

/-- From every state, Halted and Faulted ones too, the host's start loads the program and resets, and answers exactly
the launch of that program over the memory and the parameters the block has; the block is Running, and P, A, X, Y
and SP have their reset values. So two states with the same memory and parameters start alike. That a restart runs
over the memory and the parameters the block has is the model's reading (notes/assumptions/17.md, DEDUCED): read
literally, 10_state.md R55 and 20_memory.md R70 give INITIAL_MEMORY outside the loader's bytes at every launch. The
zeros of A and Y, SP_RESET's default and the zero bits of P are the spec's own decisions D4, D3 and D27.
(70_reset_and_hazards.md R260, 70_reset_and_hazards.md R262, 60_exceptions.md R253, 00_scope.md R18, 10_state.md
R55, 20_memory.md R70, 92_eei_decisions.md D3, D4, D27.) -/
def Obligations.StartRestartsFromAnyState : Prop :=
  (∀ (program : List Byte) (s : State), ∃ t, hostControl (.start program) s = .next t ∧
    t = launch s.params s.mem program ∧ t.runState = .running ∧ t.a = 0x00 ∧ t.x = 0x00 ∧ t.y = 0x00 ∧
    t.sp = s.params.spReset ∧ getP t = 0x24) ∧
  (∀ (program : List Byte) (s s' : State), s'.mem = s.mem → s'.params = s.params →
    hostControl (.start program) s' = hostControl (.start program) s)
end

