-- ==== Sys2Proof/Laws/State.lean ====
section
/-! SUPPORT. One lemma per field of State per operation: what the operation leaves in the field, by rfl. The later proofs
rewrite with these and unfold no record update. Also reading P and the flags after an operation that leaves `p` alone. -/

namespace Sys2Proof.Machine

@[simp] theorem setA_a (v : Byte) (s : State) : (setA v s).a = v := rfl
@[simp] theorem setA_x (v : Byte) (s : State) : (setA v s).x = s.x := rfl
@[simp] theorem setA_y (v : Byte) (s : State) : (setA v s).y = s.y := rfl
@[simp] theorem setA_sp (v : Byte) (s : State) : (setA v s).sp = s.sp := rfl
@[simp] theorem setA_pc (v : Byte) (s : State) : (setA v s).pc = s.pc := rfl
@[simp] theorem setA_p (v : Byte) (s : State) : (setA v s).p = s.p := rfl
@[simp] theorem setA_runState (v : Byte) (s : State) : (setA v s).runState = s.runState := rfl
@[simp] theorem setA_mem (v : Byte) (s : State) : (setA v s).mem = s.mem := rfl
@[simp] theorem setA_bus (v : Byte) (s : State) : (setA v s).bus = s.bus := rfl
@[simp] theorem setA_params (v : Byte) (s : State) : (setA v s).params = s.params := rfl
@[simp] theorem getP_setA (v : Byte) (s : State) : getP (setA v s) = getP s := rfl
@[simp] theorem flag_setA (v : Byte) (s : State) (g : Flag) : flag g (setA v s) = flag g s := rfl

@[simp] theorem setX_a (v : Byte) (s : State) : (setX v s).a = s.a := rfl
@[simp] theorem setX_x (v : Byte) (s : State) : (setX v s).x = v := rfl
@[simp] theorem setX_y (v : Byte) (s : State) : (setX v s).y = s.y := rfl
@[simp] theorem setX_sp (v : Byte) (s : State) : (setX v s).sp = s.sp := rfl
@[simp] theorem setX_pc (v : Byte) (s : State) : (setX v s).pc = s.pc := rfl
@[simp] theorem setX_p (v : Byte) (s : State) : (setX v s).p = s.p := rfl
@[simp] theorem setX_runState (v : Byte) (s : State) : (setX v s).runState = s.runState := rfl
@[simp] theorem setX_mem (v : Byte) (s : State) : (setX v s).mem = s.mem := rfl
@[simp] theorem setX_bus (v : Byte) (s : State) : (setX v s).bus = s.bus := rfl
@[simp] theorem setX_params (v : Byte) (s : State) : (setX v s).params = s.params := rfl
@[simp] theorem getP_setX (v : Byte) (s : State) : getP (setX v s) = getP s := rfl
@[simp] theorem flag_setX (v : Byte) (s : State) (g : Flag) : flag g (setX v s) = flag g s := rfl

@[simp] theorem setY_a (v : Byte) (s : State) : (setY v s).a = s.a := rfl
@[simp] theorem setY_x (v : Byte) (s : State) : (setY v s).x = s.x := rfl
@[simp] theorem setY_y (v : Byte) (s : State) : (setY v s).y = v := rfl
@[simp] theorem setY_sp (v : Byte) (s : State) : (setY v s).sp = s.sp := rfl
@[simp] theorem setY_pc (v : Byte) (s : State) : (setY v s).pc = s.pc := rfl
@[simp] theorem setY_p (v : Byte) (s : State) : (setY v s).p = s.p := rfl
@[simp] theorem setY_runState (v : Byte) (s : State) : (setY v s).runState = s.runState := rfl
@[simp] theorem setY_mem (v : Byte) (s : State) : (setY v s).mem = s.mem := rfl
@[simp] theorem setY_bus (v : Byte) (s : State) : (setY v s).bus = s.bus := rfl
@[simp] theorem setY_params (v : Byte) (s : State) : (setY v s).params = s.params := rfl
@[simp] theorem getP_setY (v : Byte) (s : State) : getP (setY v s) = getP s := rfl
@[simp] theorem flag_setY (v : Byte) (s : State) (g : Flag) : flag g (setY v s) = flag g s := rfl

@[simp] theorem setSp_a (v : Byte) (s : State) : (setSp v s).a = s.a := rfl
@[simp] theorem setSp_x (v : Byte) (s : State) : (setSp v s).x = s.x := rfl
@[simp] theorem setSp_y (v : Byte) (s : State) : (setSp v s).y = s.y := rfl
@[simp] theorem setSp_sp (v : Byte) (s : State) : (setSp v s).sp = v := rfl
@[simp] theorem setSp_pc (v : Byte) (s : State) : (setSp v s).pc = s.pc := rfl
@[simp] theorem setSp_p (v : Byte) (s : State) : (setSp v s).p = s.p := rfl
@[simp] theorem setSp_runState (v : Byte) (s : State) : (setSp v s).runState = s.runState := rfl
@[simp] theorem setSp_mem (v : Byte) (s : State) : (setSp v s).mem = s.mem := rfl
@[simp] theorem setSp_bus (v : Byte) (s : State) : (setSp v s).bus = s.bus := rfl
@[simp] theorem setSp_params (v : Byte) (s : State) : (setSp v s).params = s.params := rfl
@[simp] theorem getP_setSp (v : Byte) (s : State) : getP (setSp v s) = getP s := rfl
@[simp] theorem flag_setSp (v : Byte) (s : State) (g : Flag) : flag g (setSp v s) = flag g s := rfl

@[simp] theorem setPc_a (w : Word) (s : State) : (setPc w s).a = s.a := rfl
@[simp] theorem setPc_x (w : Word) (s : State) : (setPc w s).x = s.x := rfl
@[simp] theorem setPc_y (w : Word) (s : State) : (setPc w s).y = s.y := rfl
@[simp] theorem setPc_sp (w : Word) (s : State) : (setPc w s).sp = s.sp := rfl
@[simp] theorem setPc_pc (w : Word) (s : State) : (setPc w s).pc = w := rfl
@[simp] theorem setPc_p (w : Word) (s : State) : (setPc w s).p = s.p := rfl
@[simp] theorem setPc_runState (w : Word) (s : State) : (setPc w s).runState = s.runState := rfl
@[simp] theorem setPc_mem (w : Word) (s : State) : (setPc w s).mem = s.mem := rfl
@[simp] theorem setPc_bus (w : Word) (s : State) : (setPc w s).bus = s.bus := rfl
@[simp] theorem setPc_params (w : Word) (s : State) : (setPc w s).params = s.params := rfl
@[simp] theorem getP_setPc (w : Word) (s : State) : getP (setPc w s) = getP s := rfl
@[simp] theorem flag_setPc (w : Word) (s : State) (g : Flag) : flag g (setPc w s) = flag g s := rfl

@[simp] theorem advance_a (w : Word) (s : State) : (advance w s).a = s.a := rfl
@[simp] theorem advance_x (w : Word) (s : State) : (advance w s).x = s.x := rfl
@[simp] theorem advance_y (w : Word) (s : State) : (advance w s).y = s.y := rfl
@[simp] theorem advance_sp (w : Word) (s : State) : (advance w s).sp = s.sp := rfl
@[simp] theorem advance_pc (w : Word) (s : State) : (advance w s).pc = s.pc + w := rfl
@[simp] theorem advance_p (w : Word) (s : State) : (advance w s).p = s.p := rfl
@[simp] theorem advance_runState (w : Word) (s : State) : (advance w s).runState = s.runState := rfl
@[simp] theorem advance_mem (w : Word) (s : State) : (advance w s).mem = s.mem := rfl
@[simp] theorem advance_bus (w : Word) (s : State) : (advance w s).bus = s.bus := rfl
@[simp] theorem advance_params (w : Word) (s : State) : (advance w s).params = s.params := rfl
@[simp] theorem getP_advance (w : Word) (s : State) : getP (advance w s) = getP s := rfl
@[simp] theorem flag_advance (w : Word) (s : State) (g : Flag) : flag g (advance w s) = flag g s := rfl

@[simp] theorem setP_a (v : Byte) (s : State) : (setP v s).a = s.a := rfl
@[simp] theorem setP_x (v : Byte) (s : State) : (setP v s).x = s.x := rfl
@[simp] theorem setP_y (v : Byte) (s : State) : (setP v s).y = s.y := rfl
@[simp] theorem setP_sp (v : Byte) (s : State) : (setP v s).sp = s.sp := rfl
@[simp] theorem setP_pc (v : Byte) (s : State) : (setP v s).pc = s.pc := rfl
@[simp] theorem setP_p (v : Byte) (s : State) : (setP v s).p = v ||| 0x20 := rfl
@[simp] theorem setP_runState (v : Byte) (s : State) : (setP v s).runState = s.runState := rfl
@[simp] theorem setP_mem (v : Byte) (s : State) : (setP v s).mem = s.mem := rfl
@[simp] theorem setP_bus (v : Byte) (s : State) : (setP v s).bus = s.bus := rfl
@[simp] theorem setP_params (v : Byte) (s : State) : (setP v s).params = s.params := rfl

@[simp] theorem setFlag_a (f : Flag) (b : Bool) (s : State) : (setFlag f b s).a = s.a := rfl
@[simp] theorem setFlag_x (f : Flag) (b : Bool) (s : State) : (setFlag f b s).x = s.x := rfl
@[simp] theorem setFlag_y (f : Flag) (b : Bool) (s : State) : (setFlag f b s).y = s.y := rfl
@[simp] theorem setFlag_sp (f : Flag) (b : Bool) (s : State) : (setFlag f b s).sp = s.sp := rfl
@[simp] theorem setFlag_pc (f : Flag) (b : Bool) (s : State) : (setFlag f b s).pc = s.pc := rfl
@[simp] theorem setFlag_p (f : Flag) (b : Bool) (s : State) : (setFlag f b s).p = withBit (getP s) (flagBit f) b ||| 0x20 := rfl
@[simp] theorem setFlag_runState (f : Flag) (b : Bool) (s : State) : (setFlag f b s).runState = s.runState := rfl
@[simp] theorem setFlag_mem (f : Flag) (b : Bool) (s : State) : (setFlag f b s).mem = s.mem := rfl
@[simp] theorem setFlag_bus (f : Flag) (b : Bool) (s : State) : (setFlag f b s).bus = s.bus := rfl
@[simp] theorem setFlag_params (f : Flag) (b : Bool) (s : State) : (setFlag f b s).params = s.params := rfl

@[simp] theorem clearBus_a (s : State) : (clearBus s).a = s.a := rfl
@[simp] theorem clearBus_x (s : State) : (clearBus s).x = s.x := rfl
@[simp] theorem clearBus_y (s : State) : (clearBus s).y = s.y := rfl
@[simp] theorem clearBus_sp (s : State) : (clearBus s).sp = s.sp := rfl
@[simp] theorem clearBus_pc (s : State) : (clearBus s).pc = s.pc := rfl
@[simp] theorem clearBus_p (s : State) : (clearBus s).p = s.p := rfl
@[simp] theorem clearBus_runState (s : State) : (clearBus s).runState = s.runState := rfl
@[simp] theorem clearBus_mem (s : State) : (clearBus s).mem = s.mem := rfl
@[simp] theorem clearBus_bus (s : State) : (clearBus s).bus = [] := rfl
@[simp] theorem clearBus_params (s : State) : (clearBus s).params = s.params := rfl
@[simp] theorem getP_clearBus (s : State) : getP (clearBus s) = getP s := rfl
@[simp] theorem flag_clearBus (s : State) (g : Flag) : flag g (clearBus s) = flag g s := rfl

@[simp] theorem halt_a (s : State) : (halt s).a = s.a := rfl
@[simp] theorem halt_x (s : State) : (halt s).x = s.x := rfl
@[simp] theorem halt_y (s : State) : (halt s).y = s.y := rfl
@[simp] theorem halt_sp (s : State) : (halt s).sp = s.sp := rfl
@[simp] theorem halt_pc (s : State) : (halt s).pc = s.pc := rfl
@[simp] theorem halt_p (s : State) : (halt s).p = s.p := rfl
@[simp] theorem halt_runState (s : State) : (halt s).runState = .halted := rfl
@[simp] theorem halt_mem (s : State) : (halt s).mem = s.mem := rfl
@[simp] theorem halt_bus (s : State) : (halt s).bus = s.bus := rfl
@[simp] theorem halt_params (s : State) : (halt s).params = s.params := rfl
@[simp] theorem getP_halt (s : State) : getP (halt s) = getP s := rfl
@[simp] theorem flag_halt (s : State) (g : Flag) : flag g (halt s) = flag g s := rfl

@[simp] theorem raiseIllegalOpcode_a (op : Byte) (s : State) : (raiseIllegalOpcode op s).a = s.a := rfl
@[simp] theorem raiseIllegalOpcode_x (op : Byte) (s : State) : (raiseIllegalOpcode op s).x = s.x := rfl
@[simp] theorem raiseIllegalOpcode_y (op : Byte) (s : State) : (raiseIllegalOpcode op s).y = s.y := rfl
@[simp] theorem raiseIllegalOpcode_sp (op : Byte) (s : State) : (raiseIllegalOpcode op s).sp = s.sp := rfl
@[simp] theorem raiseIllegalOpcode_pc (op : Byte) (s : State) : (raiseIllegalOpcode op s).pc = s.pc := rfl
@[simp] theorem raiseIllegalOpcode_p (op : Byte) (s : State) : (raiseIllegalOpcode op s).p = s.p := rfl
@[simp] theorem raiseIllegalOpcode_runState (op : Byte) (s : State) : (raiseIllegalOpcode op s).runState = .faulted op s.pc := rfl
@[simp] theorem raiseIllegalOpcode_mem (op : Byte) (s : State) : (raiseIllegalOpcode op s).mem = s.mem := rfl
@[simp] theorem raiseIllegalOpcode_bus (op : Byte) (s : State) : (raiseIllegalOpcode op s).bus = s.bus := rfl
@[simp] theorem raiseIllegalOpcode_params (op : Byte) (s : State) : (raiseIllegalOpcode op s).params = s.params := rfl
@[simp] theorem getP_raiseIllegalOpcode (op : Byte) (s : State) : getP (raiseIllegalOpcode op s) = getP s := rfl
@[simp] theorem flag_raiseIllegalOpcode (op : Byte) (s : State) (g : Flag) : flag g (raiseIllegalOpcode op s) = flag g s := rfl

/-- Every address is mapped, so the bus gives the stored byte (20_memory.md R63). -/
@[simp] theorem busByte_eq (w : Word) (s : State) : busByte w s = readByte s.mem w.toNat := rfl

@[simp] theorem busRead_a (w : Word) (s : State) : ((busRead w s).2).a = s.a := rfl
@[simp] theorem busRead_x (w : Word) (s : State) : ((busRead w s).2).x = s.x := rfl
@[simp] theorem busRead_y (w : Word) (s : State) : ((busRead w s).2).y = s.y := rfl
@[simp] theorem busRead_sp (w : Word) (s : State) : ((busRead w s).2).sp = s.sp := rfl
@[simp] theorem busRead_pc (w : Word) (s : State) : ((busRead w s).2).pc = s.pc := rfl
@[simp] theorem busRead_p (w : Word) (s : State) : ((busRead w s).2).p = s.p := rfl
@[simp] theorem busRead_runState (w : Word) (s : State) : ((busRead w s).2).runState = s.runState := rfl
@[simp] theorem busRead_mem (w : Word) (s : State) : ((busRead w s).2).mem = s.mem := rfl
@[simp] theorem busRead_bus (w : Word) (s : State) : ((busRead w s).2).bus = s.bus ++ [.read w (readByte s.mem w.toNat)] := rfl
@[simp] theorem busRead_params (w : Word) (s : State) : ((busRead w s).2).params = s.params := rfl
@[simp] theorem getP_busRead (w : Word) (s : State) : getP ((busRead w s).2) = getP s := rfl
@[simp] theorem flag_busRead (w : Word) (s : State) (g : Flag) : flag g ((busRead w s).2) = flag g s := rfl

@[simp] theorem busWrite_a (w : Word) (v : Byte) (s : State) : (busWrite w v s).a = s.a := rfl
@[simp] theorem busWrite_x (w : Word) (v : Byte) (s : State) : (busWrite w v s).x = s.x := rfl
@[simp] theorem busWrite_y (w : Word) (v : Byte) (s : State) : (busWrite w v s).y = s.y := rfl
@[simp] theorem busWrite_sp (w : Word) (v : Byte) (s : State) : (busWrite w v s).sp = s.sp := rfl
@[simp] theorem busWrite_pc (w : Word) (v : Byte) (s : State) : (busWrite w v s).pc = s.pc := rfl
@[simp] theorem busWrite_p (w : Word) (v : Byte) (s : State) : (busWrite w v s).p = s.p := rfl
@[simp] theorem busWrite_runState (w : Word) (v : Byte) (s : State) : (busWrite w v s).runState = s.runState := rfl
@[simp] theorem busWrite_mem (w : Word) (v : Byte) (s : State) : (busWrite w v s).mem = writeByte s.mem w.toNat v := rfl
@[simp] theorem busWrite_bus (w : Word) (v : Byte) (s : State) : (busWrite w v s).bus = s.bus ++ [.write w v] := rfl
@[simp] theorem busWrite_params (w : Word) (v : Byte) (s : State) : (busWrite w v s).params = s.params := rfl
@[simp] theorem getP_busWrite (w : Word) (v : Byte) (s : State) : getP (busWrite w v s) = getP s := rfl
@[simp] theorem flag_busWrite (w : Word) (v : Byte) (s : State) (g : Flag) : flag g (busWrite w v s) = flag g s := rfl

@[simp] theorem push_a (v : Byte) (s : State) : (push v s).a = s.a := rfl
@[simp] theorem push_x (v : Byte) (s : State) : (push v s).x = s.x := rfl
@[simp] theorem push_y (v : Byte) (s : State) : (push v s).y = s.y := rfl
@[simp] theorem push_sp (v : Byte) (s : State) : (push v s).sp = s.sp - 1 := rfl
@[simp] theorem push_pc (v : Byte) (s : State) : (push v s).pc = s.pc := rfl
@[simp] theorem push_p (v : Byte) (s : State) : (push v s).p = s.p := rfl
@[simp] theorem push_runState (v : Byte) (s : State) : (push v s).runState = s.runState := rfl
@[simp] theorem push_mem (v : Byte) (s : State) : (push v s).mem = writeByte s.mem (stackAddr s.sp).toNat v := rfl
@[simp] theorem push_bus (v : Byte) (s : State) : (push v s).bus = s.bus ++ [.write (stackAddr s.sp) v] := rfl
@[simp] theorem push_params (v : Byte) (s : State) : (push v s).params = s.params := rfl
@[simp] theorem getP_push (v : Byte) (s : State) : getP (push v s) = getP s := rfl
@[simp] theorem flag_push (v : Byte) (s : State) (g : Flag) : flag g (push v s) = flag g s := rfl

@[simp] theorem pop_a (s : State) : ((pop s).2).a = s.a := rfl
@[simp] theorem pop_x (s : State) : ((pop s).2).x = s.x := rfl
@[simp] theorem pop_y (s : State) : ((pop s).2).y = s.y := rfl
@[simp] theorem pop_sp (s : State) : ((pop s).2).sp = s.sp + 1 := rfl
@[simp] theorem pop_pc (s : State) : ((pop s).2).pc = s.pc := rfl
@[simp] theorem pop_p (s : State) : ((pop s).2).p = s.p := rfl
@[simp] theorem pop_runState (s : State) : ((pop s).2).runState = s.runState := rfl
@[simp] theorem pop_mem (s : State) : ((pop s).2).mem = s.mem := rfl
@[simp] theorem pop_bus (s : State) : ((pop s).2).bus = s.bus ++ [.read (stackAddr (s.sp + 1)) (readByte s.mem (stackAddr (s.sp + 1)).toNat)] := rfl
@[simp] theorem pop_params (s : State) : ((pop s).2).params = s.params := rfl
@[simp] theorem getP_pop (s : State) : getP ((pop s).2) = getP s := rfl
@[simp] theorem flag_pop (s : State) (g : Flag) : flag g ((pop s).2) = flag g s := rfl

/-- What a bus read gives. -/
@[simp] theorem busRead_value (w : Word) (s : State) : (busRead w s).1 = readByte s.mem w.toNat := rfl

/-- What a pop gives: the byte at the stack address above SP. -/
@[simp] theorem pop_value (s : State) : (pop s).1 = readByte s.mem (stackAddr (s.sp + 1)).toNat := rfl

@[simp] theorem reg_a (s : State) : reg .a s = s.a := rfl
@[simp] theorem reg_x (s : State) : reg .x s = s.x := rfl
@[simp] theorem reg_y (s : State) : reg .y s = s.y := rfl
@[simp] theorem reg_sp (s : State) : reg .sp s = s.sp := rfl

/-- A byte register after an operation that writes none. -/
theorem reg_congr {s t : State} (ha : t.a = s.a) (hx : t.x = s.x) (hy : t.y = s.y) (hsp : t.sp = s.sp) (r : Reg) :
    reg r t = reg r s := by
  cases r <;> assumption

/-- The flags depend on P alone. -/
theorem flag_congr {s t : State} (h : t.p = s.p) (f : Flag) : flag f t = flag f s := by
  simp only [flag, getP, h]

/-! ## The inspection port's writes, and the parameter BUS_READ -/

@[simp] theorem inspectWriteByte_a (w : Word) (v : Byte) (s : State) : (inspectWriteByte w v s).a = s.a := rfl
@[simp] theorem inspectWriteByte_x (w : Word) (v : Byte) (s : State) : (inspectWriteByte w v s).x = s.x := rfl
@[simp] theorem inspectWriteByte_y (w : Word) (v : Byte) (s : State) : (inspectWriteByte w v s).y = s.y := rfl
@[simp] theorem inspectWriteByte_sp (w : Word) (v : Byte) (s : State) : (inspectWriteByte w v s).sp = s.sp := rfl
@[simp] theorem inspectWriteByte_pc (w : Word) (v : Byte) (s : State) : (inspectWriteByte w v s).pc = s.pc := rfl
@[simp] theorem inspectWriteByte_p (w : Word) (v : Byte) (s : State) : (inspectWriteByte w v s).p = s.p := rfl
@[simp] theorem inspectWriteByte_runState (w : Word) (v : Byte) (s : State) : (inspectWriteByte w v s).runState = s.runState := rfl
@[simp] theorem inspectWriteByte_mem (w : Word) (v : Byte) (s : State) : (inspectWriteByte w v s).mem = writeByte s.mem w.toNat v := rfl
@[simp] theorem inspectWriteByte_bus (w : Word) (v : Byte) (s : State) : (inspectWriteByte w v s).bus = s.bus := rfl
@[simp] theorem inspectWriteByte_params (w : Word) (v : Byte) (s : State) : (inspectWriteByte w v s).params = s.params := rfl
@[simp] theorem getP_inspectWriteByte (w : Word) (v : Byte) (s : State) : getP (inspectWriteByte w v s) = getP s := rfl
@[simp] theorem flag_inspectWriteByte (w : Word) (v : Byte) (s : State) (g : Flag) : flag g (inspectWriteByte w v s) = flag g s := rfl

@[simp] theorem inspectWriteWord_a (w v : Word) (s : State) : (inspectWriteWord w v s).a = s.a := rfl
@[simp] theorem inspectWriteWord_x (w v : Word) (s : State) : (inspectWriteWord w v s).x = s.x := rfl
@[simp] theorem inspectWriteWord_y (w v : Word) (s : State) : (inspectWriteWord w v s).y = s.y := rfl
@[simp] theorem inspectWriteWord_sp (w v : Word) (s : State) : (inspectWriteWord w v s).sp = s.sp := rfl
@[simp] theorem inspectWriteWord_pc (w v : Word) (s : State) : (inspectWriteWord w v s).pc = s.pc := rfl
@[simp] theorem inspectWriteWord_p (w v : Word) (s : State) : (inspectWriteWord w v s).p = s.p := rfl
@[simp] theorem inspectWriteWord_runState (w v : Word) (s : State) : (inspectWriteWord w v s).runState = s.runState := rfl
@[simp] theorem inspectWriteWord_mem (w v : Word) (s : State) : (inspectWriteWord w v s).mem = writeWord s.mem w v := rfl
@[simp] theorem inspectWriteWord_bus (w v : Word) (s : State) : (inspectWriteWord w v s).bus = s.bus := rfl
@[simp] theorem inspectWriteWord_params (w v : Word) (s : State) : (inspectWriteWord w v s).params = s.params := rfl
@[simp] theorem getP_inspectWriteWord (w v : Word) (s : State) : getP (inspectWriteWord w v s) = getP s := rfl
@[simp] theorem flag_inspectWriteWord (w v : Word) (s : State) (g : Flag) : flag g (inspectWriteWord w v s) = flag g s := rfl

@[simp] theorem withBusRead_a (f : Memory) (s : State) : (withBusRead f s).a = s.a := rfl
@[simp] theorem withBusRead_x (f : Memory) (s : State) : (withBusRead f s).x = s.x := rfl
@[simp] theorem withBusRead_y (f : Memory) (s : State) : (withBusRead f s).y = s.y := rfl
@[simp] theorem withBusRead_sp (f : Memory) (s : State) : (withBusRead f s).sp = s.sp := rfl
@[simp] theorem withBusRead_pc (f : Memory) (s : State) : (withBusRead f s).pc = s.pc := rfl
@[simp] theorem withBusRead_p (f : Memory) (s : State) : (withBusRead f s).p = s.p := rfl
@[simp] theorem withBusRead_runState (f : Memory) (s : State) : (withBusRead f s).runState = s.runState := rfl
@[simp] theorem withBusRead_mem (f : Memory) (s : State) : (withBusRead f s).mem = s.mem := rfl
@[simp] theorem withBusRead_bus (f : Memory) (s : State) : (withBusRead f s).bus = s.bus := rfl
@[simp] theorem withBusRead_params (f : Memory) (s : State) : (withBusRead f s).params = { s.params with busRead := f } := rfl
@[simp] theorem getP_withBusRead (f : Memory) (s : State) : getP (withBusRead f s) = getP s := rfl
@[simp] theorem flag_withBusRead (f : Memory) (s : State) (g : Flag) : flag g (withBusRead f s) = flag g s := rfl

end Sys2Proof.Machine
end

