-- ==== Sys2Proof/Laws/Flags.lean ====
section
/-! SUPPORT. Reading P and the flags after a write of P, and the field lemmas of the flag computations. -/

namespace Sys2Proof.Machine

/-- Bit 5 of P reads as 1 in every state (10_state.md R41). -/
@[simp] theorem getP_bit5 (s : State) : (getP s).getLsbD 5 = true := by
  simp [getP]

/-- Reading P after writing it: the byte written, bit 5 forced to 1. -/
@[simp] theorem getP_setP (v : Byte) (s : State) : getP (setP v s) = v ||| 0x20 := by
  simp only [getP, setP, BitVec.or_assoc]
  rfl

theorem getLsbD_withBit (p : Byte) (k j : Nat) (b : Bool) (hk : k < 8) (hj : j < 8) :
    (withBit p k b).getLsbD j = if j = k then b else p.getLsbD j := by
  have h1 : (1#8 <<< k).getLsbD j = decide (j = k) := by
    interval_cases k <;> interval_cases j <;> rfl
  cases b
  · simp only [withBit, Bool.false_eq_true, if_false, BitVec.getLsbD_and, BitVec.getLsbD_not, h1, hj, decide_true]
    by_cases hjk : j = k <;> simp [hjk]
  · simp only [withBit, if_true, BitVec.getLsbD_or, h1]
    by_cases hjk : j = k <;> simp [hjk]

theorem getLsbD_0x20 (j : Nat) : (0x20 : Byte).getLsbD j = decide (j = 5) := by
  by_cases hj : j < 8
  · interval_cases j <;> rfl
  · rw [BitVec.getLsbD_of_ge _ _ (by omega)]
    simp only [Bool.false_eq, decide_eq_false_iff_not]
    omega

theorem flagBit_lt (f : Flag) : flagBit f < 8 := by cases f <;> decide

theorem flagBit_ne_5 (f : Flag) : flagBit f ≠ 5 := by cases f <;> decide

theorem flagBit_inj {f g : Flag} : flagBit f = flagBit g ↔ f = g := by
  revert f g
  intro f g
  cases f <;> cases g <;> decide

/-- A flag after one flag is written: that one, and no other (10_state.md R42). -/
theorem flag_setFlag (f g : Flag) (b : Bool) (s : State) :
    flag f (setFlag g b s) = if f = g then b else flag f s := by
  have hf := flagBit_lt f
  have h5 := flagBit_ne_5 f
  simp only [flag, setFlag, getP_setP, BitVec.getLsbD_or, getLsbD_0x20, h5, decide_false, Bool.or_false,
    getLsbD_withBit _ _ _ _ (flagBit_lt g) hf, flagBit_inj]

@[simp] theorem flag_setFlag_self (f : Flag) (b : Bool) (s : State) : flag f (setFlag f b s) = b := by
  rw [flag_setFlag, if_pos rfl]

theorem flag_setFlag_ne {f g : Flag} (h : f ≠ g) (b : Bool) (s : State) : flag f (setFlag g b s) = flag f s := by
  rw [flag_setFlag, if_neg h]

/-- A flag of a byte written to P. -/
theorem flag_setP (f : Flag) (v : Byte) (s : State) : flag f (setP v s) = v.getLsbD (flagBit f) := by
  have h5 := flagBit_ne_5 f
  simp only [flag, getP_setP, BitVec.getLsbD_or, getLsbD_0x20, h5, decide_false, Bool.or_false]

/-- Bit 5 is stored as 1 after every write of P. -/
@[simp] theorem setP_bit5 (v : Byte) (s : State) : (setP v s).p.getLsbD 5 = true := by
  simp

@[simp] theorem setFlag_bit5 (f : Flag) (b : Bool) (s : State) : (setFlag f b s).p.getLsbD 5 = true := by
  simp

/-- B after a pulled P: the old one (49_stack_control.md R223). -/
theorem pulledP_bit4 (p old : Byte) : (pulledP p old).getLsbD 4 = old.getLsbD 4 := by
  simp [pulledP]

/-- A flag other than B after a pulled P: the pulled byte's bit (R223). -/
theorem pulledP_flag (p old : Byte) {f : Flag} (h : f ≠ .b) :
    (pulledP p old).getLsbD (flagBit f) = p.getLsbD (flagBit f) := by
  cases f <;> simp_all [pulledP, flagBit]

@[simp] theorem setZN_a (v : Byte) (s : State) : (setZN v s).a = s.a := rfl
@[simp] theorem setZN_x (v : Byte) (s : State) : (setZN v s).x = s.x := rfl
@[simp] theorem setZN_y (v : Byte) (s : State) : (setZN v s).y = s.y := rfl
@[simp] theorem setZN_sp (v : Byte) (s : State) : (setZN v s).sp = s.sp := rfl
@[simp] theorem setZN_pc (v : Byte) (s : State) : (setZN v s).pc = s.pc := rfl
@[simp] theorem setZN_runState (v : Byte) (s : State) : (setZN v s).runState = s.runState := rfl
@[simp] theorem setZN_mem (v : Byte) (s : State) : (setZN v s).mem = s.mem := rfl
@[simp] theorem setZN_bus (v : Byte) (s : State) : (setZN v s).bus = s.bus := rfl
@[simp] theorem setZN_params (v : Byte) (s : State) : (setZN v s).params = s.params := rfl
@[simp] theorem setZN_bit5 (v : Byte) (s : State) : (setZN v s).p.getLsbD 5 = true := setFlag_bit5 _ _ _

@[simp] theorem compareReg_a (r m : Byte) (s : State) : (compareReg r m s).a = s.a := rfl
@[simp] theorem compareReg_x (r m : Byte) (s : State) : (compareReg r m s).x = s.x := rfl
@[simp] theorem compareReg_y (r m : Byte) (s : State) : (compareReg r m s).y = s.y := rfl
@[simp] theorem compareReg_sp (r m : Byte) (s : State) : (compareReg r m s).sp = s.sp := rfl
@[simp] theorem compareReg_pc (r m : Byte) (s : State) : (compareReg r m s).pc = s.pc := rfl
@[simp] theorem compareReg_runState (r m : Byte) (s : State) : (compareReg r m s).runState = s.runState := rfl
@[simp] theorem compareReg_mem (r m : Byte) (s : State) : (compareReg r m s).mem = s.mem := rfl
@[simp] theorem compareReg_bus (r m : Byte) (s : State) : (compareReg r m s).bus = s.bus := rfl
@[simp] theorem compareReg_params (r m : Byte) (s : State) : (compareReg r m s).params = s.params := rfl
@[simp] theorem compareReg_bit5 (r m : Byte) (s : State) : (compareReg r m s).p.getLsbD 5 = true := setFlag_bit5 _ _ _

@[simp] theorem bitTest_a (m : Byte) (s : State) : (bitTest m s).a = s.a := rfl
@[simp] theorem bitTest_x (m : Byte) (s : State) : (bitTest m s).x = s.x := rfl
@[simp] theorem bitTest_y (m : Byte) (s : State) : (bitTest m s).y = s.y := rfl
@[simp] theorem bitTest_sp (m : Byte) (s : State) : (bitTest m s).sp = s.sp := rfl
@[simp] theorem bitTest_pc (m : Byte) (s : State) : (bitTest m s).pc = s.pc := rfl
@[simp] theorem bitTest_runState (m : Byte) (s : State) : (bitTest m s).runState = s.runState := rfl
@[simp] theorem bitTest_mem (m : Byte) (s : State) : (bitTest m s).mem = s.mem := rfl
@[simp] theorem bitTest_bus (m : Byte) (s : State) : (bitTest m s).bus = s.bus := rfl
@[simp] theorem bitTest_params (m : Byte) (s : State) : (bitTest m s).params = s.params := rfl
@[simp] theorem bitTest_bit5 (m : Byte) (s : State) : (bitTest m s).p.getLsbD 5 = true := setFlag_bit5 _ _ _

@[simp] theorem shiftFlags_a (b : Bool) (r : Byte) (s : State) : (shiftFlags b r s).a = s.a := rfl
@[simp] theorem shiftFlags_x (b : Bool) (r : Byte) (s : State) : (shiftFlags b r s).x = s.x := rfl
@[simp] theorem shiftFlags_y (b : Bool) (r : Byte) (s : State) : (shiftFlags b r s).y = s.y := rfl
@[simp] theorem shiftFlags_sp (b : Bool) (r : Byte) (s : State) : (shiftFlags b r s).sp = s.sp := rfl
@[simp] theorem shiftFlags_pc (b : Bool) (r : Byte) (s : State) : (shiftFlags b r s).pc = s.pc := rfl
@[simp] theorem shiftFlags_runState (b : Bool) (r : Byte) (s : State) : (shiftFlags b r s).runState = s.runState := rfl
@[simp] theorem shiftFlags_mem (b : Bool) (r : Byte) (s : State) : (shiftFlags b r s).mem = s.mem := rfl
@[simp] theorem shiftFlags_bus (b : Bool) (r : Byte) (s : State) : (shiftFlags b r s).bus = s.bus := rfl
@[simp] theorem shiftFlags_params (b : Bool) (r : Byte) (s : State) : (shiftFlags b r s).params = s.params := rfl
@[simp] theorem shiftFlags_bit5 (b : Bool) (r : Byte) (s : State) : (shiftFlags b r s).p.getLsbD 5 = true := setFlag_bit5 _ _ _

@[simp] theorem addToA_a (m : Byte) (s : State) : (addToA m s).a = (addC s.a m (flag .c s)).r := rfl
@[simp] theorem addToA_x (m : Byte) (s : State) : (addToA m s).x = s.x := rfl
@[simp] theorem addToA_y (m : Byte) (s : State) : (addToA m s).y = s.y := rfl
@[simp] theorem addToA_sp (m : Byte) (s : State) : (addToA m s).sp = s.sp := rfl
@[simp] theorem addToA_pc (m : Byte) (s : State) : (addToA m s).pc = s.pc := rfl
@[simp] theorem addToA_runState (m : Byte) (s : State) : (addToA m s).runState = s.runState := rfl
@[simp] theorem addToA_mem (m : Byte) (s : State) : (addToA m s).mem = s.mem := rfl
@[simp] theorem addToA_bus (m : Byte) (s : State) : (addToA m s).bus = s.bus := rfl
@[simp] theorem addToA_params (m : Byte) (s : State) : (addToA m s).params = s.params := rfl
@[simp] theorem addToA_bit5 (m : Byte) (s : State) : (addToA m s).p.getLsbD 5 = true := setFlag_bit5 _ _ _

@[simp] theorem logicToA_a (r : Byte) (s : State) : (logicToA r s).a = r := rfl
@[simp] theorem logicToA_x (r : Byte) (s : State) : (logicToA r s).x = s.x := rfl
@[simp] theorem logicToA_y (r : Byte) (s : State) : (logicToA r s).y = s.y := rfl
@[simp] theorem logicToA_sp (r : Byte) (s : State) : (logicToA r s).sp = s.sp := rfl
@[simp] theorem logicToA_pc (r : Byte) (s : State) : (logicToA r s).pc = s.pc := rfl
@[simp] theorem logicToA_runState (r : Byte) (s : State) : (logicToA r s).runState = s.runState := rfl
@[simp] theorem logicToA_mem (r : Byte) (s : State) : (logicToA r s).mem = s.mem := rfl
@[simp] theorem logicToA_bus (r : Byte) (s : State) : (logicToA r s).bus = s.bus := rfl
@[simp] theorem logicToA_params (r : Byte) (s : State) : (logicToA r s).params = s.params := rfl
@[simp] theorem logicToA_bit5 (r : Byte) (s : State) : (logicToA r s).p.getLsbD 5 = true := setFlag_bit5 _ _ _

/-- The flags after SetZN (00_scope.md R16). -/
theorem flag_setZN (f : Flag) (v : Byte) (s : State) :
    flag f (setZN v s) = if f = .n then v.msb else if f = .z then v == 0 else flag f s := by
  simp only [setZN, flag_setFlag]

/-- The flags after Compare (40_addressing_sequencer.md R119). -/
theorem flag_compareReg (f : Flag) (r m : Byte) (s : State) :
    flag f (compareReg r m s) =
      if f = .n then (r - m).msb else if f = .z then r - m == 0 else if f = .c then decide (m.toNat ≤ r.toNat)
      else flag f s := by
  simp only [compareReg, flag_setFlag]

/-- The flags after BIT (45_compare_bit.md R183). -/
theorem flag_bitTest (f : Flag) (m : Byte) (s : State) :
    flag f (bitTest m s) =
      if f = .v then m.getLsbD 6 else if f = .n then m.getLsbD 7 else if f = .z then s.a &&& m == 0
      else flag f s := by
  simp only [bitTest, flag_setFlag]

/-- The flags after a shift or rotate (44_shift_rotate.md). -/
theorem flag_shiftFlags (f : Flag) (b : Bool) (r : Byte) (s : State) :
    flag f (shiftFlags b r s) =
      if f = .n then r.msb else if f = .z then r == 0 else if f = .c then b else flag f s := by
  simp only [shiftFlags, flag_setZN, flag_setFlag]

/-- The flags after ADC or SBC (43_arithmetic_logical.md R160, R161). -/
theorem flag_addToA (f : Flag) (m : Byte) (s : State) :
    flag f (addToA m s) =
      if f = .n then (addC s.a m (flag .c s)).r.msb else if f = .z then (addC s.a m (flag .c s)).r == 0
      else if f = .v then (addC s.a m (flag .c s)).v else if f = .c then (addC s.a m (flag .c s)).cout
      else flag f s := by
  simp only [addToA, flag_setZN, flag_setFlag, flag_setA]

/-- The flags after AND, ORA or EOR (R162 to R164). -/
theorem flag_logicToA (f : Flag) (r : Byte) (s : State) :
    flag f (logicToA r s) = if f = .n then r.msb else if f = .z then r == 0 else flag f s := by
  simp only [logicToA, flag_setZN, flag_setA]

/-- The shift and rotate results as numbers (44_shift_rotate.md). -/
theorem aslByte_toNat (v : Byte) : (aslByte v).toNat = 2 * v.toNat % 256 := by
  revert v
  decide

theorem lsrByte_toNat (v : Byte) : (lsrByte v).toNat = v.toNat / 2 := by
  revert v
  decide

theorem rolByte_toNat (c : Bool) (v : Byte) : (rolByte c v).toNat = 2 * v.toNat % 256 + c.toNat := by
  revert c v
  decide

theorem rorByte_toNat (c : Bool) (v : Byte) : (rorByte c v).toNat = v.toNat / 2 + 128 * c.toNat := by
  revert c v
  decide

/-- Bit 7 is the sign bit. -/
theorem msb_eq_bit7 (v : Byte) : v.msb = v.getLsbD 7 := by
  simp [BitVec.msb_eq_getLsbD_last]

end Sys2Proof.Machine
end

