-- ==== Sys2Proof/Laws/Memory.lean ====
section
/-! SUPPORT. The laws of the byte array: a read after a write, the canonical form kept by every memory operation, and
what stands in memory after a list of writes. -/

namespace Sys2Proof.Machine

@[simp] theorem readByte_nil (a : Nat) : readByte [] a = unlistedByte := rfl

/-- An address below every listed one reads as unlisted. -/
theorem readByte_below {m : Memory} {low a : Nat} (h : canonicalFrom low m = true) (ha : a < low) :
    readByte m a = unlistedByte := by
  induction m generalizing low with
  | nil => rfl
  | cons head rest ih =>
    obtain ⟨k, v⟩ := head
    simp only [canonicalFrom, Bool.and_eq_true, decide_eq_true_eq] at h
    have hk : k ≠ a := by omega
    simp only [readByte, if_neg hk]
    exact ih h.2 (by omega)

/-- A canonical tail stays canonical from a lower address on. -/
theorem canonicalFrom_mono {m : Memory} {low low' : Nat} (h : canonicalFrom low m = true) (hl : low' ≤ low) :
    canonicalFrom low' m = true := by
  cases m with
  | nil => rfl
  | cons head rest =>
    simp only [canonicalFrom, Bool.and_eq_true, decide_eq_true_eq] at h ⊢
    exact ⟨⟨⟨by omega, h.1.1.2⟩, h.1.2⟩, h.2⟩

theorem readByte_eraseByte (m : Memory) (a b : Nat) :
    readByte (eraseByte m a) b = if b = a then unlistedByte else readByte m b := by
  induction m with
  | nil => simp [eraseByte]
  | cons head rest ih =>
    obtain ⟨k, u⟩ := head
    by_cases hk : k = a <;> by_cases hb : b = a <;> by_cases hkb : k = b <;> simp_all [eraseByte, readByte]

theorem readByte_insertByte (m : Memory) (a b : Nat) (v : Byte) :
    readByte (insertByte m a v) b = if b = a then v else readByte m b := by
  induction m with
  | nil => simp only [insertByte, readByte, eq_comm]
  | cons head rest ih =>
    obtain ⟨k, u⟩ := head
    by_cases h1 : a < k
    · simp only [insertByte, h1, if_true, readByte, eq_comm]
    · by_cases h2 : a = k
      · subst h2
        by_cases hb : b = a
        · simp [insertByte, readByte, hb]
        · have hab : ¬a = b := fun h => hb h.symm
          simp [insertByte, readByte, hb, hab]
      · by_cases hkb : k = b
        · have hba : ¬b = a := fun h => h2 (h.symm.trans hkb.symm)
          simp [insertByte, readByte, hkb ▸ h1, hkb ▸ h2, hkb, hba]
        · simp [insertByte, readByte, h1, h2, hkb, ih]

/-- A read after a write gives the value at the address written and the old byte elsewhere, in any list of pairs. -/
theorem readByte_writeByte (m : Memory) (a b : Nat) (v : Byte) :
    readByte (writeByte m a v) b = if b = a then v else readByte m b := by
  by_cases hv : v = unlistedByte
  · simp [writeByte, hv, readByte_eraseByte]
  · simp [writeByte, hv, readByte_insertByte]

theorem canonicalFrom_eraseByte {m : Memory} {low : Nat} (h : canonicalFrom low m = true) (a : Nat) :
    canonicalFrom low (eraseByte m a) = true := by
  induction m generalizing low with
  | nil => rfl
  | cons head rest ih =>
    obtain ⟨k, u⟩ := head
    simp only [canonicalFrom, Bool.and_eq_true, decide_eq_true_eq] at h
    by_cases hk : k = a
    · simp only [eraseByte, hk, if_true]
      exact ih (canonicalFrom_mono h.2 (by omega))
    · simp only [eraseByte, hk, if_false, canonicalFrom, Bool.and_eq_true, decide_eq_true_eq]
      exact ⟨h.1, ih h.2⟩

theorem canonicalFrom_insertByte {m : Memory} {low : Nat} (h : canonicalFrom low m = true) {a : Nat} {v : Byte}
    (hlow : low ≤ a) (hsize : a < memSize) (hv : v ≠ unlistedByte) : canonicalFrom low (insertByte m a v) = true := by
  induction m generalizing low with
  | nil => simp [insertByte, canonicalFrom, hlow, hsize, hv]
  | cons head rest ih =>
    obtain ⟨k, u⟩ := head
    simp only [canonicalFrom, Bool.and_eq_true, decide_eq_true_eq] at h
    obtain ⟨⟨⟨hk1, hk2⟩, hu⟩, hrest⟩ := h
    simp only [insertByte]
    split_ifs with h1 h2
    · simp only [canonicalFrom, Bool.and_eq_true, decide_eq_true_eq]
      exact ⟨⟨⟨hlow, hsize⟩, hv⟩, ⟨⟨by omega, hk2⟩, hu⟩, hrest⟩
    · subst h2
      simp [canonicalFrom, hk1, hk2, hv, hrest]
    · simp only [canonicalFrom, Bool.and_eq_true, decide_eq_true_eq]
      exact ⟨⟨⟨hk1, hk2⟩, hu⟩, ih hrest (by omega)⟩

/-- A write inside the address space keeps the canonical form. -/
theorem canonicalFrom_writeByte {m : Memory} {low : Nat} (h : canonicalFrom low m = true) {a : Nat} (v : Byte)
    (hlow : low ≤ a) (hsize : a < memSize) : canonicalFrom low (writeByte m a v) = true := by
  by_cases hv : v = unlistedByte
  · simp only [writeByte, hv, if_true]
    exact canonicalFrom_eraseByte h a
  · simp only [writeByte, hv, if_false]
    exact canonicalFrom_insertByte h hlow hsize hv

/-- Every bus address is inside the address space. -/
theorem toNat_lt_memSize (a : Word) : a.toNat < memSize := a.isLt

/-- A byte write of the bus keeps the canonical form. -/
theorem wf_writeByte {m : Memory} (h : m.wf = true) (a : Word) (v : Byte) :
    Memory.wf (writeByte m a.toNat v) = true :=
  canonicalFrom_writeByte h v (Nat.zero_le _) (toNat_lt_memSize a)

/-- The same, for an address given as a number. -/
theorem wf_writeByte_nat {m : Memory} (h : m.wf = true) {a : Nat} (ha : a < memSize) (v : Byte) :
    Memory.wf (writeByte m a v) = true :=
  canonicalFrom_writeByte h v (Nat.zero_le _) ha

/-- A word write keeps the canonical form. -/
theorem wf_writeWord {m : Memory} (h : m.wf = true) (a w : Word) : Memory.wf (writeWord m a w) = true :=
  wf_writeByte (wf_writeByte h a (loByte w)) (a + 1) (hiByte w)

/-- A list of writes keeps the canonical form. -/
theorem wf_writeBytes {m : Memory} (h : m.wf = true) (a : Word) (bs : List Byte) :
    Memory.wf (writeBytes m a bs) = true := by
  induction bs generalizing m a with
  | nil => exact h
  | cons b rest ih => exact ih (wf_writeByte h a b) (a + 1)

/-- A read after a write, at bus addresses. -/
theorem readByte_writeByte_word (m : Memory) (a b : Word) (v : Byte) :
    readByte (writeByte m a.toNat v) b.toNat = if b = a then v else readByte m b.toNat := by
  simp only [readByte_writeByte, BitVec.toNat_inj]

/-- A read after a word write: the high byte at the next address, the low byte at its own, the old byte elsewhere. -/
theorem readByte_writeWord (m : Memory) (a b w : Word) :
    readByte (writeWord m a w) b.toNat =
      if b = a + 1 then hiByte w else if b = a then loByte w else readByte m b.toNat := by
  simp only [writeWord, readByte_writeByte_word]

/-- The address `k + 1` bytes on. -/
theorem addr_succ (a : Word) (k : Nat) : a + 1 + BitVec.ofNat 16 k = a + BitVec.ofNat 16 (k + 1) := by
  rw [BitVec.add_assoc]
  congr 1
  simp [BitVec.ofNat_add, BitVec.add_comm]

/-- A list of writes leaves an address alone that is none of theirs. -/
theorem readByte_writeBytes_miss {m : Memory} {a b : Word} {bs : List Byte}
    (h : ∀ k, k < bs.length → b ≠ a + BitVec.ofNat 16 k) : readByte (writeBytes m a bs) b.toNat = readByte m b.toNat := by
  induction bs generalizing m a with
  | nil => rfl
  | cons x rest ih =>
    rw [writeBytes, ih, readByte_writeByte_word, if_neg]
    · simpa using h 0 (by simp)
    · intro k hk
      rw [addr_succ]
      exact h (k + 1) (by simpa using hk)

/-- A list of writes no longer than the address space leaves each of its bytes at its address. -/
theorem readByte_writeBytes_hit {m : Memory} {a : Word} {bs : List Byte} (hl : bs.length ≤ 65536) {k : Nat} {v : Byte}
    (hk : bs[k]? = some v) : readByte (writeBytes m a bs) (a + BitVec.ofNat 16 k).toNat = v := by
  induction bs generalizing m a k with
  | nil => simp at hk
  | cons x rest ih =>
    simp only [List.length_cons] at hl
    cases k with
    | zero =>
      simp only [List.getElem?_cons_zero, Option.some.injEq] at hk
      rw [writeBytes, readByte_writeBytes_miss, readByte_writeByte_word, if_pos (by simp), hk]
      intro j hj h
      have := congrArg BitVec.toNat h
      simp [BitVec.toNat_add] at this
      omega
    | succ k =>
      rw [← addr_succ]
      exact ih (by omega) (by simpa using hk)

@[simp] theorem reset_mem_wf : State.reset.mem.wf = true := rfl

end Sys2Proof.Machine
end

