-- ==== Sys2Proof/Laws/Operands.lean ====
section
/-! SUPPORT. What the resolver and the operand accesses can do: one field lemma each, and what they put on the bus. -/

namespace Sys2Proof.Machine

@[simp] theorem readPair_a (lo hi : Word) (s : State) : (readPair lo hi s).2.a = s.a := rfl
@[simp] theorem readPair_x (lo hi : Word) (s : State) : (readPair lo hi s).2.x = s.x := rfl
@[simp] theorem readPair_y (lo hi : Word) (s : State) : (readPair lo hi s).2.y = s.y := rfl
@[simp] theorem readPair_sp (lo hi : Word) (s : State) : (readPair lo hi s).2.sp = s.sp := rfl
@[simp] theorem readPair_pc (lo hi : Word) (s : State) : (readPair lo hi s).2.pc = s.pc := rfl
@[simp] theorem readPair_p (lo hi : Word) (s : State) : (readPair lo hi s).2.p = s.p := rfl
@[simp] theorem readPair_runState (lo hi : Word) (s : State) : (readPair lo hi s).2.runState = s.runState := rfl
@[simp] theorem readPair_mem (lo hi : Word) (s : State) : (readPair lo hi s).2.mem = s.mem := rfl
@[simp] theorem readPair_params (lo hi : Word) (s : State) : (readPair lo hi s).2.params = s.params := rfl

@[simp] theorem memRead16_a (w : Word) (s : State) : (memRead16 w s).2.a = s.a := rfl
@[simp] theorem memRead16_x (w : Word) (s : State) : (memRead16 w s).2.x = s.x := rfl
@[simp] theorem memRead16_y (w : Word) (s : State) : (memRead16 w s).2.y = s.y := rfl
@[simp] theorem memRead16_sp (w : Word) (s : State) : (memRead16 w s).2.sp = s.sp := rfl
@[simp] theorem memRead16_pc (w : Word) (s : State) : (memRead16 w s).2.pc = s.pc := rfl
@[simp] theorem memRead16_p (w : Word) (s : State) : (memRead16 w s).2.p = s.p := rfl
@[simp] theorem memRead16_runState (w : Word) (s : State) : (memRead16 w s).2.runState = s.runState := rfl
@[simp] theorem memRead16_mem (w : Word) (s : State) : (memRead16 w s).2.mem = s.mem := rfl
@[simp] theorem memRead16_params (w : Word) (s : State) : (memRead16 w s).2.params = s.params := rfl

@[simp] theorem zpRead16_a (z : Byte) (s : State) : (zpRead16 z s).2.a = s.a := rfl
@[simp] theorem zpRead16_x (z : Byte) (s : State) : (zpRead16 z s).2.x = s.x := rfl
@[simp] theorem zpRead16_y (z : Byte) (s : State) : (zpRead16 z s).2.y = s.y := rfl
@[simp] theorem zpRead16_sp (z : Byte) (s : State) : (zpRead16 z s).2.sp = s.sp := rfl
@[simp] theorem zpRead16_pc (z : Byte) (s : State) : (zpRead16 z s).2.pc = s.pc := rfl
@[simp] theorem zpRead16_p (z : Byte) (s : State) : (zpRead16 z s).2.p = s.p := rfl
@[simp] theorem zpRead16_runState (z : Byte) (s : State) : (zpRead16 z s).2.runState = s.runState := rfl
@[simp] theorem zpRead16_mem (z : Byte) (s : State) : (zpRead16 z s).2.mem = s.mem := rfl
@[simp] theorem zpRead16_params (z : Byte) (s : State) : (zpRead16 z s).2.params = s.params := rfl

/-- The word a pair of bus reads gives. -/
@[simp] theorem readPair_value (lo hi : Word) (s : State) :
    (readPair lo hi s).1 = hiLo (readByte s.mem hi.toNat) (readByte s.mem lo.toNat) := rfl

/-- The word `MemRead(a, 2)` gives (20_memory.md R61). -/
@[simp] theorem memRead16_value (w : Word) (s : State) :
    (memRead16 w s).1 = hiLo (readByte s.mem (w + 1).toNat) (readByte s.mem w.toNat) := rfl

/-- The pointer `ZpRead16(z)` gives (00_scope.md R14). -/
@[simp] theorem zpRead16_value (z : Byte) (s : State) :
    (zpRead16 z s).1 = hiLo (readByte s.mem (zext (z + 1)).toNat) (readByte s.mem (zext z).toNat) := rfl

/-- The reads of a pair, in order. -/
theorem readPair_bus (lo hi : Word) (s : State) :
    (readPair lo hi s).2.bus =
      s.bus ++ [.read lo (readByte s.mem lo.toNat), .read hi (readByte s.mem hi.toNat)] := by
  simp [readPair]

@[simp] theorem resolve_a (m : Addr) (s : State) : (resolve m s).2.a = s.a := by cases m <;> rfl
@[simp] theorem resolve_x (m : Addr) (s : State) : (resolve m s).2.x = s.x := by cases m <;> rfl
@[simp] theorem resolve_y (m : Addr) (s : State) : (resolve m s).2.y = s.y := by cases m <;> rfl
@[simp] theorem resolve_sp (m : Addr) (s : State) : (resolve m s).2.sp = s.sp := by cases m <;> rfl
@[simp] theorem resolve_pc (m : Addr) (s : State) : (resolve m s).2.pc = s.pc := by cases m <;> rfl
@[simp] theorem resolve_p (m : Addr) (s : State) : (resolve m s).2.p = s.p := by cases m <;> rfl
@[simp] theorem resolve_runState (m : Addr) (s : State) : (resolve m s).2.runState = s.runState := by cases m <;> rfl
@[simp] theorem resolve_mem (m : Addr) (s : State) : (resolve m s).2.mem = s.mem := by cases m <;> rfl
@[simp] theorem resolve_params (m : Addr) (s : State) : (resolve m s).2.params = s.params := by cases m <;> rfl
@[simp] theorem flag_resolve (m : Addr) (s : State) (f : Flag) : flag f (resolve m s).2 = flag f s :=
  flag_congr (resolve_p m s) f

/-- The instruction length the resolver gives is its mode's (40_addressing_sequencer.md R100). -/
theorem resolve_len (m : Addr) (s : State) : (resolve m s).1.len = BitVec.ofNat 16 m.mode.length := by
  cases m <;> rfl

/-- A list of transactions carried out in two parts. -/
theorem replay_append (l l' : List BusEvent) (m : Memory) :
    replay (l ++ l') m = (replay l m).bind (replay l') := by
  induction l generalizing m with
  | nil => rfl
  | cons e rest ih =>
    cases e with
    | read a v =>
      by_cases h : readByte m a.toNat = v <;> simp [replay, h, ih]
    | write a v => simp [replay, ih]

/-- The resolver only reads: its pointer reads, each giving the byte memory holds (R100). -/
theorem resolve_bus (m : Addr) (s : State) :
    ∃ l, (resolve m s).2.bus = s.bus ++ l ∧ l.map BusEvent.access = pointerReads m s ∧ replay l s.mem = some s.mem := by
  cases m with
  | zp z => exact ⟨[], by simp [resolve, pointerReads, replay]⟩
  | zpX z => exact ⟨[], by simp [resolve, pointerReads, replay]⟩
  | zpY z => exact ⟨[], by simp [resolve, pointerReads, replay]⟩
  | abs w => exact ⟨[], by simp [resolve, pointerReads, replay]⟩
  | absX w => exact ⟨[], by simp [resolve, pointerReads, replay]⟩
  | absY w => exact ⟨[], by simp [resolve, pointerReads, replay]⟩
  | indX z => exact ⟨_, readPair_bus _ _ _, rfl, by simp [replay]⟩
  | indY z => exact ⟨_, readPair_bus _ _ _, rfl, by simp [replay]⟩

/-- The length of a source operand's instruction. -/
def sourceLength (o : Source) : Word := BitVec.ofNat 16 o.mode.length

/-- The length of a shift or rotate's instruction. -/
def targetLength (o : Target) : Word := BitVec.ofNat 16 o.mode.length

@[simp] theorem loadSource_pc (o : Source) (s : State) : (loadSource o s).2.pc = s.pc + sourceLength o := by
  cases o with
  | imm v => rfl
  | mem m => simp [loadSource, resolve_len, sourceLength, Source.mode]
@[simp] theorem loadSource_a (o : Source) (s : State) : (loadSource o s).2.a = s.a := by
  cases o with
  | imm v => rfl
  | mem m => simp [loadSource]
@[simp] theorem loadSource_x (o : Source) (s : State) : (loadSource o s).2.x = s.x := by
  cases o with
  | imm v => rfl
  | mem m => simp [loadSource]
@[simp] theorem loadSource_y (o : Source) (s : State) : (loadSource o s).2.y = s.y := by
  cases o with
  | imm v => rfl
  | mem m => simp [loadSource]
@[simp] theorem loadSource_sp (o : Source) (s : State) : (loadSource o s).2.sp = s.sp := by
  cases o with
  | imm v => rfl
  | mem m => simp [loadSource]
@[simp] theorem loadSource_p (o : Source) (s : State) : (loadSource o s).2.p = s.p := by
  cases o with
  | imm v => rfl
  | mem m => simp [loadSource]
@[simp] theorem loadSource_runState (o : Source) (s : State) : (loadSource o s).2.runState = s.runState := by
  cases o with
  | imm v => rfl
  | mem m => simp [loadSource]
@[simp] theorem loadSource_mem (o : Source) (s : State) : (loadSource o s).2.mem = s.mem := by
  cases o with
  | imm v => rfl
  | mem m => simp [loadSource]
@[simp] theorem loadSource_params (o : Source) (s : State) : (loadSource o s).2.params = s.params := by
  cases o with
  | imm v => rfl
  | mem m => simp [loadSource]

@[simp] theorem flag_loadSource (o : Source) (s : State) (f : Flag) : flag f (loadSource o s).2 = flag f s :=
  flag_congr (loadSource_p o s) f

/-- What `Operand()` gives (40_addressing_sequencer.md R116). -/
@[simp] theorem loadSource_value (o : Source) (s : State) : (loadSource o s).1 = sourceValue o s := by
  cases o with
  | imm v => rfl
  | mem m => simp [loadSource, sourceValue]

/-- The transactions of a source operand after the fetch (20_memory.md R67). -/
theorem loadSource_bus (o : Source) (s : State) :
    ∃ l, (loadSource o s).2.bus = s.bus ++ l ∧ l.map BusEvent.access = sourceAccesses o s ∧
      replay l s.mem = some s.mem := by
  cases o with
  | imm v => exact ⟨[], by simp [loadSource, sourceAccesses, replay]⟩
  | mem m =>
    obtain ⟨l, h1, h2, h3⟩ := resolve_bus m s
    refine ⟨l ++ [.read (resolve m s).1.ea (readByte s.mem (resolve m s).1.ea.toNat)], ?_, ?_, ?_⟩
    · simp [loadSource, h1]
    · simp [h2, sourceAccesses, BusEvent.access]
    · rw [replay_append, h3]
      simp [replay]

@[simp] theorem storeAt_pc (m : Addr) (v : Byte) (s : State) :
    (storeAt m v s).pc = s.pc + BitVec.ofNat 16 m.mode.length := by
  simp [storeAt, resolve_len]
@[simp] theorem storeAt_mem (m : Addr) (v : Byte) (s : State) :
    (storeAt m v s).mem = writeByte s.mem (resolve m s).1.ea.toNat v := by
  simp [storeAt]
@[simp] theorem storeAt_a (m : Addr) (v : Byte) (s : State) : (storeAt m v s).a = s.a := by simp [storeAt]
@[simp] theorem storeAt_x (m : Addr) (v : Byte) (s : State) : (storeAt m v s).x = s.x := by simp [storeAt]
@[simp] theorem storeAt_y (m : Addr) (v : Byte) (s : State) : (storeAt m v s).y = s.y := by simp [storeAt]
@[simp] theorem storeAt_sp (m : Addr) (v : Byte) (s : State) : (storeAt m v s).sp = s.sp := by simp [storeAt]
@[simp] theorem storeAt_p (m : Addr) (v : Byte) (s : State) : (storeAt m v s).p = s.p := by simp [storeAt]
@[simp] theorem storeAt_runState (m : Addr) (v : Byte) (s : State) : (storeAt m v s).runState = s.runState := by simp [storeAt]
@[simp] theorem storeAt_params (m : Addr) (v : Byte) (s : State) : (storeAt m v s).params = s.params := by simp [storeAt]

@[simp] theorem flag_storeAt (m : Addr) (v : Byte) (s : State) (f : Flag) : flag f (storeAt m v s) = flag f s :=
  flag_congr (storeAt_p m v s) f

/-- The transactions of a store after the fetch: its pointer reads, then the one write (20_memory.md R67). -/
theorem storeAt_bus (m : Addr) (v : Byte) (s : State) :
    ∃ l, (storeAt m v s).bus = s.bus ++ l ∧ l.map BusEvent.access = pointerReads m s ++ [.write (resolve m s).1.ea] ∧
      replay l s.mem = some (storeAt m v s).mem := by
  obtain ⟨l, h1, h2, h3⟩ := resolve_bus m s
  refine ⟨l ++ [.write (resolve m s).1.ea v], ?_, ?_, ?_⟩
  · simp [storeAt, h1]
  · simp [h2, BusEvent.access]
  · rw [replay_append, h3]
    simp [replay]

/-- What the operand of a read-modify-write instruction gives. -/
@[simp] theorem modifyTarget_value (o : Target) (f : Byte → Byte) (s : State) :
    (modifyTarget o f s).1 = targetValue o s := by
  cases o with
  | acc => rfl
  | mem m => simp [modifyTarget, targetValue]

@[simp] theorem modifyTarget_pc (o : Target) (f : Byte → Byte) (s : State) :
    (modifyTarget o f s).2.pc = s.pc + targetLength o := by
  cases o with
  | acc => rfl
  | mem m => simp [modifyTarget, resolve_len, targetLength, Target.mode]

@[simp] theorem modifyTarget_x (o : Target) (f : Byte → Byte) (s : State) : (modifyTarget o f s).2.x = s.x := by
  cases o with
  | acc => rfl
  | mem m => simp [modifyTarget]
@[simp] theorem modifyTarget_y (o : Target) (f : Byte → Byte) (s : State) : (modifyTarget o f s).2.y = s.y := by
  cases o with
  | acc => rfl
  | mem m => simp [modifyTarget]
@[simp] theorem modifyTarget_sp (o : Target) (f : Byte → Byte) (s : State) : (modifyTarget o f s).2.sp = s.sp := by
  cases o with
  | acc => rfl
  | mem m => simp [modifyTarget]
@[simp] theorem modifyTarget_p (o : Target) (f : Byte → Byte) (s : State) : (modifyTarget o f s).2.p = s.p := by
  cases o with
  | acc => rfl
  | mem m => simp [modifyTarget]
@[simp] theorem modifyTarget_runState (o : Target) (f : Byte → Byte) (s : State) : (modifyTarget o f s).2.runState = s.runState := by
  cases o with
  | acc => rfl
  | mem m => simp [modifyTarget]
@[simp] theorem modifyTarget_params (o : Target) (f : Byte → Byte) (s : State) : (modifyTarget o f s).2.params = s.params := by
  cases o with
  | acc => rfl
  | mem m => simp [modifyTarget]

@[simp] theorem flag_modifyTarget (o : Target) (f : Byte → Byte) (s : State) (g : Flag) :
    flag g (modifyTarget o f s).2 = flag g s :=
  flag_congr (modifyTarget_p o f s) g

@[simp] theorem modifyTarget_acc_a (f : Byte → Byte) (s : State) : (modifyTarget .acc f s).2.a = f s.a := rfl

@[simp] theorem modifyTarget_acc_mem (f : Byte → Byte) (s : State) : (modifyTarget .acc f s).2.mem = s.mem := rfl

@[simp] theorem modifyTarget_mem_a (m : Addr) (f : Byte → Byte) (s : State) :
    (modifyTarget (.mem m) f s).2.a = s.a := by
  simp [modifyTarget]

@[simp] theorem modifyTarget_mem_mem (m : Addr) (f : Byte → Byte) (s : State) :
    (modifyTarget (.mem m) f s).2.mem =
      writeByte s.mem (resolve m s).1.ea.toNat (f (targetValue (.mem m) s)) := by
  simp [modifyTarget, targetValue]

/-- The transactions of a read-modify-write operand after the fetch (40_addressing_sequencer.md R126). -/
theorem modifyTarget_bus (o : Target) (f : Byte → Byte) (s : State) :
    ∃ l, (modifyTarget o f s).2.bus = s.bus ++ l ∧ l.map BusEvent.access = targetAccesses o s ∧
      replay l s.mem = some (modifyTarget o f s).2.mem := by
  cases o with
  | acc => exact ⟨[], by simp [modifyTarget, targetAccesses, replay]⟩
  | mem m =>
    obtain ⟨l, h1, h2, h3⟩ := resolve_bus m s
    refine ⟨l ++ [.read (resolve m s).1.ea (targetValue (.mem m) s),
      .write (resolve m s).1.ea (f (targetValue (.mem m) s))], ?_, ?_, ?_⟩
    · simp [modifyTarget, h1, targetValue]
    · simp [h2, targetAccesses, BusEvent.access]
    · rw [replay_append, h3]
      simp [replay, targetValue]

/-! ## The parameter BUS_READ is consulted by no operand access -/

theorem resolve_withBusRead (m : Addr) (f : Memory) (s : State) :
    resolve m (withBusRead f s) = ((resolve m s).1, withBusRead f (resolve m s).2) := by
  cases m <;> rfl

theorem resolveJump_withBusRead (o : JumpOperand) (f : Memory) (s : State) :
    resolveJump o (withBusRead f s) = ((resolveJump o s).1, withBusRead f (resolveJump o s).2) := by
  cases o <;> rfl

theorem loadSource_withBusRead (o : Source) (f : Memory) (s : State) :
    loadSource o (withBusRead f s) = ((loadSource o s).1, withBusRead f (loadSource o s).2) := by
  cases o with
  | imm v => rfl
  | mem m => simp only [loadSource, resolve_withBusRead]; rfl

theorem storeAt_withBusRead (m : Addr) (v : Byte) (f : Memory) (s : State) :
    storeAt m v (withBusRead f s) = withBusRead f (storeAt m v s) := by
  simp only [storeAt, resolve_withBusRead]; rfl

theorem modifyTarget_withBusRead (o : Target) (g : Byte → Byte) (f : Memory) (s : State) :
    modifyTarget o g (withBusRead f s) = ((modifyTarget o g s).1, withBusRead f (modifyTarget o g s).2) := by
  cases o with
  | acc => rfl
  | mem m => simp only [modifyTarget, resolve_withBusRead]; rfl

end Sys2Proof.Machine
end

