-- ==== Sys2Proof/Laws/Control.lean ====
section
/-! SUPPORT. The loader, the reset and the launch: one field lemma each. The prover of a launch rewrites with these and
with `readByte_writeBytes_hit` and `readByte_writeBytes_miss`, and unfolds none of the three. -/

namespace Sys2Proof.Machine

/-- The memory the loader leaves (70_reset_and_hazards.md R261). -/
@[simp] theorem loadProgram_mem (program : List Byte) (s : State) :
    (loadProgram program s).mem =
      writeWord (writeBytes s.mem s.params.loadAddr program) resetVector s.params.loadAddr := rfl
@[simp] theorem loadProgram_params (program : List Byte) (s : State) : (loadProgram program s).params = s.params := rfl

@[simp] theorem resetPc_mem (s : State) : (resetPc s).2.mem = s.mem := by
  cases h : s.params.startPc <;> simp [resetPc, h]
@[simp] theorem resetPc_params (s : State) : (resetPc s).2.params = s.params := by
  cases h : s.params.startPc <;> simp [resetPc, h]

/-- Where the reset takes PC from (R262). -/
theorem resetPc_value (s : State) : (resetPc s).1 = s.params.startPc.getD (memRead16 resetVector s).1 := by
  cases h : s.params.startPc <;> simp [resetPc, h]

@[simp] theorem resetBlock_a (s : State) : (resetBlock s).a = 0x00 := rfl
@[simp] theorem resetBlock_x (s : State) : (resetBlock s).x = 0x00 := rfl
@[simp] theorem resetBlock_y (s : State) : (resetBlock s).y = 0x00 := rfl
@[simp] theorem resetBlock_p (s : State) : (resetBlock s).p = pReset := rfl
@[simp] theorem resetBlock_runState (s : State) : (resetBlock s).runState = .running := rfl
@[simp] theorem resetBlock_mem (s : State) : (resetBlock s).mem = s.mem := by simp [resetBlock]
@[simp] theorem resetBlock_params (s : State) : (resetBlock s).params = s.params := by simp [resetBlock]
@[simp] theorem resetBlock_pc (s : State) : (resetBlock s).pc = (resetPc (clearBus s)).1 := rfl
@[simp] theorem resetBlock_bus (s : State) : (resetBlock s).bus = (resetPc (clearBus s)).2.bus := rfl

/-- The launch is the loader and the reset over the initial memory (R260). -/
theorem launch_eq (params : Params) (m : Memory) (program : List Byte) :
    launch params m program =
      resetBlock (loadProgram program { State.reset with mem := m, params := params }) := rfl

/-- The memory after a launch. -/
@[simp] theorem launch_mem (params : Params) (m : Memory) (program : List Byte) :
    (launch params m program).mem = writeWord (writeBytes m params.loadAddr program) resetVector params.loadAddr := by
  simp [launch_eq]

end Sys2Proof.Machine
end

