-- ==== Sys2Proof/Laws/Decode.lean ====
section
/-! SUPPORT. The decode table read both ways: the grid of 30_encoding.md R86 and the rows of R85 say the same. -/

namespace Sys2Proof.Machine

/-- The mnemonic and mode of an opcode byte, from the grid. -/
def tableCell (op : Byte) : Option (Mnemonic × Mode) := (decodeEntry op).map fun e => (e.mnemonic, e.mode)

/-- A byte's cell of the grid is a row of R85, or the byte is one of R88's. -/
def cellIsListed (op : Byte) : Bool :=
  match tableCell op with
  | some (m, k) => m.opcodes.contains (k, op)
  | none => undocumentedOpcodes.contains op

/-- Every row of R85 is in the grid at its byte. -/
theorem tableCell_of_mem_opcodes (m : Mnemonic) : ∀ p ∈ m.opcodes, tableCell p.2 = some (m, p.1) := by
  cases m <;> decide

/-- Every cell of the grid is listed. -/
theorem cellIsListed_all : ∀ op : Byte, cellIsListed op = true := by
  decide

/-- The rows of R85 for a mnemonic, as `HasRows` lists them. -/
theorem hasRows_opcodes (m : Mnemonic) : HasRows m (m.opcodes.map Prod.swap) := by
  intro op k
  constructor
  · intro h
    have hl := cellIsListed_all op
    simp only [cellIsListed, show tableCell op = some (m, k) from h, List.contains_iff_mem] at hl
    exact List.mem_map.mpr ⟨(k, op), hl, rfl⟩
  · intro h
    obtain ⟨p, hp, hswap⟩ := List.mem_map.mp h
    obtain ⟨rfl, rfl⟩ := Prod.mk.inj hswap
    exact tableCell_of_mem_opcodes m p hp

/-- The undocumented bytes are exactly those with no entry (R88). -/
theorem decodeEntry_none_of_mem : ∀ op ∈ undocumentedOpcodes, decodeEntry op = none := by
  decide

/-- A byte with no entry is listed as undocumented (R88). -/
theorem mem_undocumented_of_none {op : Byte} (h : decodeEntry op = none) : op ∈ undocumentedOpcodes := by
  have hl := cellIsListed_all op
  simpa [cellIsListed, tableCell, h] using hl

end Sys2Proof.Machine
end

