-- ==== Sys2Proof/Laws/Exec.lean ====
section
/-! SUPPORT. What exec answers, one equation per constructor, in terms of the operand's value: every arm answers a next
state. Also the values of the stack and jump operations, and the byte arithmetic of addresses. -/

namespace Sys2Proof.Machine

/-! ## Values of the stack and jump operations -/

@[simp] theorem zext_toNat (b : Byte) : (zext b).toNat = b.toNat := by
  simp only [zext, BitVec.toNat_ofNat]
  omega

/-- The number `hi:lo` is (00_scope.md R12). -/
@[simp] theorem hiLo_toNat (hi lo : Byte) : (hiLo hi lo).toNat = hi.toNat * 256 + lo.toNat := by
  simp only [hiLo, BitVec.toNat_ofNat]
  omega

@[simp] theorem hiByte_toNat (w : Word) : (hiByte w).toNat = w.toNat / 256 := by
  simp only [hiByte, BitVec.toNat_ofNat]
  omega

@[simp] theorem loByte_toNat (w : Word) : (loByte w).toNat = w.toNat % 256 := by
  simp only [loByte, BitVec.toNat_ofNat]

@[simp] theorem hiByte_hiLo (hi lo : Byte) : hiByte (hiLo hi lo) = hi := by
  apply BitVec.eq_of_toNat_eq
  simp only [hiByte_toNat, hiLo_toNat]
  omega

@[simp] theorem loByte_hiLo (hi lo : Byte) : loByte (hiLo hi lo) = lo := by
  apply BitVec.eq_of_toNat_eq
  simp only [loByte_toNat, hiLo_toNat]
  omega

@[simp] theorem hiLo_hiByte_loByte (w : Word) : hiLo (hiByte w) (loByte w) = w := by
  apply BitVec.eq_of_toNat_eq
  simp only [hiLo_toNat, hiByte_toNat, loByte_toNat]
  omega

/-- The stack page (10_state.md R35): 0x0100 to 0x01FF. -/
@[simp] theorem stackAddr_toNat (sp : Byte) : (stackAddr sp).toNat = 0x0100 + sp.toNat := by
  have h : stackBase.toNat = 0x0100 := rfl
  simp only [stackAddr, BitVec.toNat_add, zext_toNat, h]
  omega

theorem stackAddr_inj {sp sp' : Byte} (h : stackAddr sp = stackAddr sp') : sp = sp' := by
  have := congrArg BitVec.toNat h
  simp only [stackAddr_toNat] at this
  exact BitVec.eq_of_toNat_eq (by omega)

/-- Two addresses lie in different pages exactly when their high bytes differ (40_addressing_sequencer.md R113). -/
theorem crossesPage_iff (a b : Word) : crossesPage a b = true ↔ b.toNat / 256 ≠ a.toNat / 256 := by
  simp only [crossesPage, bne_iff_ne, ne_eq, ← BitVec.toNat_inj, hiByte_toNat]
  omega

/-- `sext_16` as a number: the signed byte, modulo 65536 (00_scope.md R12). -/
theorem sext_toNat (d : Byte) : ((sext d).toNat : Int) = d.toInt % 65536 := by
  revert d
  decide

/-- The branch target as a number (40_addressing_sequencer.md R111). -/
theorem branch_target_toNat (d : Byte) (w : Word) :
    ((w + 2 + sext d).toNat : Int) = (w.toNat + 2 + d.toInt) % 65536 := by
  have h := sext_toNat d
  simp only [BitVec.toNat_add]
  push_cast
  omega

/-- Where JMP (ind) reads its high byte, as a number (R112). -/
theorem pointerHighAddr_toNat (ptr : Word) (pageWrap : Bool) :
    (pointerHighAddr ptr pageWrap).toNat =
      if pageWrap then ptr.toNat / 256 * 256 + (ptr.toNat + 1) % 256 else (ptr.toNat + 1) % 65536 := by
  unfold pointerHighAddr
  split_ifs <;> simp

/-- The word two pops give, low byte first (49_stack_control.md R225). -/
@[simp] theorem pullWord_value (s : State) :
    (pullWord s).1 =
      hiLo (readByte s.mem (stackAddr (s.sp + 1 + 1)).toNat) (readByte s.mem (stackAddr (s.sp + 1)).toNat) := rfl

/-- What pulling P writes (R223). -/
theorem pullP_eq (s : State) :
    pullP s = setP (pulledP (readByte s.mem (stackAddr (s.sp + 1)).toNat) (getP s)) (pop s).2 := rfl

@[simp] theorem pullWord_a (s : State) : (pullWord s).2.a = s.a := rfl
@[simp] theorem pullWord_x (s : State) : (pullWord s).2.x = s.x := rfl
@[simp] theorem pullWord_y (s : State) : (pullWord s).2.y = s.y := rfl
@[simp] theorem pullWord_sp (s : State) : (pullWord s).2.sp = s.sp + 1 + 1 := rfl
@[simp] theorem pullWord_pc (s : State) : (pullWord s).2.pc = s.pc := rfl
@[simp] theorem pullWord_p (s : State) : (pullWord s).2.p = s.p := rfl
@[simp] theorem pullWord_runState (s : State) : (pullWord s).2.runState = s.runState := rfl
@[simp] theorem pullWord_mem (s : State) : (pullWord s).2.mem = s.mem := rfl
@[simp] theorem pullWord_params (s : State) : (pullWord s).2.params = s.params := rfl
@[simp] theorem getP_pullWord (s : State) : getP (pullWord s).2 = getP s := rfl
@[simp] theorem flag_pullWord (s : State) (g : Flag) : flag g (pullWord s).2 = flag g s := rfl

@[simp] theorem pullP_a (s : State) : (pullP s).a = s.a := rfl
@[simp] theorem pullP_x (s : State) : (pullP s).x = s.x := rfl
@[simp] theorem pullP_y (s : State) : (pullP s).y = s.y := rfl
@[simp] theorem pullP_sp (s : State) : (pullP s).sp = s.sp + 1 := rfl
@[simp] theorem pullP_pc (s : State) : (pullP s).pc = s.pc := rfl
@[simp] theorem pullP_runState (s : State) : (pullP s).runState = s.runState := rfl
@[simp] theorem pullP_mem (s : State) : (pullP s).mem = s.mem := rfl
@[simp] theorem pullP_params (s : State) : (pullP s).params = s.params := rfl

/-- P after a pull of P (R223). -/
theorem getP_pullP (s : State) :
    getP (pullP s) = pulledP (readByte s.mem (stackAddr (s.sp + 1)).toNat) (getP s) ||| 0x20 := by
  rw [pullP_eq, getP_setP]

/-- The flags after a pull of P: B kept, the others from the pulled byte (R223). -/
theorem flag_pullP (f : Flag) (s : State) :
    flag f (pullP s) =
      if f = .b then flag .b s else (readByte s.mem (stackAddr (s.sp + 1)).toNat).getLsbD (flagBit f) := by
  rw [pullP_eq, flag_setP]
  by_cases h : f = .b
  · subst h
    rw [if_pos rfl]
    exact pulledP_bit4 _ _
  · rw [if_neg h, pulledP_flag _ _ h]


@[simp] theorem resolveJump_a (o : JumpOperand) (s : State) : (resolveJump o s).2.a = s.a := by cases o <;> rfl
@[simp] theorem resolveJump_x (o : JumpOperand) (s : State) : (resolveJump o s).2.x = s.x := by cases o <;> rfl
@[simp] theorem resolveJump_y (o : JumpOperand) (s : State) : (resolveJump o s).2.y = s.y := by cases o <;> rfl
@[simp] theorem resolveJump_sp (o : JumpOperand) (s : State) : (resolveJump o s).2.sp = s.sp := by cases o <;> rfl
@[simp] theorem resolveJump_pc (o : JumpOperand) (s : State) : (resolveJump o s).2.pc = s.pc := by cases o <;> rfl
@[simp] theorem resolveJump_p (o : JumpOperand) (s : State) : (resolveJump o s).2.p = s.p := by cases o <;> rfl
@[simp] theorem resolveJump_runState (o : JumpOperand) (s : State) : (resolveJump o s).2.runState = s.runState := by cases o <;> rfl
@[simp] theorem resolveJump_mem (o : JumpOperand) (s : State) : (resolveJump o s).2.mem = s.mem := by cases o <;> rfl
@[simp] theorem resolveJump_params (o : JumpOperand) (s : State) : (resolveJump o s).2.params = s.params := by cases o <;> rfl
@[simp] theorem flag_resolveJump (o : JumpOperand) (s : State) (g : Flag) : flag g (resolveJump o s).2 = flag g s :=
  flag_congr (resolveJump_p o s) g

/-! ## The next state of each instruction -/

theorem exec_lda (o : Source) (s : State) :
    exec (.lda o) s = .next (setZN (sourceValue o s) (setA (sourceValue o s) (loadSource o s).2)) := by
  simp only [exec, execLda, loadSource_value]
theorem exec_ldx (o : Source) (s : State) :
    exec (.ldx o) s = .next (setZN (sourceValue o s) (setX (sourceValue o s) (loadSource o s).2)) := by
  simp only [exec, execLdx, loadSource_value]
theorem exec_ldy (o : Source) (s : State) :
    exec (.ldy o) s = .next (setZN (sourceValue o s) (setY (sourceValue o s) (loadSource o s).2)) := by
  simp only [exec, execLdy, loadSource_value]
theorem exec_sta (m : Addr) (s : State) : exec (.sta m) s = .next (storeAt m s.a s) := rfl
theorem exec_stx (m : Addr) (s : State) : exec (.stx m) s = .next (storeAt m s.x s) := rfl
theorem exec_sty (m : Addr) (s : State) : exec (.sty m) s = .next (storeAt m s.y s) := rfl
theorem exec_tax (s : State) : exec .tax s = .next (setZN s.a (setX s.a (advance 1 s))) := rfl
theorem exec_tay (s : State) : exec .tay s = .next (setZN s.a (setY s.a (advance 1 s))) := rfl
theorem exec_txa (s : State) : exec .txa s = .next (setZN s.x (setA s.x (advance 1 s))) := rfl
theorem exec_tya (s : State) : exec .tya s = .next (setZN s.y (setA s.y (advance 1 s))) := rfl
theorem exec_tsx (s : State) :
    exec .tsx s =
      .next (if s.params.tsxSetsNz then setZN s.sp (setX s.sp (advance 1 s)) else setX s.sp (advance 1 s)) := rfl
theorem exec_txs (s : State) : exec .txs s = .next (setSp s.x (advance 1 s)) := rfl
theorem exec_adc (o : Source) (s : State) :
    exec (.adc o) s = .next (addToA (sourceValue o s) (loadSource o s).2) := by
  simp only [exec, execAdc, loadSource_value]
theorem exec_sbc (o : Source) (s : State) :
    exec (.sbc o) s = .next (addToA (~~~(sourceValue o s)) (loadSource o s).2) := by
  simp only [exec, execSbc, loadSource_value]
theorem exec_and (o : Source) (s : State) :
    exec (.and o) s = .next (logicToA (s.a &&& sourceValue o s) (loadSource o s).2) := by
  simp only [exec, execAnd, loadSource_value]
theorem exec_ora (o : Source) (s : State) :
    exec (.ora o) s = .next (logicToA (s.a ||| sourceValue o s) (loadSource o s).2) := by
  simp only [exec, execOra, loadSource_value]
theorem exec_eor (o : Source) (s : State) :
    exec (.eor o) s = .next (logicToA (s.a ^^^ sourceValue o s) (loadSource o s).2) := by
  simp only [exec, execEor, loadSource_value]
theorem exec_asl (o : Target) (s : State) :
    exec (.asl o) s =
      .next (shiftFlags ((targetValue o s).getLsbD 7) (aslByte (targetValue o s)) (modifyTarget o aslByte s).2) := by
  simp only [exec, execAsl, modifyTarget_value]
theorem exec_lsr (o : Target) (s : State) :
    exec (.lsr o) s =
      .next (shiftFlags ((targetValue o s).getLsbD 0) (lsrByte (targetValue o s)) (modifyTarget o lsrByte s).2) := by
  simp only [exec, execLsr, modifyTarget_value]
theorem exec_rol (o : Target) (s : State) :
    exec (.rol o) s =
      .next (shiftFlags ((targetValue o s).getLsbD 7) ((rolByte (flag .c s)) (targetValue o s)) (modifyTarget o (rolByte (flag .c s)) s).2) := by
  simp only [exec, execRol, modifyTarget_value]
theorem exec_ror (o : Target) (s : State) :
    exec (.ror o) s =
      .next (shiftFlags ((targetValue o s).getLsbD 0) ((rorByte (flag .c s)) (targetValue o s)) (modifyTarget o (rorByte (flag .c s)) s).2) := by
  simp only [exec, execRor, modifyTarget_value]
theorem exec_cmp (o : Source) (s : State) :
    exec (.cmp o) s = .next (compareReg s.a (sourceValue o s) (loadSource o s).2) := by
  simp only [exec, execCmp, loadSource_value]
theorem exec_cpx (o : Source) (s : State) :
    exec (.cpx o) s = .next (compareReg s.x (sourceValue o s) (loadSource o s).2) := by
  simp only [exec, execCpx, loadSource_value]
theorem exec_cpy (o : Source) (s : State) :
    exec (.cpy o) s = .next (compareReg s.y (sourceValue o s) (loadSource o s).2) := by
  simp only [exec, execCpy, loadSource_value]
theorem exec_bit (m : Addr) (s : State) :
    exec (.bit m) s = .next (bitTest (sourceValue (.mem m) s) (loadSource (.mem m) s).2) := by
  simp only [exec, execBit, loadSource_value]
theorem exec_inc (m : Addr) (s : State) :
    exec (.inc m) s = .next (setZN (targetValue (.mem m) s + 1) (modifyTarget (.mem m) (· + 1) s).2) := by
  simp only [exec, execInc, modifyTarget_value]
theorem exec_dec (m : Addr) (s : State) :
    exec (.dec m) s = .next (setZN (targetValue (.mem m) s - 1) (modifyTarget (.mem m) (· - 1) s).2) := by
  simp only [exec, execDec, modifyTarget_value]
theorem exec_inx (s : State) : exec .inx s = .next (setZN (s.x + 1) (setX (s.x + 1) (advance 1 s))) := rfl
theorem exec_dex (s : State) : exec .dex s = .next (setZN (s.x - 1) (setX (s.x - 1) (advance 1 s))) := rfl
theorem exec_iny (s : State) : exec .iny s = .next (setZN (s.y + 1) (setY (s.y + 1) (advance 1 s))) := rfl
theorem exec_dey (s : State) : exec .dey s = .next (setZN (s.y - 1) (setY (s.y - 1) (advance 1 s))) := rfl
theorem exec_bcc (d : Byte) (s : State) : exec (.bcc d) s = .next (branch (!flag .c s) d s) := rfl
theorem exec_bcs (d : Byte) (s : State) : exec (.bcs d) s = .next (branch (flag .c s) d s) := rfl
theorem exec_beq (d : Byte) (s : State) : exec (.beq d) s = .next (branch (flag .z s) d s) := rfl
theorem exec_bne (d : Byte) (s : State) : exec (.bne d) s = .next (branch (!flag .z s) d s) := rfl
theorem exec_bmi (d : Byte) (s : State) : exec (.bmi d) s = .next (branch (flag .n s) d s) := rfl
theorem exec_bpl (d : Byte) (s : State) : exec (.bpl d) s = .next (branch (!flag .n s) d s) := rfl
theorem exec_bvc (d : Byte) (s : State) : exec (.bvc d) s = .next (branch (!flag .v s) d s) := rfl
theorem exec_bvs (d : Byte) (s : State) : exec (.bvs d) s = .next (branch (flag .v s) d s) := rfl
theorem exec_clc (s : State) : exec .clc s = .next (setFlag .c false (advance 1 s)) := rfl
theorem exec_sec (s : State) : exec .sec s = .next (setFlag .c true (advance 1 s)) := rfl
theorem exec_cli (s : State) : exec .cli s = .next (setFlag .i false (advance 1 s)) := rfl
theorem exec_sei (s : State) : exec .sei s = .next (setFlag .i true (advance 1 s)) := rfl
theorem exec_cld (s : State) : exec .cld s = .next (setFlag .d false (advance 1 s)) := rfl
theorem exec_sed (s : State) : exec .sed s = .next (setFlag .d true (advance 1 s)) := rfl
theorem exec_clv (s : State) : exec .clv s = .next (setFlag .v false (advance 1 s)) := rfl
theorem exec_pha (s : State) : exec .pha s = .next (push s.a (advance 1 s)) := rfl
theorem exec_pla (s : State) :
    exec .pla s = .next (setZN (pop (advance 1 s)).1 (setA (pop (advance 1 s)).1 (pop (advance 1 s)).2)) := rfl
theorem exec_php (s : State) : exec .php s = .next (push (getP s ||| 0x30) (advance 1 s)) := rfl
theorem exec_plp (s : State) : exec .plp s = .next (pullP (advance 1 s)) := rfl
theorem exec_jsr (w : Word) (s : State) :
    exec (.jsr w) s = .next (setPc w (push (loByte (s.pc + 3 - 1)) (push (hiByte (s.pc + 3 - 1)) (advance 3 s)))) := rfl
theorem exec_rts (s : State) :
    exec .rts s = .next (setPc ((pullWord (advance 1 s)).1 + 1) (pullWord (advance 1 s)).2) := rfl
theorem exec_rti (s : State) :
    exec .rti s = .next (setPc (pullWord (pullP (advance 1 s))).1 (pullWord (pullP (advance 1 s))).2) := rfl
theorem exec_jmp (o : JumpOperand) (s : State) :
    exec (.jmp o) s = .next (setPc (resolveJump o s).1.ea (advance (resolveJump o s).1.len (resolveJump o s).2)) := rfl
theorem exec_brk (s : State) :
    exec .brk s =
      .next (halt (if s.params.brkHaltPcAdvance then advance 1 (setFlag .b true s) else setFlag .b true s)) := rfl
theorem exec_nop (s : State) : exec .nop s = .next (advance 1 s) := rfl
theorem exec_ill (op : Byte) (s : State) : exec (.ill op) s = .next (raiseIllegalOpcode op s) := rfl

/-- Every instruction answers a next state: no arm of exec faults or refuses (40_addressing_sequencer.md R124). -/
theorem exec_answers_next (i : Instr) (s : State) : ∃ t, exec i s = .next t := by
  cases i <;> exact ⟨_, rfl⟩

/-- A step answers a next state from every state. -/
theorem step_answers_next (s : State) : ∃ t, step s = .next t := by
  cases h : s.runState <;> simp only [step, h]
  · exact exec_answers_next _ _
  · exact ⟨s, rfl⟩
  · exact ⟨s, rfl⟩

/-- The fetch changes only the transaction list, and gives the instruction of the opcode byte at PC with some operand
bytes (40_addressing_sequencer.md R120). -/
theorem fetch_clearBus (s : State) :
    ∃ b1 b2 bus, fetch (clearBus s) = (assemble (readByte s.mem s.pc.toNat) b1 b2, { s with bus := bus }) := by
  unfold fetch
  simp only [busRead_value, clearBus_mem, clearBus_pc]
  rcases operandCount (readByte s.mem s.pc.toNat) with _ | _ | n <;> exact ⟨_, _, _, rfl⟩

end Sys2Proof.Machine
end

