-- ==== Sys2Proof/Laws/PerInstr.lean ====
section
/-! SUPPORT. Per constructor of Instr: a well-formed instruction has an encoding, of the length of its mode
(30_encoding.md R80, R81, R90). -/

namespace Sys2Proof.Laws

/-- A well-formed instruction has an encoding, as many bytes long as its mode says. -/
def EncodedLength.Statement (i : Instr) : Prop :=
  i.wellFormed = true → ∃ bs, encode i = some bs ∧ bs.length = i.length

/-- The encoding of an instruction whose opcode byte is known. -/
theorem encodedLength_of_opcode {i : Instr} {op : Byte} (h : i.opcode = some op)
    (hlen : i.operandBytes.length + 1 = i.length) : EncodedLength.Statement i := fun _ =>
  ⟨op :: i.operandBytes, by simp [encode, h], hlen⟩

theorem EncodedLength.lda (o : Source) : EncodedLength.Statement (.lda o) := by
  cases o with
  | imm v => exact encodedLength_of_opcode rfl rfl
  | mem m => cases m <;> first
    | exact encodedLength_of_opcode rfl rfl
    | exact fun h => absurd h (by simp [Instr.wellFormed, Source.mode, Addr.mode, Mnemonic.modes, aluModes])

theorem EncodedLength.ldx (o : Source) : EncodedLength.Statement (.ldx o) := by
  cases o with
  | imm v => exact encodedLength_of_opcode rfl rfl
  | mem m => cases m <;> first
    | exact encodedLength_of_opcode rfl rfl
    | exact fun h => absurd h (by simp [Instr.wellFormed, Source.mode, Addr.mode, Mnemonic.modes])

theorem EncodedLength.ldy (o : Source) : EncodedLength.Statement (.ldy o) := by
  cases o with
  | imm v => exact encodedLength_of_opcode rfl rfl
  | mem m => cases m <;> first
    | exact encodedLength_of_opcode rfl rfl
    | exact fun h => absurd h (by simp [Instr.wellFormed, Source.mode, Addr.mode, Mnemonic.modes])

theorem EncodedLength.sta (m : Addr) : EncodedLength.Statement (.sta m) := by
  cases m <;> first
    | exact encodedLength_of_opcode rfl rfl
    | exact fun h => absurd h (by simp [Instr.wellFormed, Addr.mode, Mnemonic.modes])

theorem EncodedLength.stx (m : Addr) : EncodedLength.Statement (.stx m) := by
  cases m <;> first
    | exact encodedLength_of_opcode rfl rfl
    | exact fun h => absurd h (by simp [Instr.wellFormed, Addr.mode, Mnemonic.modes])

theorem EncodedLength.sty (m : Addr) : EncodedLength.Statement (.sty m) := by
  cases m <;> first
    | exact encodedLength_of_opcode rfl rfl
    | exact fun h => absurd h (by simp [Instr.wellFormed, Addr.mode, Mnemonic.modes])

theorem EncodedLength.tax : EncodedLength.Statement .tax := encodedLength_of_opcode rfl rfl

theorem EncodedLength.tay : EncodedLength.Statement .tay := encodedLength_of_opcode rfl rfl

theorem EncodedLength.txa : EncodedLength.Statement .txa := encodedLength_of_opcode rfl rfl

theorem EncodedLength.tya : EncodedLength.Statement .tya := encodedLength_of_opcode rfl rfl

theorem EncodedLength.tsx : EncodedLength.Statement .tsx := encodedLength_of_opcode rfl rfl

theorem EncodedLength.txs : EncodedLength.Statement .txs := encodedLength_of_opcode rfl rfl

theorem EncodedLength.adc (o : Source) : EncodedLength.Statement (.adc o) := by
  cases o with
  | imm v => exact encodedLength_of_opcode rfl rfl
  | mem m => cases m <;> first
    | exact encodedLength_of_opcode rfl rfl
    | exact fun h => absurd h (by simp [Instr.wellFormed, Source.mode, Addr.mode, Mnemonic.modes, aluModes])

theorem EncodedLength.sbc (o : Source) : EncodedLength.Statement (.sbc o) := by
  cases o with
  | imm v => exact encodedLength_of_opcode rfl rfl
  | mem m => cases m <;> first
    | exact encodedLength_of_opcode rfl rfl
    | exact fun h => absurd h (by simp [Instr.wellFormed, Source.mode, Addr.mode, Mnemonic.modes, aluModes])

theorem EncodedLength.and (o : Source) : EncodedLength.Statement (.and o) := by
  cases o with
  | imm v => exact encodedLength_of_opcode rfl rfl
  | mem m => cases m <;> first
    | exact encodedLength_of_opcode rfl rfl
    | exact fun h => absurd h (by simp [Instr.wellFormed, Source.mode, Addr.mode, Mnemonic.modes, aluModes])

theorem EncodedLength.ora (o : Source) : EncodedLength.Statement (.ora o) := by
  cases o with
  | imm v => exact encodedLength_of_opcode rfl rfl
  | mem m => cases m <;> first
    | exact encodedLength_of_opcode rfl rfl
    | exact fun h => absurd h (by simp [Instr.wellFormed, Source.mode, Addr.mode, Mnemonic.modes, aluModes])

theorem EncodedLength.eor (o : Source) : EncodedLength.Statement (.eor o) := by
  cases o with
  | imm v => exact encodedLength_of_opcode rfl rfl
  | mem m => cases m <;> first
    | exact encodedLength_of_opcode rfl rfl
    | exact fun h => absurd h (by simp [Instr.wellFormed, Source.mode, Addr.mode, Mnemonic.modes, aluModes])

theorem EncodedLength.asl (o : Target) : EncodedLength.Statement (.asl o) := by
  cases o with
  | acc => exact encodedLength_of_opcode rfl rfl
  | mem m => cases m <;> first
    | exact encodedLength_of_opcode rfl rfl
    | exact fun h => absurd h (by simp [Instr.wellFormed, Target.mode, Addr.mode, Mnemonic.modes, shiftModes])

theorem EncodedLength.lsr (o : Target) : EncodedLength.Statement (.lsr o) := by
  cases o with
  | acc => exact encodedLength_of_opcode rfl rfl
  | mem m => cases m <;> first
    | exact encodedLength_of_opcode rfl rfl
    | exact fun h => absurd h (by simp [Instr.wellFormed, Target.mode, Addr.mode, Mnemonic.modes, shiftModes])

theorem EncodedLength.rol (o : Target) : EncodedLength.Statement (.rol o) := by
  cases o with
  | acc => exact encodedLength_of_opcode rfl rfl
  | mem m => cases m <;> first
    | exact encodedLength_of_opcode rfl rfl
    | exact fun h => absurd h (by simp [Instr.wellFormed, Target.mode, Addr.mode, Mnemonic.modes, shiftModes])

theorem EncodedLength.ror (o : Target) : EncodedLength.Statement (.ror o) := by
  cases o with
  | acc => exact encodedLength_of_opcode rfl rfl
  | mem m => cases m <;> first
    | exact encodedLength_of_opcode rfl rfl
    | exact fun h => absurd h (by simp [Instr.wellFormed, Target.mode, Addr.mode, Mnemonic.modes, shiftModes])

theorem EncodedLength.cmp (o : Source) : EncodedLength.Statement (.cmp o) := by
  cases o with
  | imm v => exact encodedLength_of_opcode rfl rfl
  | mem m => cases m <;> first
    | exact encodedLength_of_opcode rfl rfl
    | exact fun h => absurd h (by simp [Instr.wellFormed, Source.mode, Addr.mode, Mnemonic.modes, aluModes])

theorem EncodedLength.cpx (o : Source) : EncodedLength.Statement (.cpx o) := by
  cases o with
  | imm v => exact encodedLength_of_opcode rfl rfl
  | mem m => cases m <;> first
    | exact encodedLength_of_opcode rfl rfl
    | exact fun h => absurd h (by simp [Instr.wellFormed, Source.mode, Addr.mode, Mnemonic.modes])

theorem EncodedLength.cpy (o : Source) : EncodedLength.Statement (.cpy o) := by
  cases o with
  | imm v => exact encodedLength_of_opcode rfl rfl
  | mem m => cases m <;> first
    | exact encodedLength_of_opcode rfl rfl
    | exact fun h => absurd h (by simp [Instr.wellFormed, Source.mode, Addr.mode, Mnemonic.modes])

theorem EncodedLength.bit (m : Addr) : EncodedLength.Statement (.bit m) := by
  cases m <;> first
    | exact encodedLength_of_opcode rfl rfl
    | exact fun h => absurd h (by simp [Instr.wellFormed, Addr.mode, Mnemonic.modes])

theorem EncodedLength.inc (m : Addr) : EncodedLength.Statement (.inc m) := by
  cases m <;> first
    | exact encodedLength_of_opcode rfl rfl
    | exact fun h => absurd h (by simp [Instr.wellFormed, Addr.mode, Mnemonic.modes])

theorem EncodedLength.dec (m : Addr) : EncodedLength.Statement (.dec m) := by
  cases m <;> first
    | exact encodedLength_of_opcode rfl rfl
    | exact fun h => absurd h (by simp [Instr.wellFormed, Addr.mode, Mnemonic.modes])

theorem EncodedLength.inx : EncodedLength.Statement .inx := encodedLength_of_opcode rfl rfl

theorem EncodedLength.dex : EncodedLength.Statement .dex := encodedLength_of_opcode rfl rfl

theorem EncodedLength.iny : EncodedLength.Statement .iny := encodedLength_of_opcode rfl rfl

theorem EncodedLength.dey : EncodedLength.Statement .dey := encodedLength_of_opcode rfl rfl

theorem EncodedLength.bcc (d : Byte) : EncodedLength.Statement (.bcc d) := encodedLength_of_opcode rfl rfl

theorem EncodedLength.bcs (d : Byte) : EncodedLength.Statement (.bcs d) := encodedLength_of_opcode rfl rfl

theorem EncodedLength.beq (d : Byte) : EncodedLength.Statement (.beq d) := encodedLength_of_opcode rfl rfl

theorem EncodedLength.bne (d : Byte) : EncodedLength.Statement (.bne d) := encodedLength_of_opcode rfl rfl

theorem EncodedLength.bmi (d : Byte) : EncodedLength.Statement (.bmi d) := encodedLength_of_opcode rfl rfl

theorem EncodedLength.bpl (d : Byte) : EncodedLength.Statement (.bpl d) := encodedLength_of_opcode rfl rfl

theorem EncodedLength.bvc (d : Byte) : EncodedLength.Statement (.bvc d) := encodedLength_of_opcode rfl rfl

theorem EncodedLength.bvs (d : Byte) : EncodedLength.Statement (.bvs d) := encodedLength_of_opcode rfl rfl

theorem EncodedLength.clc : EncodedLength.Statement .clc := encodedLength_of_opcode rfl rfl

theorem EncodedLength.sec : EncodedLength.Statement .sec := encodedLength_of_opcode rfl rfl

theorem EncodedLength.cli : EncodedLength.Statement .cli := encodedLength_of_opcode rfl rfl

theorem EncodedLength.sei : EncodedLength.Statement .sei := encodedLength_of_opcode rfl rfl

theorem EncodedLength.cld : EncodedLength.Statement .cld := encodedLength_of_opcode rfl rfl

theorem EncodedLength.sed : EncodedLength.Statement .sed := encodedLength_of_opcode rfl rfl

theorem EncodedLength.clv : EncodedLength.Statement .clv := encodedLength_of_opcode rfl rfl

theorem EncodedLength.pha : EncodedLength.Statement .pha := encodedLength_of_opcode rfl rfl

theorem EncodedLength.pla : EncodedLength.Statement .pla := encodedLength_of_opcode rfl rfl

theorem EncodedLength.php : EncodedLength.Statement .php := encodedLength_of_opcode rfl rfl

theorem EncodedLength.plp : EncodedLength.Statement .plp := encodedLength_of_opcode rfl rfl

theorem EncodedLength.jsr (target : Word) : EncodedLength.Statement (.jsr target) := encodedLength_of_opcode rfl rfl

theorem EncodedLength.rts : EncodedLength.Statement .rts := encodedLength_of_opcode rfl rfl

theorem EncodedLength.rti : EncodedLength.Statement .rti := encodedLength_of_opcode rfl rfl

theorem EncodedLength.jmp (o : JumpOperand) : EncodedLength.Statement (.jmp o) := by
  cases o <;> exact encodedLength_of_opcode rfl rfl

theorem EncodedLength.brk : EncodedLength.Statement .brk := encodedLength_of_opcode rfl rfl

theorem EncodedLength.nop : EncodedLength.Statement .nop := encodedLength_of_opcode rfl rfl

theorem EncodedLength.ill (op : Byte) : EncodedLength.Statement (.ill op) := fun h =>
  ⟨[op], by simp only [Instr.wellFormed] at h; simp only [encode, Instr.opcode, h, if_true, Option.map_some, Instr.operandBytes], rfl⟩

end Sys2Proof.Laws
end

