-- ==== Sys2Proof/Tests/Slice0.lean ====
section
/-! SUPPORT. The model's own tests: the WellFormed smoke test, decode tests with words written out from the spec's
encodings (30_encoding.md R85), one-step tests whose expected values are the rows of 95_test_vectors.md, and one witness
for the hypotheses of each statement that has some. -/

namespace Sys2Proof.Machine

/-! ## Helpers -/

/-- The state of 95_test_vectors.md's rows: reset values, the bytes at 0x8000 (rule R261), PC there, further bytes of
memory as listed. -/
def code (bs : List Byte) (extra : List (Nat × Byte)) : State :=
  { State.reset with
    pc := 0x8000, bus := [], mem := writeBytes (extra.foldl (fun m e => writeByte m e.1 e.2) []) 0x8000 bs }

/-- What one step answers, if it is a next state. -/
def after (s : State) : Option State :=
  match step s with
  | .next t => some t
  | .fault _ => none
  | .refused _ => none

/-! ## WellFormed -/

theorem test_lda_zpY_is_refused : Instr.wellFormed (.lda (.mem (.zpY 0x10))) = false := by decide

theorem test_ldx_zpX_is_refused : Instr.wellFormed (.ldx (.mem (.zpX 0x10))) = false := by decide

theorem test_ldy_absY_is_refused : Instr.wellFormed (.ldy (.mem (.absY 0x1234))) = false := by decide

theorem test_sta_zpY_is_refused : Instr.wellFormed (.sta (.zpY 0x10)) = false := by decide

theorem test_stx_zpX_is_refused : Instr.wellFormed (.stx (.zpX 0x10)) = false := by decide

theorem test_sty_absX_is_refused : Instr.wellFormed (.sty (.absX 0x1234)) = false := by decide

theorem test_adc_zpY_is_refused : Instr.wellFormed (.adc (.mem (.zpY 0x10))) = false := by decide

theorem test_sbc_zpY_is_refused : Instr.wellFormed (.sbc (.mem (.zpY 0x10))) = false := by decide

theorem test_and_zpY_is_refused : Instr.wellFormed (.and (.mem (.zpY 0x10))) = false := by decide

theorem test_ora_zpY_is_refused : Instr.wellFormed (.ora (.mem (.zpY 0x10))) = false := by decide

theorem test_eor_zpY_is_refused : Instr.wellFormed (.eor (.mem (.zpY 0x10))) = false := by decide

theorem test_asl_indX_is_refused : Instr.wellFormed (.asl (.mem (.indX 0x10))) = false := by decide

theorem test_lsr_absY_is_refused : Instr.wellFormed (.lsr (.mem (.absY 0x1234))) = false := by decide

theorem test_rol_zpY_is_refused : Instr.wellFormed (.rol (.mem (.zpY 0x10))) = false := by decide

theorem test_ror_indY_is_refused : Instr.wellFormed (.ror (.mem (.indY 0x10))) = false := by decide

theorem test_cmp_zpY_is_refused : Instr.wellFormed (.cmp (.mem (.zpY 0x10))) = false := by decide

theorem test_cpx_zpX_is_refused : Instr.wellFormed (.cpx (.mem (.zpX 0x10))) = false := by decide

theorem test_cpy_absX_is_refused : Instr.wellFormed (.cpy (.mem (.absX 0x1234))) = false := by decide

theorem test_bit_absX_is_refused : Instr.wellFormed (.bit (.absX 0x1234)) = false := by decide

theorem test_inc_absY_is_refused : Instr.wellFormed (.inc (.absY 0x1234)) = false := by decide

theorem test_dec_indX_is_refused : Instr.wellFormed (.dec (.indX 0x10)) = false := by decide

theorem test_ill_of_a_documented_byte_is_refused : Instr.wellFormed (.ill 0xA9) = false := by decide

/-- A term that is no row has no encoding either. -/
theorem test_ill_formed_terms_have_no_encoding :
    encode (.sta (.zpY 0x10)) = none ∧ encode (.ill 0xA9) = none ∧ encode (.cpx (.mem (.zpX 0x10))) = none := by decide

/-! ## Decoding: words written out bit by bit from the rows of 30_encoding.md R85 -/

theorem test_decode_loads :
    decode [0b10101001, 0b10000001] = .ok (.lda (.imm 0b10000001), []) ∧
    decode [0b10110001, 0b10000001] = .ok (.lda (.mem (.indY 0b10000001)), []) ∧
    decode [0b10110110, 0b10000001] = .ok (.ldx (.mem (.zpY 0b10000001)), []) ∧
    decode [0b10111100, 0b00110100, 0b10010010] = .ok (.ldy (.mem (.absX 0x9234)), []) := by decide

theorem test_decode_stores :
    decode [0b10000001, 0b10000001] = .ok (.sta (.indX 0b10000001), []) ∧
    decode [0b10010110, 0b10000001] = .ok (.stx (.zpY 0b10000001), []) ∧
    decode [0b10001100, 0b00110100, 0b10010010] = .ok (.sty (.abs 0x9234), []) := by decide

theorem test_decode_transfers :
    decode [0b10101010] = .ok (.tax, []) ∧
    decode [0b10101000] = .ok (.tay, []) ∧
    decode [0b10001010] = .ok (.txa, []) ∧
    decode [0b10011000] = .ok (.tya, []) ∧
    decode [0b10111010] = .ok (.tsx, []) ∧
    decode [0b10011010] = .ok (.txs, []) := by decide

theorem test_decode_arithmetic_and_logic :
    decode [0b01111001, 0b00110100, 0b10010010] = .ok (.adc (.mem (.absY 0x9234)), []) ∧
    decode [0b11111101, 0b00110100, 0b10010010] = .ok (.sbc (.mem (.absX 0x9234)), []) ∧
    decode [0b00101001, 0b10000001] = .ok (.and (.imm 0b10000001), []) ∧
    decode [0b00001101, 0b00110100, 0b10010010] = .ok (.ora (.mem (.abs 0x9234)), []) ∧
    decode [0b01000001, 0b10000001] = .ok (.eor (.mem (.indX 0b10000001)), []) := by decide

theorem test_decode_shifts :
    decode [0b00001010] = .ok (.asl .acc, []) ∧
    decode [0b01010110, 0b10000001] = .ok (.lsr (.mem (.zpX 0b10000001)), []) ∧
    decode [0b00101110, 0b00110100, 0b10010010] = .ok (.rol (.mem (.abs 0x9234)), []) ∧
    decode [0b01111110, 0b00110100, 0b10010010] = .ok (.ror (.mem (.absX 0x9234)), []) := by decide

theorem test_decode_compares :
    decode [0b11010101, 0b10000001] = .ok (.cmp (.mem (.zpX 0b10000001)), []) ∧
    decode [0b11100000, 0b10000001] = .ok (.cpx (.imm 0b10000001), []) ∧
    decode [0b11000100, 0b10000001] = .ok (.cpy (.mem (.zp 0b10000001)), []) ∧
    decode [0b00101100, 0b00110100, 0b10010010] = .ok (.bit (.abs 0x9234), []) := by decide

theorem test_decode_increments :
    decode [0b11111110, 0b00110100, 0b10010010] = .ok (.inc (.absX 0x9234), []) ∧
    decode [0b11000110, 0b10000001] = .ok (.dec (.zp 0b10000001), []) ∧
    decode [0b11101000] = .ok (.inx, []) ∧
    decode [0b11001010] = .ok (.dex, []) ∧
    decode [0b11001000] = .ok (.iny, []) ∧
    decode [0b10001000] = .ok (.dey, []) := by decide

theorem test_decode_branches :
    decode [0b10010000, 0b10000001] = .ok (.bcc 0b10000001, []) ∧
    decode [0b10110000, 0b10000001] = .ok (.bcs 0b10000001, []) ∧
    decode [0b11110000, 0b10000001] = .ok (.beq 0b10000001, []) ∧
    decode [0b11010000, 0b10000001] = .ok (.bne 0b10000001, []) ∧
    decode [0b00110000, 0b10000001] = .ok (.bmi 0b10000001, []) ∧
    decode [0b00010000, 0b10000001] = .ok (.bpl 0b10000001, []) ∧
    decode [0b01010000, 0b10000001] = .ok (.bvc 0b10000001, []) ∧
    decode [0b01110000, 0b10000001] = .ok (.bvs 0b10000001, []) := by decide

theorem test_decode_flag_instructions :
    decode [0b00011000] = .ok (.clc, []) ∧
    decode [0b00111000] = .ok (.sec, []) ∧
    decode [0b01011000] = .ok (.cli, []) ∧
    decode [0b01111000] = .ok (.sei, []) ∧
    decode [0b11011000] = .ok (.cld, []) ∧
    decode [0b11111000] = .ok (.sed, []) ∧
    decode [0b10111000] = .ok (.clv, []) := by decide

theorem test_decode_stack :
    decode [0b01001000] = .ok (.pha, []) ∧
    decode [0b01101000] = .ok (.pla, []) ∧
    decode [0b00001000] = .ok (.php, []) ∧
    decode [0b00101000] = .ok (.plp, []) := by decide

theorem test_decode_control :
    decode [0b00100000, 0b00110100, 0b10010010] = .ok (.jsr 0x9234, []) ∧
    decode [0b01100000] = .ok (.rts, []) ∧
    decode [0b01000000] = .ok (.rti, []) ∧
    decode [0b01001100, 0b00110100, 0b10010010] = .ok (.jmp (.abs 0x9234), []) ∧
    decode [0b01101100, 0b00110100, 0b10010010] = .ok (.jmp (.ind 0x9234), []) ∧
    decode [0b00000000] = .ok (.brk, []) ∧
    decode [0b11101010] = .ok (.nop, []) ∧
    decode [0b00000010] = .ok (.ill 0x02, []) ∧
    decode [0b11111111] = .ok (.ill 0xFF, []) := by decide

theorem test_decode_leaves_the_rest :
    decode [0xA9, 0x05, 0x00] = .ok (.lda (.imm 0x05), [0x00]) ∧ decode [0x02, 0x05] = .ok (.ill 0x02, [0x05]) := by decide

theorem test_decode_rejects_by_name :
    decode [] = .error .noOpcode ∧ decode [0xA9] = .error (.operandMissing 0xA9) ∧
    decode [0x20, 0x00] = .error (.operandMissing 0x20) := by decide

theorem test_decodeTableWord :
    decodeTableWord 16 0x05A9 = some (.lda (.imm 0x05)) ∧ decodeTableWord 24 0x900020 = some (.jsr 0x9000) ∧
    decodeTableWord 8 0x0A = some (.asl .acc) ∧ decodeTableWord 8 0x12 = some (.ill 0x12) := by decide

/-- Timing columns of R85: LDA abs,X is 4 cycles with the page-cross flag; STA abs,X is 5 without; BRK is 7. -/
theorem test_decode_entries :
    (decodeEntry 0xBD).map (fun e => (e.bytes, e.baseCycles, e.pageCrossAddsCycle)) = some (3, 4, true) ∧
    (decodeEntry 0x9D).map (fun e => (e.bytes, e.baseCycles, e.pageCrossAddsCycle)) = some (3, 5, false) ∧
    (decodeEntry 0x00).map (fun e => (e.bytes, e.baseCycles, e.pageCrossAddsCycle)) = some (1, 7, false) := by decide

/-! ## One step: rows of 95_test_vectors.md -/

/-- The word placed by withFetchWord is the next one run. -/
theorem test_withFetchWord_runs_the_word :
    (after (State.reset.withFetchWord 16 0x05A9)).map (fun t => (t.a, t.pc)) = some (0x05, 0x0002) ∧
    (after (State.reset.withFetchWord 24 0x90004C)).map (fun t => t.pc) = some 0x9000 := by decide

/-- Row AM2. -/
theorem test_am2_zpX_wraps_in_page_zero :
    (after ({ code [0xB5, 0x80] [(0x007F, 0x11)] with x := 0xFF })).map (fun t => (t.a, t.bus)) =
      some (0x11, [.read 0x8000 0xB5, .read 0x8001 0x80, .read 0x007F 0x11]) := by decide

/-- Row AM5. -/
theorem test_am5_absX_wraps_at_0xFFFF :
    (after ({ code [0xBD, 0xFF, 0xFF] [(0x0000, 0x44)] with x := 0x01 })).map (fun t => (t.a, t.pc)) =
      some (0x44, 0x8003) := by decide

/-- Row AM6. -/
theorem test_am6_indX_pointer_wraps :
    (after ({ code [0xA1, 0xFE] [(0x00FF, 0x34), (0x0000, 0x12), (0x1234, 0x55)] with x := 0x01 })).map (fun t => (t.a, t.bus.drop 2)) =
      some (0x55, [.read 0x00FF 0x34, .read 0x0000 0x12, .read 0x1234 0x55]) := by decide

/-- Row AM8. -/
theorem test_am8_indY_pointer_wraps :
    (after ({ code [0xB1, 0xFF] [(0x00FF, 0x00), (0x0000, 0x30), (0x0100, 0x40), (0x3002, 0x66)] with y := 0x02 })).map (fun t => t.a) =
      some 0x66 := by decide

/-- Row AM10. -/
theorem test_am10_fetch_wraps :
    (after ({ code [] [(0xFFFE, 0xAD), (0xFFFF, 0x34), (0x0000, 0x12), (0x1234, 0x99)] with pc := 0xFFFE })).map (fun t => (t.a, t.pc)) =
      some (0x99, 0x0001) := by decide

/-- Row LS1. -/
theorem test_ls1_ldx :
    (after (code [0xA2, 0x88] [])).map (fun t => (t.x, getP t)) = some (0x88, 0xA4) := by decide

/-- Row AM3. -/
theorem test_am3_ldx_zpY :
    (after ({ code [0xB6, 0xF0] [(0x0010, 0x88)] with y := 0x20 })).map (fun t => (t.x, getP t)) =
      some (0x88, 0xA4) := by decide

/-- Row LS2. -/
theorem test_ls2_ldy :
    (after ({ code [0xA0, 0x00] [] with p := 0xA4 })).map (fun t => (t.y, getP t)) = some (0x00, 0x26) := by decide

/-- Row LS3. -/
theorem test_ls3_lda_keeps_c_and_v :
    (after ({ code [0xA9, 0x7F] [] with p := 0x65 })).map (fun t => (t.a, getP t)) = some (0x7F, 0x65) := by decide

/-- Row AM9. -/
theorem test_am9_sta_reads_no_data :
    (after ({ code [0x9D, 0x00, 0x02] [] with a := 0x5A, x := 0x03 })).map (fun t => t.bus.drop 3) =
      some [.write 0x0203 0x5A] := by decide

/-- Row LS6. -/
theorem test_ls6_sta_sets_no_flags :
    (after ({ code [0x85, 0x10] [(0x0010, 0x77)] with p := 0xA4 })).map (fun t => (readByte t.mem 0x0010, getP t)) =
      some (0x00, 0xA4) := by decide

/-- Row LS4. -/
theorem test_ls4_stx_zpY_wraps :
    (after ({ code [0x96, 0xFF] [] with x := 0x07, y := 0x01 })).map (fun t => (readByte t.mem 0x0000, getP t)) =
      some (0x07, 0x24) := by decide

/-- Row LS5. -/
theorem test_ls5_sty :
    (after ({ code [0x8C, 0x00, 0x02] [] with y := 0x09 })).map (fun t => readByte t.mem 0x0200) =
      some 0x09 := by decide

/-- Row TR1. -/
theorem test_tr1_tax :
    (after ({ code [0xAA] [] with a := 0x80 })).map (fun t => (t.x, getP t)) = some (0x80, 0xA4) := by decide

/-- Row TR2. -/
theorem test_tr2_tay :
    (after ({ code [0xA8] [] with a := 0x00 })).map (fun t => (t.y, getP t)) = some (0x00, 0x26) := by decide

/-- Row TR3. -/
theorem test_tr3_txa :
    (after ({ code [0x8A] [] with x := 0x01 })).map (fun t => (t.a, getP t)) = some (0x01, 0x24) := by decide

/-- Row TR4. -/
theorem test_tr4_tya :
    (after ({ code [0x98] [] with y := 0xFF })).map (fun t => (t.a, getP t)) = some (0xFF, 0xA4) := by decide

/-- Row TR6. -/
theorem test_tr6_tsx :
    (after ({ code [0xBA] [] with sp := 0x00 })).map (fun t => (t.x, getP t)) = some (0x00, 0x26) := by decide

/-- Row TR6. -/
theorem test_tr6_tsx_without_flags :
    (after ({ code [0xBA] [] with sp := 0x00, params := { State.reset.params with tsxSetsNz := false } })).map (fun t => (t.x, getP t)) =
      some (0x00, 0x24) := by decide

/-- Row TR8. -/
theorem test_tr8_txs :
    (after ({ code [0x9A] [] with x := 0xFF, p := 0xA4 })).map (fun t => (t.sp, getP t)) =
      some (0xFF, 0xA4) := by decide

/-- Row AD4. -/
theorem test_ad4_adc_overflows :
    (after ({ code [0x69, 0x01] [] with a := 0x7F })).map (fun t => (t.a, getP t)) = some (0x80, 0xE4) := by decide

/-- Row AD13. -/
theorem test_ad13_adc_is_binary :
    (after ({ code [0x69, 0x01] [] with a := 0x09, p := 0x2C })).map (fun t => (t.a, getP t)) =
      some (0x0A, 0x2C) := by decide

/-- Row SB1. -/
theorem test_sb1_sbc :
    (after ({ code [0xE9, 0x03] [] with a := 0x05, p := 0x25 })).map (fun t => (t.a, getP t)) =
      some (0x02, 0x25) := by decide

/-- Row SB5. -/
theorem test_sb5_sbc_overflows :
    (after ({ code [0xE9, 0x01] [] with a := 0x80, p := 0x25 })).map (fun t => (t.a, getP t)) =
      some (0x7F, 0x65) := by decide

/-- Row LG1. -/
theorem test_lg1_and :
    (after ({ code [0x29, 0x0F] [] with a := 0xF0, p := 0x65 })).map (fun t => (t.a, getP t)) =
      some (0x00, 0x67) := by decide

/-- Row LG4. -/
theorem test_lg4_ora :
    (after ({ code [0x09, 0x80] [] with a := 0x41, p := 0x65 })).map (fun t => (t.a, getP t)) =
      some (0xC1, 0xE5) := by decide

/-- Row LG6. -/
theorem test_lg6_eor :
    (after ({ code [0x49, 0xF0] [] with a := 0x0F, p := 0x65 })).map (fun t => (t.a, getP t)) =
      some (0xFF, 0xE5) := by decide

/-- Section 2.5, row 81 (C=1). -/
theorem test_shift_asl_of_0x81 :
    (after ({ code [0x0A] [] with a := 0x81, p := 0x25 })).map (fun t => (t.a, getP t)) =
      some (0x02, 0x25) := by decide

/-- Section 2.5, row 81 (C=1). -/
theorem test_shift_lsr_of_0x81 :
    (after ({ code [0x4A] [] with a := 0x81, p := 0x25 })).map (fun t => (t.a, getP t)) =
      some (0x40, 0x25) := by decide

/-- Section 2.5, row 81 (C=1). -/
theorem test_shift_rol_of_0x81 :
    (after ({ code [0x2A] [] with a := 0x81, p := 0x25 })).map (fun t => (t.a, getP t)) =
      some (0x03, 0x25) := by decide

/-- Section 2.5, row 81 (C=1). -/
theorem test_shift_ror_of_0x81 :
    (after ({ code [0x6A] [] with a := 0x81, p := 0x25 })).map (fun t => (t.a, getP t)) =
      some (0xC0, 0xA5) := by decide

/-- Row SH1. -/
theorem test_sh1_asl_memory :
    (after ({ code [0x06, 0x10] [(0x0010, 0xC1)] with a := 0x55 })).map (fun t => (t.a, getP t, t.bus.drop 2)) =
      some (0x55, 0xA5, [.read 0x0010 0xC1, .write 0x0010 0x82]) := by decide

/-- Row SH2. -/
theorem test_sh2_ror_memory :
    (after ({ code [0x7E, 0xFF, 0x10] [(0x1100, 0x01)] with x := 0x01, p := 0x25 })).map (fun t => (getP t, t.bus.drop 3)) =
      some (0xA5, [.read 0x1100 0x01, .write 0x1100 0x80]) := by decide

/-- Row CP2. -/
theorem test_cp2_cmp_less :
    (after ({ code [0xC9, 0x20] [] with a := 0x10, p := 0x64 })).map (fun t => (t.a, getP t)) =
      some (0x10, 0xE4) := by decide

/-- Row CP4. -/
theorem test_cp4_cmp_wraps :
    (after ({ code [0xC9, 0xFF] [] with a := 0x00, p := 0x64 })).map (fun t => (t.a, getP t)) =
      some (0x00, 0x64) := by decide

/-- Row CP7. -/
theorem test_cp7_cpx :
    (after ({ code [0xE0, 0x00] [] with x := 0x00, a := 0x07, p := 0x64 })).map (fun t => (t.x, getP t)) =
      some (0x00, 0x67) := by decide

/-- Row CP8. -/
theorem test_cp8_cpy :
    (after ({ code [0xC0, 0x80] [] with y := 0x7F, p := 0x64 })).map (fun t => (t.y, getP t)) =
      some (0x7F, 0xE4) := by decide

/-- Row BT2. -/
theorem test_bt2_bit :
    (after ({ code [0x24, 0x10] [(0x0010, 0xC0)] with a := 0x01, p := 0x25 })).map (fun t => (t.a, getP t)) =
      some (0x01, 0xE7) := by decide

/-- Row BT3. -/
theorem test_bt3_bit_clears_v :
    (after ({ code [0x24, 0x10] [(0x0010, 0x01)] with a := 0x0F, p := 0x65 })).map (fun t => getP t) =
      some 0x25 := by decide

/-- Row ID1. -/
theorem test_id1_inc_wraps :
    (after ({ code [0xE6, 0x10] [(0x0010, 0xFF)] with p := 0x25 })).map (fun t => (readByte t.mem 0x0010, getP t, t.bus.drop 2)) =
      some (0x00, 0x27, [.read 0x0010 0xFF, .write 0x0010 0x00]) := by decide

/-- Row ID3. -/
theorem test_id3_dec_wraps :
    (after ({ code [0xC6, 0x10] [] with p := 0x25 })).map (fun t => (readByte t.mem 0x0010, getP t)) =
      some (0xFF, 0xA5) := by decide

/-- Row ID5. -/
theorem test_id5_inx :
    (after ({ code [0xE8] [] with x := 0xFF, p := 0x25 })).map (fun t => (t.x, getP t)) =
      some (0x00, 0x27) := by decide

/-- Row ID6. -/
theorem test_id6_dex :
    (after ({ code [0xCA] [] with x := 0x00, p := 0x25 })).map (fun t => (t.x, getP t)) =
      some (0xFF, 0xA5) := by decide

/-- Row ID7. -/
theorem test_id7_iny :
    (after ({ code [0xC8] [] with y := 0x7F, p := 0x25 })).map (fun t => (t.y, getP t)) =
      some (0x80, 0xA5) := by decide

/-- Row ID8. -/
theorem test_id8_dey :
    (after ({ code [0x88] [] with y := 0x80, p := 0x25 })).map (fun t => (t.y, getP t)) =
      some (0x7F, 0x25) := by decide

/-- Row BR1. -/
theorem test_br1_beq_taken :
    (after ({ code [0xF0, 0x7F] [] with p := 0x26 })).map (fun t => (t.pc, getP t)) = some (0x8081, 0x26) := by decide

/-- Row BR2. -/
theorem test_br2_beq_not_taken :
    (after (code [0xF0, 0x7F] [])).map (fun t => t.pc) = some 0x8002 := by decide

/-- Row BR3. -/
theorem test_br3_bne_backward :
    (after (code [0xD0, 0x80] [])).map (fun t => t.pc) = some 0x7F82 := by decide

/-- Row BR4. -/
theorem test_br4_bcc_wraps_below_zero :
    (after ({ code [] [(0x0000, 0x90), (0x0001, 0xFD)] with pc := 0x0000 })).map (fun t => t.pc) =
      some 0xFFFF := by decide

/-- Row BR5. -/
theorem test_br5_bcs_wraps_above_0xFFFF :
    (after ({ code [] [(0xFFF0, 0xB0), (0xFFF1, 0x20)] with pc := 0xFFF0, p := 0x25 })).map (fun t => t.pc) =
      some 0x0012 := by decide

/-- Row BR6. -/
theorem test_br6_bpl_not_taken :
    (after ({ code [0x10, 0x10] [] with p := 0xA4 })).map (fun t => t.pc) = some 0x8002 := by decide

/-- Row BR7. -/
theorem test_br7_bmi_taken :
    (after ({ code [] [(0x80FD, 0x30), (0x80FE, 0x01)] with pc := 0x80FD, p := 0xA4 })).map (fun t => t.pc) =
      some 0x8100 := by decide

/-- Row BR8. -/
theorem test_br8_bvc_not_taken :
    (after ({ code [0x50, 0x05] [] with p := 0x64 })).map (fun t => t.pc) = some 0x8002 := by decide

/-- Row BR9. -/
theorem test_br9_bvs_taken :
    (after ({ code [0x70, 0x05] [] with p := 0x64 })).map (fun t => t.pc) = some 0x8007 := by decide

/-- Row FL1. -/
theorem test_fl1_clc :
    (after ({ code [0x18] [] with p := 0xFF })).map (fun t => (getP t, t.pc)) = some (0xFE, 0x8001) := by decide

/-- Row FL2. -/
theorem test_fl2_sec :
    (after ({ code [0x38] [] with p := 0x20 })).map (fun t => (getP t, t.pc)) = some (0x21, 0x8001) := by decide

/-- Row FL3. -/
theorem test_fl3_cli :
    (after ({ code [0x58] [] with p := 0x24 })).map (fun t => (getP t, t.pc)) = some (0x20, 0x8001) := by decide

/-- Row FL4. -/
theorem test_fl4_sei :
    (after ({ code [0x78] [] with p := 0x20 })).map (fun t => (getP t, t.pc)) = some (0x24, 0x8001) := by decide

/-- Row FL5. -/
theorem test_fl5_cld :
    (after ({ code [0xD8] [] with p := 0x2C })).map (fun t => (getP t, t.pc)) = some (0x24, 0x8001) := by decide

/-- Row FL6. -/
theorem test_fl6_sed :
    (after ({ code [0xF8] [] with p := 0x24 })).map (fun t => (getP t, t.pc)) = some (0x2C, 0x8001) := by decide

/-- Row FL7. -/
theorem test_fl7_clv :
    (after ({ code [0xB8] [] with p := 0xE4 })).map (fun t => (getP t, t.pc)) = some (0xA4, 0x8001) := by decide

/-- Row ST1. -/
theorem test_st1_pha_wraps :
    (after ({ code [0x48] [] with a := 0x42, sp := 0x00 })).map (fun t => (t.sp, t.bus.drop 1)) =
      some (0xFF, [.write 0x0100 0x42]) := by decide

/-- Row ST2. -/
theorem test_st2_pla :
    (after ({ code [0x68] [(0x0100, 0x80)] with sp := 0xFF })).map (fun t => (t.a, t.sp, getP t)) =
      some (0x80, 0x00, 0xA4) := by decide

/-- Row ST3. -/
theorem test_st3_php :
    (after ({ code [0x08] [] with p := 0xE7 })).map (fun t => (t.sp, getP t, t.bus.drop 1)) =
      some (0xFC, 0xE7, [.write 0x01FD 0xF7]) := by decide

/-- Row ST4. -/
theorem test_st4_plp_keeps_b :
    (after ({ code [0x28] [(0x01FD, 0x00)] with sp := 0xFC, p := 0x34 })).map (fun t => (t.sp, getP t)) =
      some (0xFD, 0x30) := by decide

/-- Row ST5. -/
theorem test_st5_plp_does_not_load_b :
    (after ({ code [0x28] [(0x01FD, 0xFF)] with sp := 0xFC, p := 0x24 })).map (fun t => getP t) =
      some 0xEF := by decide

/-- Row J1. -/
theorem test_j1_jsr :
    (after (code [0x20, 0x00, 0x90] [])).map (fun t => (t.pc, t.sp, t.bus.drop 3)) =
      some (0x9000, 0xFB, [.write 0x01FD 0x80, .write 0x01FC 0x02]) := by decide

/-- Row J2. -/
theorem test_j2_jsr_pushes_wrap :
    (after ({ code [0x20, 0x00, 0x90] [] with sp := 0x00 })).map (fun t => (t.pc, t.sp, t.bus.drop 3)) =
      some (0x9000, 0xFE, [.write 0x0100 0x80, .write 0x01FF 0x02]) := by decide

/-- Row J3. -/
theorem test_j3_rts_wraps :
    (after (code [0x60] [(0x01FE, 0xFF), (0x01FF, 0xFF)])).map (fun t => (t.pc, t.sp)) =
      some (0x0000, 0xFF) := by decide

/-- Row J4. -/
theorem test_j4_rti :
    (after ({ code [0x40] [(0x01FB, 0x03), (0x01FC, 0x00), (0x01FD, 0x90)] with sp := 0xFA })).map (fun t => (getP t, t.pc, t.sp)) =
      some (0x23, 0x9000, 0xFD) := by decide

/-- Row J5. -/
theorem test_j5_jmp_reads_no_data :
    (after (code [0x4C, 0x34, 0x12] [])).map (fun t => (t.pc, t.bus.length)) = some (0x1234, 3) := by decide

/-- Row AM12. -/
theorem test_am12_jmp_ind_wraps_in_its_page :
    (after (code [0x6C, 0xFF, 0x30] [(0x30FF, 0x80), (0x3000, 0x50), (0x3100, 0x60)])).map (fun t => (t.pc, t.bus.drop 3)) =
      some (0x5080, [.read 0x30FF 0x80, .read 0x3000 0x50]) := by decide

/-- Row AM12. -/
theorem test_am12_jmp_ind_without_page_wrap :
    (after ({ code [0x6C, 0xFF, 0x30] [(0x30FF, 0x80), (0x3000, 0x50), (0x3100, 0x60)] with params := { State.reset.params with jmpIndPageWrap := false } })).map (fun t => t.pc) =
      some 0x6080 := by decide

/-- Row K1. -/
theorem test_k1_brk_halts :
    (after (code [0x00] [])).map (fun t => (t.runState, getP t, t.pc, t.sp, t.bus)) =
      some (.halted, 0x34, 0x8000, 0xFD, [.read 0x8000 0x00]) := by decide

/-- Row K1. -/
theorem test_k1_brk_with_pc_advance :
    (after ({ code [0x00] [] with params := { State.reset.params with brkHaltPcAdvance := true } })).map (fun t => (t.runState, t.pc)) =
      some (.halted, 0x8001) := by decide

/-- Row K2. -/
theorem test_k2_nop :
    (after (code [0xEA] [])).map (fun t => (t.runState, t.pc, getP t)) = some (.running, 0x8001, 0x24) := by decide

/-- Row K3. -/
theorem test_k3_undocumented_byte_faults :
    (after (code [0xFF] [])).map (fun t => (t.runState, t.pc, getP t, t.bus)) =
      some (.faulted 0xFF 0x8000, 0x8000, 0x24, [.read 0x8000 0xFF]) := by decide

/-- Row K4. -/
theorem test_k4_jam_byte_faults :
    (after ({ code [0x02] [] with a := 0x01 })).map (fun t => (t.runState, t.a)) =
      some (.faulted 0x02 0x8000, 0x01) := by decide

/-- Row K5: nothing changes in Halted. -/
theorem test_k5_halted_does_not_step :
    after { code [0xE8] [] with runState := .halted } = some { code [0xE8] [] with runState := .halted } := by decide

/-- Section 1.1: the launch state of the six scenarios (10_state.md R55 with the loader of R261). -/
theorem test_launch_state :
    let t := launch Params.defaults [] [0xA9, 0x05, 0x00]
    (t.pc, t.sp, getP t, t.runState) = (0x8000, 0xFD, 0x24, .running) ∧
    t.bus = [.read 0xFFFC 0x00, .read 0xFFFD 0x80] ∧ readByte t.mem 0x8001 = 0x05 := by decide

/-- Rule R270 with row BR7: BMI taken across a page takes 4 cycles. -/
theorem test_cycles_of_a_branch_across_a_page :
    cycles (.bmi 0x01) { code [] [] with pc := 0x80FD, p := 0xA4 } = some 4 := by decide

/-- Rule R60's word operations, by the host: the low byte lies lower, and the addresses wrap. -/
theorem test_inspection_word_write_wraps :
    let t := inspectWriteWord 0xFFFF 0x1234 State.reset
    (inspectByte 0xFFFF t, inspectByte 0x0000 t, inspectWord 0xFFFF t) = (0x34, 0x12, 0x1234) := by decide

/-- The host's write between steps is seen by the next fetch: 0xEA over the BRK at PC makes it a NOP (rules R75, R252). -/
theorem test_inspection_write_is_fetched :
    (after (inspectWriteByte 0x8000 0xEA (code [0x00] []))).map (·.pc) = some 0x8001 := by decide

/-- BUS_READ is no stored byte: with 0xFF in it for an address, a read there still gives memory's byte (rule R63). -/
theorem test_bus_read_parameter_is_not_consulted :
    (busRead 0x0003 (withBusRead [(0x0000, 0xFF), (0x0003, 0xFF)] State.reset)).1 = 0x00 := by decide

/-! ## Witnesses: for each statement with hypotheses, states and operands that meet them -/

theorem witness_ResetLeavesTheResetValues :
    ({ State.reset with params := { State.reset.params with startPc := some 0xFFFF } } : State).params.startPc =
      some 0xFFFF ∧ State.reset.params.startPc = none := by decide

/-- A program at the default address, whose last byte is away from the vector, and an address outside it. -/
theorem witness_LaunchPlacesProgramAndVector :
    [0xA9, 0x05, 0x00].length ≤ 65536 ∧ ([0xA9, 0x05, 0x00] : List Byte)[2]? = some 0x00 ∧
    (0x8000 : Word) + BitVec.ofNat 16 2 ≠ 0xFFFC ∧ (0x8000 : Word) + BitVec.ofNat 16 2 ≠ 0xFFFD ∧
    (∀ k, k < 3 → (0x7FFF : Word) ≠ 0x8000 + BitVec.ofNat 16 k) := by decide

/-- Where the clauses meet: a program that runs over the vector and around the top of memory. The vector's two bytes are
the vector's, the program's others stand. -/
theorem witness_LaunchPlacesProgramAndVector_at_the_vector :
    let t := launch { Params.defaults with loadAddr := 0xFFFB } [] [0x11, 0x22, 0x33, 0x44, 0x55, 0x66]
    (readByte t.mem 0xFFFB, readByte t.mem 0xFFFC, readByte t.mem 0xFFFD) = (0x11, 0xFB, 0xFF) ∧
    (readByte t.mem 0xFFFE, readByte t.mem 0xFFFF, readByte t.mem 0x0000) = (0x44, 0x55, 0x66) ∧
    t.pc = 0xFFFB := by decide

theorem witness_LaunchMeetsTheInvariant : Memory.wf [(0x0000, 0x01), (0xFFFF, 0x02)] = true := by decide

/-- A running state at a BRK meets the invariant and steps. -/
theorem witness_EveryStepKeepsTheInvariant :
    ∃ t, Inv (code [0x00, 0x01] []) ∧ step (code [0x00, 0x01] []) = .next t ∧ t.runState = .halted :=
  ⟨_, ⟨by decide, by decide, by decide, trivial⟩, rfl, rfl⟩

/-- A faulted state meets it too. -/
theorem witness_EveryStepKeepsTheInvariant_faulted :
    ∃ t, Inv { code [0xFF] [] with runState := .faulted 0xFF 0x8000 } ∧
      step { code [0xFF] [] with runState := .faulted 0xFF 0x8000 } = .next t :=
  ⟨_, ⟨by decide, by decide, by decide, rfl, by decide, by decide⟩, rfl⟩

/-- Two canonical memories built in different orders read alike. -/
theorem witness_CanonicalMemoriesThatReadAlikeAreEqual :
    let m := writeByte (writeByte [] 0x0000 0x01) 0xFFFF 0x02
    let m' := writeByte (writeByte (writeByte [] 0xFFFF 0x03) 0x0000 0x01) 0xFFFF 0x02
    m.wf = true ∧ m'.wf = true ∧ ∀ a : Word, readByte m a.toNat = readByte m' a.toNat :=
  ⟨by decide, by decide, fun _ => rfl⟩

/-- An opcode byte at PC of each mode that a statement of the resolver speaks of, the last one at the top of memory. -/
theorem witness_FetchesOperands :
    (∃ e, decodeEntry (readByte (code [0xA5, 0x10] []).mem 0x8000) = some e ∧ e.mode = .zeroPage) ∧
    (∃ e, decodeEntry (readByte (code [0xB5, 0x10] []).mem 0x8000) = some e ∧ e.mode = .zeroPageX) ∧
    (∃ e, decodeEntry (readByte (code [0x96, 0xFF] []).mem 0x8000) = some e ∧ e.mode = .zeroPageY) ∧
    (∃ e, decodeEntry (readByte (code [0xBD, 0xF0, 0x12] []).mem 0x8000) = some e ∧ e.mode = .absoluteX) ∧
    (∃ e, decodeEntry (readByte (code [0x79, 0xF0, 0x12] []).mem 0x8000) = some e ∧ e.mode = .absoluteY) ∧
    (∃ e, decodeEntry (readByte (code [0xA1, 0xFE] []).mem 0x8000) = some e ∧ e.mode = .indirectX) ∧
    (∃ e, decodeEntry (readByte (code [0xB1, 0xFF] []).mem 0x8000) = some e ∧ e.mode = .indirectY) ∧
    (∃ e, decodeEntry (readByte (code [0xF0, 0x02] []).mem 0x8000) = some e ∧ e.mode = .relative) ∧
    (∃ e, decodeEntry (readByte (code [] [(0xFFFF, 0xAD)]).mem 0xFFFF) = some e ∧ e.mode = .absolute) :=
  ⟨⟨_, rfl, rfl⟩, ⟨_, rfl, rfl⟩, ⟨_, rfl, rfl⟩, ⟨_, rfl, rfl⟩, ⟨_, rfl, rfl⟩, ⟨_, rfl, rfl⟩, ⟨_, rfl, rfl⟩, ⟨_, rfl, rfl⟩,
    ⟨_, rfl, rfl⟩⟩

/-- BIT takes V from 0 to 1. -/
theorem witness_BitTestLoadsNAndVFromTheOperand :
    ∃ t, exec (.bit (.zp 0x10)) (code [] [(0x0010, 0x40)]) = .next t ∧ flag .v (code [] [(0x0010, 0x40)]) = false ∧
      flag .v t = true :=
  ⟨_, rfl, rfl, rfl⟩

theorem witness_RelativeTargetIsSignedFromTheAdvancedPc :
    (∃ e, decodeEntry 0xF0 = some e ∧ e.mode = .relative) ∧ (∃ e, decodeEntry 0x4C = some e ∧ e.mode ≠ .relative) :=
  ⟨⟨_, rfl, rfl⟩, ⟨_, rfl, by decide⟩⟩

theorem witness_TsxCopiesSpAndSetsZNByParameter :
    State.reset.params.tsxSetsNz = true ∧
    ({ State.reset with params := { State.reset.params with tsxSetsNz := false } } : State).params.tsxSetsNz = false := by
  decide

/-- Running at an undocumented byte. -/
theorem witness_IllegalOpcodeIsRecordedAndChangesNothing :
    (code [0x02] []).runState = .running ∧ readByte (code [0x02] []).mem (code [0x02] []).pc.toNat ∈ undocumentedOpcodes :=
  ⟨rfl, by decide⟩

/-- Three bytes around the top of memory decode (row AM10). -/
theorem witness_StepRunsTheDecodedInstruction :
    let s := { code [] [(0xFFFE, 0xAD), (0xFFFF, 0x34), (0x0000, 0x12)] with pc := 0xFFFE }
    s.runState = .running ∧ decode (bytesAtPc s) = .ok (.lda (.mem (.abs 0x1234)), []) := by decide

theorem witness_TerminalStatesDoNotStep :
    ({ State.reset with runState := .halted } : State).runState ≠ .running ∧
    ({ State.reset with runState := .faulted 0x02 0x0000 } : State).runState ≠ .running := by decide

/-- Each clause of the outcome at a byte next to another clause's: 0x00, 0x01 and 0x02. -/
theorem witness_TheOpcodeByteSelectsTheOutcome :
    (code [0x00] []).runState = .running ∧ readByte (code [0x00] []).mem 0x8000 = 0x00 ∧
    readByte (code [0x02] []).mem 0x8000 ∈ undocumentedOpcodes ∧
    readByte (code [0x01] []).mem 0x8000 ≠ 0x00 ∧ readByte (code [0x01] []).mem 0x8000 ∉ undocumentedOpcodes := by
  decide

/-- 0x00 is not undocumented: no byte falls under two clauses of the outcome. -/
theorem witness_TheOpcodeByteSelectsTheOutcome_clauses_exclude : (0x00 : Byte) ∉ undocumentedOpcodes := by decide

theorem witness_DecodeReturnsTheEncodedInstruction :
    Instr.wellFormed (.lda (.mem (.absX 0xFFFF))) = true ∧ Instr.wellFormed (.bcc 0xFF) = true ∧
    Instr.wellFormed (.ill 0xFF) = true := by decide

theorem witness_UndocumentedBytesAreTheIllRows :
    decodeEntry 0x02 = none ∧ ∃ e, decodeEntry 0x00 = some e := ⟨by decide, _, rfl⟩

theorem witness_OnlyControlTransfersRedirectPc :
    onlyAdvancesPc (.lda (.mem (.absX 0xFFFF))) = true ∧ onlyAdvancesPc .plp = true := by decide

/-- Two states that differ in I and D, and an instruction that is not PHP. -/
theorem witness_InterruptAndDecimalFlagsHaveNoEffect :
    (Instr.adc (.imm 0x01)) ≠ .php ∧ AgreeButID (code [0x69, 0x01] []) { code [0x69, 0x01] [] with p := 0x28 } :=
  ⟨by decide, rfl, rfl, rfl, rfl, rfl, rfl, rfl, rfl, rfl, by intro f; cases f <;> decide⟩

/-- A running state, and the state its step answers. -/
theorem witness_RunsOfStepsCompose :
    ∃ t, (code [0xEA] []).runState = .running ∧ step (code [0xEA] []) = .next t ∧ t.pc = 0x8001 :=
  ⟨_, rfl, rfl, rfl⟩

/-- A page-cross-sensitive row, one that is not, and rows of an instruction that is neither sensitive nor a branch. -/
theorem witness_CyclesOfIndexedReadsAndBranches :
    (∃ e, decodeEntry 0xBD = some e ∧ e.pageCrossAddsCycle = true) ∧
    (∃ e, Instr.opcode (.sta (.absX 0x12F0)) = some 0x9D ∧ decodeEntry 0x9D = some e ∧ e.pageCrossAddsCycle = false ∧
      e.mode ≠ .relative) :=
  ⟨⟨_, rfl, rfl⟩, ⟨_, rfl, rfl, rfl, by decide⟩⟩

/-- A running state that meets the invariant, and an address apart from a word at the top of memory. -/
theorem witness_InspectionPortShowsRegistersAndAccessesMemory :
    (code [0xEA] []).mem.wf = true ∧ (code [0xEA] []).runState = .running ∧ Inv (code [0xEA] []) ∧
    (0x0001 : Word) ≠ 0xFFFF ∧ (0x0001 : Word) ≠ 0xFFFF + 1 :=
  ⟨by decide, rfl, ⟨by decide, by decide, by decide, trivial⟩, by decide, by decide⟩

/-- Two different states with the same memory and parameters. -/
theorem witness_StartRestartsFromAnyState :
    let s' := { State.reset with a := 0x01, runState := .halted }
    s' ≠ State.reset ∧ s'.mem = State.reset.mem ∧ s'.params = State.reset.params := by decide

/-- The premises inside PLP's and RTI's flag clauses and the frames: a flag other than B, a register and a flag not
written, an address not stored to. -/
theorem witness_frames :
    Flag.c ≠ .b ∧ Reg.x ∉ writtenRegs (.lda (.imm 0x00)) ∧ Flag.v ∉ writtenFlags (.lda (.imm 0x00)) ∧
    (0x01FC : Word) ∉ storedAddrs .pha State.reset ∧ (0x01FD : Word) ∈ storedAddrs .pha State.reset := by decide

end Sys2Proof.Machine
end

section
/-! PROOF. The inspection port (00_scope.md R18, 60_exceptions.md R252): what its reads give after its writes, and the
invariant under a change of memory between two steps. -/

namespace Sys2Proof.Machine

/-- The host's byte read after its byte write (20_memory.md R60). -/
theorem inspectByte_inspectWriteByte (a b : Word) (v : Byte) (s : State) :
    inspectByte b (inspectWriteByte a v s) = if b = a then v else inspectByte b s :=
  readByte_writeByte_word s.mem a b v

/-- The host's byte read after its word write (R60, R61). -/
theorem inspectByte_inspectWriteWord (a b w : Word) (s : State) :
    inspectByte b (inspectWriteWord a w s) =
      if b = a + 1 then hiByte w else if b = a then loByte w else inspectByte b s :=
  readByte_writeWord s.mem a b w

/-- The host's word read as a number: little-endian, the second address modulo 65536 (R61, R64). -/
theorem inspectWord_toNat (a : Word) (s : State) :
    (inspectWord a s).toNat =
      (readByte s.mem ((a.toNat + 1) % 65536)).toNat * 256 + (readByte s.mem a.toNat).toNat := by
  have hnext : (a + 1).toNat = (a.toNat + 1) % 65536 := BitVec.toNat_add a 1
  simp only [inspectWord, inspectByte, busByte_eq, hiLo_toNat, hnext]

/-- The two addresses of a word are different ones, at 0xFFFF too. -/
theorem addr_ne_next (a : Word) : a ≠ a + 1 := by
  bv_omega

theorem inspectByte_inspectWriteWord_low (a w : Word) (s : State) :
    inspectByte a (inspectWriteWord a w s) = loByte w := by
  rw [inspectByte_inspectWriteWord, if_neg (addr_ne_next a), if_pos rfl]

theorem inspectByte_inspectWriteWord_high (a w : Word) (s : State) :
    inspectByte (a + 1) (inspectWriteWord a w s) = hiByte w := by
  rw [inspectByte_inspectWriteWord, if_pos rfl]

/-- The host reads back the word it has written, across 0xFFFF too. -/
theorem inspectWord_inspectWriteWord (a w : Word) (s : State) : inspectWord a (inspectWriteWord a w s) = w := by
  rw [inspectWord, inspectByte_inspectWriteWord_low, inspectByte_inspectWriteWord_high, hiLo_hiByte_loByte]

/-- While Running the invariant asks nothing of memory but the canonical form (StandsAtStop speaks of a stopped block),
so a change of memory that keeps this form keeps the invariant. -/
theorem inv_of_running_of_keeps_wf {s : State} {m : Memory} (hrun : s.runState = .running)
    (hm : s.mem.wf = true → m.wf = true) (h : Inv s) : Inv { s with mem := m } := by
  obtain ⟨hwf, hbit5, hbreak, -⟩ := h
  have hstands : StandsAtStop { s with mem := m } := by simp only [StandsAtStop, hrun]
  exact ⟨hm hwf, hbit5, hbreak, hstands⟩

end Sys2Proof.Machine

open Sys2Proof Sys2Proof.Machine

/-- Settles O58, by the read-after-write laws of the two writes and the invariant's independence, while Running, of
what canonical memory holds. -/
theorem inspectionPortShowsRegistersAndAccessesMemory :
    Obligations.InspectionPortShowsRegistersAndAccessesMemory := by
  unfold Obligations.InspectionPortShowsRegistersAndAccessesMemory
  refine ⟨fun s => ⟨rfl, getP_bit5 s⟩, fun a s => ⟨rfl, inspectWord_toNat a s⟩, fun a v s => ?byte, fun a w s => ?word⟩
  case byte =>
    have hwf : s.mem.wf = true → (inspectWriteByte a v s).mem.wf = true := fun h => wf_writeByte h a v
    exact ⟨fun b => inspectByte_inspectWriteByte a b v s, rfl, rfl, hwf,
      fun hrun => inv_of_running_of_keeps_wf hrun hwf⟩
  case word =>
    have hother : ∀ b, b ≠ a → b ≠ a + 1 → inspectByte b (inspectWriteWord a w s) = inspectByte b s := by
      intro b hlow hhigh
      rw [inspectByte_inspectWriteWord, if_neg hhigh, if_neg hlow]
    have hwf : s.mem.wf = true → (inspectWriteWord a w s).mem.wf = true := fun h => wf_writeWord h a w
    exact ⟨hother, inspectByte_inspectWriteWord_low a w s, inspectByte_inspectWriteWord_high a w s,
      inspectWord_inspectWriteWord a w s, rfl, rfl, hwf, fun hrun => inv_of_running_of_keeps_wf hrun hwf⟩
end

section
/-! PROOF. The parameter BUS_READ (00_scope.md R9, 92_eei_decisions.md D23): every operation of a step and the reset
commutes with a change of it, since every address is mapped. -/

namespace Sys2Proof.Machine

/-- A bus read gives the same byte and records the same transaction. -/
theorem busRead_withBusRead (a : Word) (f : Memory) (s : State) :
    busRead a (withBusRead f s) = ((busRead a s).1, withBusRead f (busRead a s).2) := rfl

theorem clearBus_withBusRead (f : Memory) (s : State) :
    clearBus (withBusRead f s) = withBusRead f (clearBus s) := rfl

theorem fetch_withBusRead (f : Memory) (s : State) :
    fetch (withBusRead f s) = ((fetch s).1, withBusRead f (fetch s).2) := by
  simp only [fetch, busRead_withBusRead, withBusRead_pc]
  rcases operandCount (busRead s.pc s).1 with _ | _ | n <;> rfl

theorem sourceValue_withBusRead (o : Source) (f : Memory) (s : State) :
    sourceValue o (withBusRead f s) = sourceValue o s := by
  cases o with
  | imm v => rfl
  | mem m => simp only [sourceValue, resolve_withBusRead, withBusRead_mem]

theorem targetValue_withBusRead (o : Target) (f : Memory) (s : State) :
    targetValue o (withBusRead f s) = targetValue o s := by
  cases o with
  | acc => rfl
  | mem m => simp only [targetValue, resolve_withBusRead, withBusRead_mem]

theorem branch_withBusRead (cond : Bool) (d : Byte) (f : Memory) (s : State) :
    branch cond d (withBusRead f s) = withBusRead f (branch cond d s) := by
  cases cond <;> rfl

/-- No instruction consults BUS_READ: with another value of it, each answers the same next state but for that value. -/
theorem exec_withBusRead (i : Instr) (f : Memory) (s : State) :
    ∃ t, exec i s = .next t ∧ exec i (withBusRead f s) = .next (withBusRead f t) := by
  cases i with
  | lda o | ldx o | ldy o | adc o | sbc o | and o | ora o | eor o | cmp o | cpx o | cpy o | bit m =>
    simp only [exec_lda, exec_ldx, exec_ldy, exec_adc, exec_sbc, exec_and, exec_ora, exec_eor, exec_cmp, exec_cpx,
      exec_cpy, exec_bit, sourceValue_withBusRead, loadSource_withBusRead, Host.Outcome.next.injEq, exists_eq_left']
    rfl
  | asl o | lsr o | rol o | ror o | inc m | dec m =>
    simp only [exec_asl, exec_lsr, exec_rol, exec_ror, exec_inc, exec_dec, flag_withBusRead, targetValue_withBusRead,
      modifyTarget_withBusRead, Host.Outcome.next.injEq, exists_eq_left']
    rfl
  | sta m | stx m | sty m => exact ⟨_, rfl, congrArg Host.Outcome.next (storeAt_withBusRead m _ f s)⟩
  | bcc d | bcs d | beq d | bne d | bmi d | bpl d | bvc d | bvs d =>
    exact ⟨_, rfl, congrArg Host.Outcome.next (branch_withBusRead _ d f s)⟩
  | jmp o => exact ⟨_, exec_jmp o s, by rw [exec_jmp, resolveJump_withBusRead]; rfl⟩
  | tsx =>
    refine ⟨_, exec_tsx s, ?_⟩
    rw [exec_tsx, withBusRead_params]
    cases s.params.tsxSetsNz <;> rfl
  | brk =>
    refine ⟨_, exec_brk s, ?_⟩
    rw [exec_brk, withBusRead_params]
    cases s.params.brkHaltPcAdvance <;> rfl
  | tax | tay | txa | tya | txs | inx | dex | iny | dey | clc | sec | cli | sei | cld | sed | clv | pha | pla | php | plp
  | jsr w | rts | rti | nop | ill op => exact ⟨_, rfl, rfl⟩

/-- A step from a state with another BUS_READ, in every run state. -/
theorem step_withBusRead (f : Memory) (s : State) :
    ∃ t, step s = .next t ∧ step (withBusRead f s) = .next (withBusRead f t) := by
  cases h : s.runState with
  | running =>
    simpa only [step, withBusRead_runState, h, clearBus_withBusRead, fetch_withBusRead] using
      exec_withBusRead (fetch (clearBus s)).1 f (fetch (clearBus s)).2
  | halted | faulted op addr => exact ⟨s, by simp only [step, h], by simp only [step, withBusRead_runState, h]⟩

theorem resetPc_withBusRead (f : Memory) (s : State) :
    resetPc (withBusRead f s) = ((resetPc s).1, withBusRead f (resetPc s).2) := by
  simp only [resetPc, withBusRead_params]
  cases s.params.startPc <;> rfl

theorem resetBlock_withBusRead (f : Memory) (s : State) :
    resetBlock (withBusRead f s) = withBusRead f (resetBlock s) := by
  simp only [resetBlock, clearBus_withBusRead, resetPc_withBusRead]
  rfl

end Sys2Proof.Machine

open Sys2Proof Sys2Proof.Machine

/-- Settles O59, by the commutation of the fetch, of every instruction and of the reset with a change of BUS_READ. -/
theorem unmappedReadValueIsNeverConsulted : Obligations.UnmappedReadValueIsNeverConsulted := by
  unfold Obligations.UnmappedReadValueIsNeverConsulted
  exact fun f s => ⟨fun a => busRead_value a (withBusRead f s), step_withBusRead f s, resetBlock_withBusRead f s⟩
end

section
/-! PROOF. The frame of an execution that runs on: which registers, flags and bytes may differ between two states, with
one rule per state operation, and the frame of every instruction (10_state.md R34, R50; 20_memory.md R67). -/

namespace Sys2Proof.Machine

theorem reg_setA_of_ne (v : Byte) (s : State) {r : Reg} (h : r ≠ .a) : reg r (setA v s) = reg r s := by
  cases r <;> trivial
theorem reg_setX_of_ne (v : Byte) (s : State) {r : Reg} (h : r ≠ .x) : reg r (setX v s) = reg r s := by
  cases r <;> trivial
theorem reg_setY_of_ne (v : Byte) (s : State) {r : Reg} (h : r ≠ .y) : reg r (setY v s) = reg r s := by
  cases r <;> trivial
theorem reg_setSp_of_ne (v : Byte) (s : State) {r : Reg} (h : r ≠ .sp) : reg r (setSp v s) = reg r s := by
  cases r <;> trivial

/-- From `s` to `t` only the named registers, flags and bytes may have changed, besides PC and the transaction list. The
run state and the parameters are the same, a bit 5 of P stored as 1 stays 1, and canonical memory stays canonical. -/
structure ChangesOnly (regs : List Reg) (flags : List Flag) (stored : List Word) (s t : State) : Prop where
  reg_eq : ∀ r, r ∉ regs → reg r t = reg r s
  flag_eq : ∀ f, f ∉ flags → flag f t = flag f s
  readByte_eq : ∀ a : Word, a ∉ stored → readByte t.mem a.toNat = readByte s.mem a.toNat
  params_eq : t.params = s.params
  runState_eq : t.runState = s.runState
  bit5 : s.p.getLsbD 5 = true → t.p.getLsbD 5 = true
  wf : s.mem.wf = true → t.mem.wf = true

namespace ChangesOnly

variable {regs : List Reg} {flags : List Flag} {stored : List Word} {s t u : State}

theorem refl (s : State) : ChangesOnly regs flags stored s s :=
  ⟨fun _ _ => rfl, fun _ _ => rfl, fun _ _ => rfl, rfl, rfl, id, id⟩

theorem trans (h : ChangesOnly regs flags stored s t) (h' : ChangesOnly regs flags stored t u) :
    ChangesOnly regs flags stored s u where
  reg_eq r hr := (h'.reg_eq r hr).trans (h.reg_eq r hr)
  flag_eq f hf := (h'.flag_eq f hf).trans (h.flag_eq f hf)
  readByte_eq a ha := (h'.readByte_eq a ha).trans (h.readByte_eq a ha)
  params_eq := h'.params_eq.trans h.params_eq
  runState_eq := h'.runState_eq.trans h.runState_eq
  bit5 := h'.bit5 ∘ h.bit5
  wf := h'.wf ∘ h.wf

theorem keepsAllBut (h : ChangesOnly regs flags stored s t) : KeepsAllBut regs flags stored s t :=
  ⟨h.reg_eq, h.flag_eq, getP_bit5 t, h.readByte_eq, h.params_eq⟩

/-- An operation on the registers alone: it leaves P, memory, the parameters and the run state as they are. -/
theorem of_regs (hreg : ∀ r, r ∉ regs → reg r u = reg r t) (hp : u.p = t.p) (hmem : u.mem = t.mem)
    (hparams : u.params = t.params) (hrun : u.runState = t.runState) : ChangesOnly regs flags stored t u where
  reg_eq := hreg
  flag_eq f _ := flag_congr hp f
  readByte_eq _ _ := by rw [hmem]
  params_eq := hparams
  runState_eq := hrun
  bit5 h := by rwa [hp]
  wf h := by rwa [hmem]

variable (h : ChangesOnly regs flags stored s t)
include h

/-! ## One rule per operation -/

theorem setA (v : Byte) (hr : .a ∈ regs) : ChangesOnly regs flags stored s (setA v t) :=
  h.trans (of_regs (fun _ hn => reg_setA_of_ne v t (ne_of_mem_of_not_mem hr hn).symm) rfl rfl rfl rfl)

theorem setX (v : Byte) (hr : .x ∈ regs) : ChangesOnly regs flags stored s (setX v t) :=
  h.trans (of_regs (fun _ hn => reg_setX_of_ne v t (ne_of_mem_of_not_mem hr hn).symm) rfl rfl rfl rfl)

theorem setY (v : Byte) (hr : .y ∈ regs) : ChangesOnly regs flags stored s (setY v t) :=
  h.trans (of_regs (fun _ hn => reg_setY_of_ne v t (ne_of_mem_of_not_mem hr hn).symm) rfl rfl rfl rfl)

theorem setSp (v : Byte) (hr : .sp ∈ regs) : ChangesOnly regs flags stored s (setSp v t) :=
  h.trans (of_regs (fun _ hn => reg_setSp_of_ne v t (ne_of_mem_of_not_mem hr hn).symm) rfl rfl rfl rfl)

theorem setPc (w : Word) : ChangesOnly regs flags stored s (setPc w t) :=
  h.trans (of_regs (fun r _ => reg_congr rfl rfl rfl rfl r) rfl rfl rfl rfl)

theorem advance (len : Word) : ChangesOnly regs flags stored s (advance len t) := h.setPc _

theorem busRead (a : Word) : ChangesOnly regs flags stored s (busRead a t).2 :=
  h.trans (of_regs (fun r _ => reg_congr rfl rfl rfl rfl r) rfl rfl rfl rfl)

theorem busWrite {a : Word} (v : Byte) (ha : a ∈ stored) : ChangesOnly regs flags stored s (busWrite a v t) :=
  h.trans {
    reg_eq := fun r _ => reg_congr rfl rfl rfl rfl r
    flag_eq := fun _ _ => rfl
    readByte_eq := fun b hb => by
      rw [busWrite_mem, readByte_writeByte_word, if_neg (ne_of_mem_of_not_mem ha hb).symm]
    params_eq := rfl
    runState_eq := rfl
    bit5 := id
    wf := fun hwf => wf_writeByte hwf a v }

/-- A write of P changes the flags the written byte changes. -/
theorem setP {v : Byte} (hv : ∀ f, f ∉ flags → v.getLsbD (flagBit f) = flag f t) :
    ChangesOnly regs flags stored s (setP v t) :=
  h.trans {
    reg_eq := fun r _ => reg_congr rfl rfl rfl rfl r
    flag_eq := fun f hf => (flag_setP f v t).trans (hv f hf)
    readByte_eq := fun _ _ => rfl
    params_eq := rfl
    runState_eq := rfl
    bit5 := fun _ => setP_bit5 v t
    wf := id }

theorem setFlag {f : Flag} (b : Bool) (hf : f ∈ flags) : ChangesOnly regs flags stored s (setFlag f b t) :=
  h.setP fun g hg => by
    rw [← flag_setP g _ t]
    exact flag_setFlag_ne (ne_of_mem_of_not_mem hf hg).symm b t

/-! ## The operations made of these -/

theorem setZN (v : Byte) (hf : [.n, .z] ⊆ flags) : ChangesOnly regs flags stored s (setZN v t) :=
  (h.setFlag _ (hf (by decide))).setFlag _ (hf (by decide))

theorem shiftFlags (out : Bool) (r : Byte) (hf : [.n, .z, .c] ⊆ flags) :
    ChangesOnly regs flags stored s (shiftFlags out r t) :=
  (h.setFlag out (hf (by decide))).setZN r (List.Subset.trans (by decide) hf)

theorem compareReg (r m : Byte) (hf : [.n, .z, .c] ⊆ flags) : ChangesOnly regs flags stored s (compareReg r m t) :=
  ((h.setFlag _ (hf (by decide))).setFlag _ (hf (by decide))).setFlag _ (hf (by decide))

theorem bitTest (m : Byte) (hf : [.n, .v, .z] ⊆ flags) : ChangesOnly regs flags stored s (bitTest m t) :=
  ((h.setFlag _ (hf (by decide))).setFlag _ (hf (by decide))).setFlag _ (hf (by decide))

theorem addToA (m : Byte) (hr : .a ∈ regs) (hf : [.n, .v, .z, .c] ⊆ flags) :
    ChangesOnly regs flags stored s (addToA m t) :=
  (((h.setA _ hr).setFlag _ (hf (by decide))).setFlag _ (hf (by decide))).setZN _ (List.Subset.trans (by decide) hf)

theorem logicToA (r : Byte) (hr : .a ∈ regs) (hf : [.n, .z] ⊆ flags) :
    ChangesOnly regs flags stored s (logicToA r t) :=
  (h.setA r hr).setZN r hf

theorem readPair (lo hi : Word) : ChangesOnly regs flags stored s (readPair lo hi t).2 :=
  (h.busRead lo).busRead hi

theorem resolve (m : Addr) : ChangesOnly regs flags stored s (resolve m t).2 := by
  cases m with
  | zp | zpX | zpY | abs | absX | absY => exact h
  | indX | indY => exact h.readPair _ _

theorem resolveJump (o : JumpOperand) : ChangesOnly regs flags stored s (resolveJump o t).2 := by
  cases o with
  | abs w => exact h
  | ind ptr => exact h.readPair _ _

theorem loadSource (o : Source) : ChangesOnly regs flags stored s (loadSource o t).2 := by
  cases o with
  | imm v => exact h.advance 2
  | mem m => exact ((h.resolve m).advance _).busRead _

theorem storeAt {m : Addr} (v : Byte) (ha : (Machine.resolve m t).1.ea ∈ stored) :
    ChangesOnly regs flags stored s (storeAt m v t) :=
  ((h.resolve m).advance _).busWrite v ha

theorem modifyAcc (f : Byte → Byte) (hr : .a ∈ regs) : ChangesOnly regs flags stored s (modifyTarget .acc f t).2 :=
  (h.advance 1).setA _ hr

theorem modifyMem {m : Addr} (f : Byte → Byte) (ha : (Machine.resolve m t).1.ea ∈ stored) :
    ChangesOnly regs flags stored s (modifyTarget (.mem m) f t).2 :=
  (((h.resolve m).advance _).busRead _).busWrite _ ha

theorem branch (cond : Bool) (d : Byte) : ChangesOnly regs flags stored s (branch cond d t) := by
  cases cond with
  | false => exact h.advance 2
  | true => exact (h.advance 2).setPc _

theorem push (v : Byte) (hr : .sp ∈ regs) (ha : stackAddr t.sp ∈ stored) :
    ChangesOnly regs flags stored s (push v t) :=
  (h.busWrite v ha).setSp _ hr

theorem pop (hr : .sp ∈ regs) : ChangesOnly regs flags stored s (pop t).2 :=
  (h.setSp _ hr).busRead _

theorem pullWord (hr : .sp ∈ regs) : ChangesOnly regs flags stored s (pullWord t).2 :=
  (h.pop hr).pop hr

/-- A pull of P changes every flag but B (49_stack_control.md R223). -/
theorem pullP (hr : .sp ∈ regs) (hf : [.n, .v, .d, .i, .z, .c] ⊆ flags) :
    ChangesOnly regs flags stored s (pullP t) :=
  (h.pop hr).setP fun f hn => by
    have hb : f = .b := by
      cases f with
      | b => rfl
      | c | z | i | d | v | n => exact absurd (hf (by decide)) hn
    subst hb
    exact pulledP_bit4 _ _

end ChangesOnly

/-- Every instruction but BRK and ILL runs on, within its rows of the tables of 10_state.md R34 and R50 and its stores
of 20_memory.md R67. -/
theorem exec_changesOnly {i : Instr} (hbrk : i ≠ .brk) (hill : ∀ op, i ≠ .ill op) (s : State) :
    ∃ t, exec i s = .next t ∧ ChangesOnly (writtenRegs i) (writtenFlags i) (storedAddrs i s) s t := by
  have start {regs flags stored} : ChangesOnly regs flags stored s s := .refl s
  have step1 {regs flags stored} : ChangesOnly regs flags stored s (advance 1 s) := start.advance 1
  cases i with
  | brk => exact absurd rfl hbrk
  | ill op => exact absurd rfl (hill op)
  | lda o => exact ⟨_, rfl, ((start.loadSource o).setA _ List.mem_cons_self).setZN _ (.refl _)⟩
  | ldx o => exact ⟨_, rfl, ((start.loadSource o).setX _ List.mem_cons_self).setZN _ (.refl _)⟩
  | ldy o => exact ⟨_, rfl, ((start.loadSource o).setY _ List.mem_cons_self).setZN _ (.refl _)⟩
  | sta m | stx m | sty m => exact ⟨_, rfl, start.storeAt _ List.mem_cons_self⟩
  | txa | tya => exact ⟨_, rfl, (step1.setA _ List.mem_cons_self).setZN _ (.refl _)⟩
  | tax | inx | dex => exact ⟨_, rfl, (step1.setX _ List.mem_cons_self).setZN _ (.refl _)⟩
  | tay | iny | dey => exact ⟨_, rfl, (step1.setY _ List.mem_cons_self).setZN _ (.refl _)⟩
  | tsx =>
    refine ⟨_, exec_tsx s, ?_⟩
    split_ifs
    · exact (step1.setX _ List.mem_cons_self).setZN _ (.refl _)
    · exact step1.setX _ List.mem_cons_self
  | txs => exact ⟨_, rfl, step1.setSp _ List.mem_cons_self⟩
  | adc o | sbc o => exact ⟨_, rfl, (start.loadSource o).addToA _ List.mem_cons_self (.refl _)⟩
  | and o | ora o | eor o => exact ⟨_, rfl, (start.loadSource o).logicToA _ List.mem_cons_self (.refl _)⟩
  | asl o | lsr o | rol o | ror o =>
    cases o with
    | acc => exact ⟨_, rfl, (start.modifyAcc _ List.mem_cons_self).shiftFlags _ _ (.refl _)⟩
    | mem m => exact ⟨_, rfl, (start.modifyMem _ List.mem_cons_self).shiftFlags _ _ (.refl _)⟩
  | cmp o | cpx o | cpy o => exact ⟨_, rfl, (start.loadSource o).compareReg _ _ (.refl _)⟩
  | bit m => exact ⟨_, rfl, (start.loadSource (.mem m)).bitTest _ (.refl _)⟩
  | inc m => exact ⟨_, exec_inc m s, (start.modifyMem _ List.mem_cons_self).setZN _ (.refl _)⟩
  | dec m => exact ⟨_, exec_dec m s, (start.modifyMem _ List.mem_cons_self).setZN _ (.refl _)⟩
  | bcc d | bcs d | beq d | bne d | bmi d | bpl d | bvc d | bvs d => exact ⟨_, rfl, start.branch _ d⟩
  | clc | sec | cli | sei | cld | sed | clv => exact ⟨_, rfl, step1.setFlag _ List.mem_cons_self⟩
  | pha | php => exact ⟨_, rfl, step1.push _ List.mem_cons_self List.mem_cons_self⟩
  | pla =>
    have hsp : .sp ∈ writtenRegs .pla := List.mem_cons_of_mem _ List.mem_cons_self
    exact ⟨_, rfl, ((step1.pop hsp).setA _ List.mem_cons_self).setZN _ (.refl _)⟩
  | plp => exact ⟨_, rfl, step1.pullP List.mem_cons_self (.refl _)⟩
  | jsr w =>
    exact ⟨_, rfl, (((start.advance 3).push _ List.mem_cons_self List.mem_cons_self).push _ List.mem_cons_self
      (List.mem_cons_of_mem _ List.mem_cons_self)).setPc w⟩
  | rts => exact ⟨_, rfl, (step1.pullWord List.mem_cons_self).setPc _⟩
  | rti => exact ⟨_, rfl, ((step1.pullP List.mem_cons_self (.refl _)).pullWord List.mem_cons_self).setPc _⟩
  | jmp o => exact ⟨_, rfl, ((start.resolveJump o).advance _).setPc _⟩
  | nop => exact ⟨_, rfl, step1⟩

/-- BRK up to its halt, and no further: B and PC (49_stack_control.md R228). -/
theorem changesOnly_before_halt (s : State) :
    ChangesOnly [] [.b] [] s
      (if s.params.brkHaltPcAdvance then advance 1 (setFlag .b true s) else setFlag .b true s) := by
  have hb : ChangesOnly [] [.b] [] s (setFlag .b true s) := (ChangesOnly.refl s).setFlag true List.mem_cons_self
  split_ifs
  · exact hb.advance 1
  · exact hb

/-- BRK, ILL, and the instructions after which the block runs on. -/
theorem brk_or_ill_or_runsOn (i : Instr) : i = .brk ∨ (∃ op, i = .ill op) ∨ (i ≠ .brk ∧ ∀ op, i ≠ .ill op) := by
  rw [← not_exists]
  tauto

end Sys2Proof.Machine

open Sys2Proof Sys2Proof.Machine

/-- Settles O51, by the frame of the instructions that run on; BRK's halt and ILL's fault write the run state alone. -/
theorem everyInstructionKeepsAllButItsTable : Obligations.EveryInstructionKeepsAllButItsTable := by
  unfold Obligations.EveryInstructionKeepsAllButItsTable
  intro i s
  obtain rfl | ⟨op, rfl⟩ | ⟨hbrk, hill⟩ := brk_or_ill_or_runsOn i
  · exact ⟨_, exec_brk s, (changesOnly_before_halt s).keepsAllBut⟩
  · exact ⟨_, exec_ill op s, (ChangesOnly.refl s).keepsAllBut⟩
  · obtain ⟨t, hexec, hframe⟩ := exec_changesOnly hbrk hill s
    exact ⟨t, hexec, hframe.keepsAllBut⟩
end

section
/-! PROOF. From an opcode byte to its instruction: every row of the table builds one, of the row's mnemonic
(30_encoding.md R85, R88). -/

namespace Sys2Proof.Machine

/-- Every row of R85 builds an instruction, whatever the operand bytes. -/
theorem rows_build (m : Mnemonic) (b1 b2 : Byte) :
    (m.opcodes.all fun p => (buildInstr m p.1 b1 b2).isSome) = true := by
  cases m <;> rfl

theorem buildInstr_mnemonic {m : Mnemonic} {k : Mode} {b1 b2 : Byte} {i : Instr} (h : buildInstr m k b1 b2 = some i) :
    i.mnemonic = some m := by
  cases m with
  | LDA | LDX | LDY | STA | STX | STY | ADC | SBC | AND | ORA | EOR | ASL | LSR | ROL | ROR | CMP | CPX | CPY | BIT
  | INC | DEC | JMP =>
    obtain ⟨o, -, rfl⟩ := Option.map_eq_some_iff.mp h
    rfl
  | TAX | TAY | TXA | TYA | TSX | TXS | INX | DEX | INY | DEY | BCC | BCS | BEQ | BNE | BMI | BPL | BVC | BVS
  | CLC | SEC | CLI | SEI | CLD | SED | CLV | PHA | PLA | PHP | PLP | JSR | RTS | RTI | BRK | NOP =>
    obtain rfl := Option.some.inj h
    rfl

/-- The grid's row of an opcode byte is a row of R85. -/
theorem mem_opcodes_of_decodeEntry {op : Byte} {e : DecodeEntry} (h : decodeEntry op = some e) :
    (e.mode, op) ∈ e.mnemonic.opcodes := by
  have hcell : tableCell op = some (e.mnemonic, e.mode) := by rw [tableCell, h, Option.map_some]
  obtain ⟨p, hp, hswap⟩ := List.mem_map.mp ((hasRows_opcodes e.mnemonic op e.mode).mp hcell)
  obtain ⟨rfl, hmode⟩ := Prod.mk.inj hswap
  exact hmode ▸ hp

theorem assemble_of_none {op : Byte} (h : decodeEntry op = none) (b1 b2 : Byte) : assemble op b1 b2 = .ill op := by
  rw [assemble, h]

/-- A documented byte gives the instruction its row builds. -/
theorem buildInstr_eq_assemble {op : Byte} {e : DecodeEntry} (h : decodeEntry op = some e) (b1 b2 : Byte) :
    buildInstr e.mnemonic e.mode b1 b2 = some (assemble op b1 b2) := by
  have hbuilds := List.all_eq_true.mp (rows_build e.mnemonic b1 b2) _ (mem_opcodes_of_decodeEntry h)
  obtain ⟨i, hi⟩ := Option.isSome_iff_exists.mp hbuilds
  simp only [assemble, h, hi, Option.getD_some]

theorem assemble_mnemonic (op b1 b2 : Byte) :
    (assemble op b1 b2).mnemonic = (decodeEntry op).map DecodeEntry.mnemonic := by
  cases h : decodeEntry op with
  | none => rw [assemble_of_none h]; rfl
  | some e => exact buildInstr_mnemonic (buildInstr_eq_assemble h b1 b2)

/-- Only the byte 0x00 gives BRK. -/
theorem opcode_of_assemble_brk {op b1 b2 : Byte} (h : assemble op b1 b2 = .brk) : op = 0x00 := by
  have hm := assemble_mnemonic op b1 b2
  rw [h] at hm
  obtain ⟨e, he, hbrk⟩ := Option.map_eq_some_iff.mp hm.symm
  have hmem := mem_opcodes_of_decodeEntry he
  rw [hbrk] at hmem
  exact (Prod.mk.inj (List.mem_singleton.mp hmem)).2

/-- Only an undocumented byte gives ILL, with that byte (R88). -/
theorem opcode_of_assemble_ill {op b1 b2 op' : Byte} (h : assemble op b1 b2 = .ill op') :
    op = op' ∧ op' ∈ undocumentedOpcodes := by
  have hm := assemble_mnemonic op b1 b2
  rw [h] at hm
  have hnone : decodeEntry op = none := Option.map_eq_none_iff.mp hm.symm
  obtain rfl : op = op' := Instr.ill.inj ((assemble_of_none hnone b1 b2).symm.trans h)
  exact ⟨rfl, mem_undocumented_of_none hnone⟩

end Sys2Proof.Machine
end

section
/-! PROOF. The machine invariant over one step (10_state.md R41, R47; 49_stack_control.md R228; 60_exceptions.md R241,
R244): the fetch leaves it alone, and each of the three ways an instruction ends keeps it. -/

namespace Sys2Proof.Machine

/-- A running block that runs on keeps the invariant: B is in none of its flags. -/
theorem inv_of_changesOnly {regs : List Reg} {flags : List Flag} {stored : List Word} {s t : State}
    (hframe : ChangesOnly regs flags stored s t) (hb : .b ∉ flags) (hrun : s.runState = .running) (hinv : Inv s) :
    Inv t := by
  obtain ⟨hwf, hbit5, hbreak, -⟩ := hinv
  have hrun' : t.runState = .running := hframe.runState_eq.trans hrun
  refine ⟨hframe.wf hwf, hframe.bit5 hbit5, ?_, ?_⟩
  · rw [hframe.flag_eq .b hb, hframe.runState_eq]
    exact hbreak
  · simp only [StandsAtStop, hrun']

/-- BRK alone writes B (10_state.md R50). -/
theorem b_not_written {i : Instr} (hbrk : i ≠ .brk) : .b ∉ writtenFlags i := by
  cases i with
  | brk => exact absurd rfl hbrk
  | _ => simp [writtenFlags]

/-- BRK's halt at its own byte keeps the invariant, under both values of `BRK_HALT_PC_ADVANCE` (R228). -/
theorem inv_after_brk {s t : State} (hinv : Inv s) (hbyte : readByte s.mem s.pc.toNat = 0x00)
    (hexec : exec .brk s = .next t) : Inv t := by
  obtain ⟨hwf, hbit5, -, -⟩ := hinv
  obtain rfl := Host.Outcome.next.inj ((exec_brk s).symm.trans hexec)
  have hframe := changesOnly_before_halt s
  refine ⟨hframe.wf hwf, hframe.bit5 hbit5, ?_, ?_⟩
  · cases s.params.brkHaltPcAdvance <;> simp
  · cases hadv : s.params.brkHaltPcAdvance <;> simp [StandsAtStop, hadv, hbyte]

/-- ILL's fault at its own byte keeps the invariant (R241). -/
theorem inv_after_ill {s t : State} {op : Byte} (hrun : s.runState = .running) (hinv : Inv s)
    (hbyte : readByte s.mem s.pc.toNat = op) (hop : op ∈ undocumentedOpcodes) (hexec : exec (.ill op) s = .next t) :
    Inv t := by
  obtain ⟨hwf, hbit5, hbreak, -⟩ := hinv
  obtain rfl := Host.Outcome.next.inj ((exec_ill op s).symm.trans hexec)
  have hclear : flag .b s ≠ true := by simp [hbreak, hrun]
  refine ⟨hwf, hbit5, ?_, rfl, hbyte, hop⟩
  simpa using hclear

theorem step_of_running {s : State} (hrun : s.runState = .running) :
    step s = exec (fetch (clearBus s)).1 (fetch (clearBus s)).2 := by
  simp only [step, hrun]

/-- A stopped block does not step (R244). -/
theorem step_of_stopped {s : State} (hstop : s.runState ≠ .running) : step s = .next s := by
  unfold step
  split
  · next hrun => exact absurd hrun hstop
  · rfl
  · rfl

/-- The instruction of the byte at PC keeps the invariant of a running block. -/
theorem inv_after_exec {s t : State} {b1 b2 : Byte} (hrun : s.runState = .running) (hinv : Inv s)
    (hexec : exec (assemble (readByte s.mem s.pc.toNat) b1 b2) s = .next t) : Inv t := by
  obtain hi | ⟨op, hi⟩ | ⟨hbrk, hill⟩ := brk_or_ill_or_runsOn (assemble (readByte s.mem s.pc.toNat) b1 b2)
  · rw [hi] at hexec
    exact inv_after_brk hinv (opcode_of_assemble_brk hi) hexec
  · rw [hi] at hexec
    obtain ⟨hbyte, hop⟩ := opcode_of_assemble_ill hi
    exact inv_after_ill hrun hinv hbyte hop hexec
  · obtain ⟨t', hexec', hframe⟩ := exec_changesOnly hbrk hill s
    obtain rfl := Host.Outcome.next.inj (hexec'.symm.trans hexec)
    exact inv_of_changesOnly hframe (b_not_written hbrk) hrun hinv

end Sys2Proof.Machine

open Sys2Proof Sys2Proof.Machine

/-- Settles O5, by the three ends of an instruction (it runs on, BRK halts, ILL faults); a stopped block does not
step. -/
theorem everyStepKeepsTheInvariant : Obligations.EveryStepKeepsTheInvariant := by
  unfold Obligations.EveryStepKeepsTheInvariant
  intro s t hinv hstep
  by_cases hrun : s.runState = .running
  · obtain ⟨b1, b2, bus, hfetch⟩ := fetch_clearBus s
    rw [step_of_running hrun, hfetch] at hstep
    exact inv_after_exec (s := { s with bus := bus }) hrun hinv hstep
  · rw [step_of_stopped hrun] at hstep
    exact Host.Outcome.next.inj hstep ▸ hinv

/-- Settles O3: the base case of the invariant's induction. -/
theorem resetMeetsTheInvariant : Obligations.ResetMeetsTheInvariant := by
  unfold Obligations.ResetMeetsTheInvariant
  exact ⟨reset_mem_wf, by decide, by decide, trivial⟩
end

section
/-! PROOF. Noninterference of I and D (10_state.md R45, R46; 92_eei_decisions.md D12, D17): two states that agree but
for I and D differ in the byte P alone; the operations that leave P alone commute with a change of it, and those that
write P take no flag from I or D. -/

namespace Sys2Proof.Machine

/-- A state with another byte in P. -/
def withP (q : Byte) (s : State) : State := { s with p := q }

@[simp] theorem withP_a (q : Byte) (s : State) : (withP q s).a = s.a := rfl
@[simp] theorem withP_x (q : Byte) (s : State) : (withP q s).x = s.x := rfl
@[simp] theorem withP_y (q : Byte) (s : State) : (withP q s).y = s.y := rfl
@[simp] theorem withP_p (q : Byte) (s : State) : (withP q s).p = q := rfl
@[simp] theorem withP_mem (q : Byte) (s : State) : (withP q s).mem = s.mem := rfl
@[simp] theorem withP_params (q : Byte) (s : State) : (withP q s).params = s.params := rfl

/-! ## The operand accesses commute with a change of P -/

theorem resolve_withP (m : Addr) (q : Byte) (s : State) :
    resolve m (withP q s) = ((resolve m s).1, withP q (resolve m s).2) := by
  cases m <;> rfl

theorem resolveJump_withP (o : JumpOperand) (q : Byte) (s : State) :
    resolveJump o (withP q s) = ((resolveJump o s).1, withP q (resolveJump o s).2) := by
  cases o <;> rfl

theorem sourceValue_withP (o : Source) (q : Byte) (s : State) : sourceValue o (withP q s) = sourceValue o s := by
  cases o with
  | imm v => rfl
  | mem m => simp only [sourceValue, resolve_withP, withP_mem]

theorem targetValue_withP (o : Target) (q : Byte) (s : State) : targetValue o (withP q s) = targetValue o s := by
  cases o with
  | acc => rfl
  | mem m => simp only [targetValue, resolve_withP, withP_mem]

theorem loadSource_withP (o : Source) (q : Byte) (s : State) :
    loadSource o (withP q s) = ((loadSource o s).1, withP q (loadSource o s).2) := by
  cases o with
  | imm v => rfl
  | mem m => simp only [loadSource, resolve_withP]; rfl

theorem storeAt_withP (m : Addr) (v q : Byte) (s : State) :
    storeAt m v (withP q s) = withP q (storeAt m v s) := by
  simp only [storeAt, resolve_withP]; rfl

theorem modifyTarget_withP (o : Target) (g : Byte → Byte) (q : Byte) (s : State) :
    modifyTarget o g (withP q s) = ((modifyTarget o g s).1, withP q (modifyTarget o g s).2) := by
  cases o with
  | acc => rfl
  | mem m => simp only [modifyTarget, resolve_withP]; rfl

theorem branch_withP (cond : Bool) (d q : Byte) (s : State) :
    branch cond d (withP q s) = withP q (branch cond d s) := by
  cases cond <;> rfl

@[simp] theorem branch_p (cond : Bool) (d : Byte) (s : State) : (branch cond d s).p = s.p := by
  cases cond <;> rfl

/-! ## One rule per operation -/

namespace AgreeButID

variable {s t t' u : State} {q : Byte}

/-- States that agree but for I and D differ in P alone. -/
theorem exists_withP (h : AgreeButID t t') : ∃ q, t' = withP q t := by
  obtain ⟨ha, hx, hy, hsp, hpc, hrun, hmem, hbus, hparams, -⟩ := h
  refine ⟨t'.p, ?_⟩
  rw [withP, ← ha, ← hx, ← hy, ← hsp, ← hpc, ← hrun, ← hmem, ← hbus, ← hparams]

theorem flag_eq (h : AgreeButID t t') {f : Flag} (hi : f ≠ .i) (hd : f ≠ .d) : flag f t' = flag f t := by
  obtain ⟨-, -, -, -, -, -, -, -, -, hflag⟩ := h
  exact hflag f hi hd

theorem a_eq (h : AgreeButID t t') : t'.a = t.a := h.1

/-- Agreement depends on the two bytes in P alone. -/
theorem lift (h : AgreeButID s (withP q s)) (hp : u.p = s.p) : AgreeButID u (withP q u) :=
  ⟨rfl, rfl, rfl, rfl, rfl, rfl, rfl, rfl, rfl, fun f hi hd => by
    rw [flag_congr hp f, ← h.flag_eq hi hd]
    exact flag_congr rfl f⟩

/-- An operation that commutes with every change of P keeps the agreement. -/
theorem map {op : State → State} (hop : ∀ q s, op (withP q s) = withP q (op s)) (h : AgreeButID t t') :
    AgreeButID (op t) (op t') := by
  obtain ⟨q, rfl⟩ := h.exists_withP
  have hp : (op t).p = t.p := by
    change (op (withP t.p t)).p = t.p
    rw [hop, withP_p]
  rw [hop]
  exact h.lift hp

/-- Two writes of P whose bytes agree but for I and D. -/
theorem setP {v v' : Byte} (h : AgreeButID t t')
    (hv : ∀ f, f ≠ .i → f ≠ .d → v'.getLsbD (flagBit f) = v.getLsbD (flagBit f)) :
    AgreeButID (setP v t) (setP v' t') := by
  obtain ⟨ha, hx, hy, hsp, hpc, hrun, hmem, hbus, hparams, -⟩ := h
  refine ⟨ha, hx, hy, hsp, hpc, hrun, hmem, hbus, hparams, fun f hi hd => ?_⟩
  rw [flag_setP, flag_setP]
  exact hv f hi hd

theorem setFlag (f : Flag) (b : Bool) (h : AgreeButID t t') : AgreeButID (setFlag f b t) (setFlag f b t') :=
  h.setP fun g hi hd => by
    rw [← flag_setP g _ t, ← flag_setP g _ t']
    refine (flag_setFlag g f b t').trans (Eq.trans ?_ (flag_setFlag g f b t).symm)
    rw [h.flag_eq hi hd]

theorem setZN (v : Byte) (h : AgreeButID t t') : AgreeButID (setZN v t) (setZN v t') :=
  (h.setFlag .z _).setFlag .n _

theorem shiftFlags (out : Bool) (r : Byte) (h : AgreeButID t t') :
    AgreeButID (shiftFlags out r t) (shiftFlags out r t') :=
  (h.setFlag .c out).setZN r

theorem compareReg (r m : Byte) (h : AgreeButID t t') : AgreeButID (compareReg r m t) (compareReg r m t') :=
  ((h.setFlag .c _).setFlag .z _).setFlag .n _

theorem bitTest (m : Byte) (h : AgreeButID t t') : AgreeButID (bitTest m t) (bitTest m t') := by
  simp only [Machine.bitTest, h.a_eq]
  exact ((h.setFlag .z _).setFlag .n _).setFlag .v _

theorem logicToA (r : Byte) (h : AgreeButID t t') : AgreeButID (logicToA r t) (logicToA r t') :=
  (h.map (op := setA r) fun _ _ => rfl).setZN r

/-- The sum takes the carry, and D is not read (D17). -/
theorem addToA (m : Byte) (h : AgreeButID t t') : AgreeButID (addToA m t) (addToA m t') := by
  have hc : flag .c t' = flag .c t := h.flag_eq (by decide) (by decide)
  simp only [Machine.addToA, h.a_eq, hc]
  exact (((h.map (op := setA _) fun _ _ => rfl).setFlag .c _).setFlag .v _).setZN _

/-- A pull takes every flag but B from the stack (49_stack_control.md R223). -/
theorem pullP (h : AgreeButID t t') : AgreeButID (pullP t) (pullP t') := by
  obtain ⟨q, rfl⟩ := h.exists_withP
  have hpop : AgreeButID (pop t).2 (pop (withP q t)).2 := h.map (op := fun s => (pop s).2) fun _ _ => rfl
  refine hpop.setP fun f hi hd => ?_
  by_cases hb : f = .b
  · subst hb
    exact (pulledP_bit4 _ _).trans ((h.flag_eq hi hd).trans (pulledP_bit4 _ _).symm)
  · exact (pulledP_flag _ _ hb).trans (pulledP_flag _ _ hb).symm

end AgreeButID

/-! ## The instructions -/

/-- Two outcomes that are next states which agree but for I and D. -/
def NextAgree (o o' : Host.Outcome State Fault Refusal) : Prop :=
  ∃ t t', o = .next t ∧ o' = .next t' ∧ AgreeButID t t'

theorem NextAgree.intro {t t' : State} (h : AgreeButID t t') : NextAgree (.next t) (.next t') :=
  ⟨t, t', rfl, rfl, h⟩

/-- Every instruction but PHP, which pushes I and D, keeps the agreement. -/
theorem exec_nextAgree {i : Instr} (hphp : i ≠ .php) {s : State} {q : Byte} (h : AgreeButID s (withP q s)) :
    NextAgree (exec i s) (exec i (withP q s)) := by
  have hc : flag .c (withP q s) = flag .c s := h.flag_eq (by decide) (by decide)
  have hz : flag .z (withP q s) = flag .z s := h.flag_eq (by decide) (by decide)
  have hv : flag .v (withP q s) = flag .v s := h.flag_eq (by decide) (by decide)
  have hn : flag .n (withP q s) = flag .n s := h.flag_eq (by decide) (by decide)
  have step1 : AgreeButID (advance 1 s) (advance 1 (withP q s)) := h.lift rfl
  cases i with
  | php => exact absurd rfl hphp
  | lda o | ldx o | ldy o =>
    simp only [exec_lda, exec_ldx, exec_ldy, sourceValue_withP, loadSource_withP]
    exact .intro (AgreeButID.setZN _ (h.lift (loadSource_p o s)))
  | sta m | stx m | sty m =>
    simp only [exec_sta, exec_stx, exec_sty, withP_a, withP_x, withP_y, storeAt_withP]
    exact .intro (h.lift (storeAt_p m _ s))
  | adc o | sbc o =>
    simp only [exec_adc, exec_sbc, sourceValue_withP, loadSource_withP]
    exact .intro (AgreeButID.addToA _ (h.lift (loadSource_p o s)))
  | and o | ora o | eor o =>
    simp only [exec_and, exec_ora, exec_eor, withP_a, sourceValue_withP, loadSource_withP]
    exact .intro (AgreeButID.logicToA _ (h.lift (loadSource_p o s)))
  | cmp o | cpx o | cpy o =>
    simp only [exec_cmp, exec_cpx, exec_cpy, withP_a, withP_x, withP_y, sourceValue_withP, loadSource_withP]
    exact .intro (AgreeButID.compareReg _ _ (h.lift (loadSource_p o s)))
  | bit m =>
    simp only [exec_bit, sourceValue_withP, loadSource_withP]
    exact .intro (AgreeButID.bitTest _ (h.lift (loadSource_p _ s)))
  | asl o | lsr o | rol o | ror o =>
    simp only [exec_asl, exec_lsr, exec_rol, exec_ror, hc, targetValue_withP, modifyTarget_withP]
    exact .intro (AgreeButID.shiftFlags _ _ (h.lift (modifyTarget_p o _ s)))
  | inc m | dec m =>
    simp only [exec_inc, exec_dec, targetValue_withP, modifyTarget_withP]
    exact .intro (AgreeButID.setZN _ (h.lift (modifyTarget_p _ _ s)))
  | bcc d | bcs d | beq d | bne d | bmi d | bpl d | bvc d | bvs d =>
    simp only [exec_bcc, exec_bcs, exec_beq, exec_bne, exec_bmi, exec_bpl, exec_bvc, exec_bvs, hc, hz, hv, hn,
      branch_withP]
    exact .intro (h.lift (branch_p _ d s))
  | jmp o =>
    simp only [exec_jmp, resolveJump_withP]
    exact .intro (h.lift (resolveJump_p o s))
  | tax | tay | txa | tya | inx | dex | iny | dey | pla => exact .intro (AgreeButID.setZN _ (h.lift rfl))
  | tsx =>
    rw [exec_tsx, exec_tsx, withP_params]
    split_ifs
    · exact .intro (AgreeButID.setZN _ (h.lift rfl))
    · exact .intro (h.lift rfl)
  | clc | sec | cli | sei | cld | sed | clv => exact .intro (step1.setFlag _ _)
  | plp => exact .intro step1.pullP
  | rti => exact .intro (step1.pullP.map (op := fun u => setPc (pullWord u).1 (pullWord u).2) fun _ _ => rfl)
  | brk =>
    rw [exec_brk, exec_brk, withP_params]
    have hb := h.setFlag .b true
    split_ifs
    · exact .intro (hb.map (op := fun u => halt (advance 1 u)) fun _ _ => rfl)
    · exact .intro (hb.map (op := halt) fun _ _ => rfl)
  | jsr w =>
    rw [exec_jsr, exec_jsr]
    exact .intro (h.lift (by simp))
  | txs | pha | rts | nop | ill op => exact .intro (h.lift rfl)

end Sys2Proof.Machine

open Sys2Proof Sys2Proof.Machine

/-- Settles O54: the two states differ in P alone, and no instruction but PHP takes anything from I or D. -/
theorem interruptAndDecimalFlagsHaveNoEffect : Obligations.InterruptAndDecimalFlagsHaveNoEffect := by
  unfold Obligations.InterruptAndDecimalFlagsHaveNoEffect
  intro i s s' hphp h
  obtain ⟨q, rfl⟩ := h.exists_withP
  exact exec_nextAgree hphp h
end

section
/-! PROOF. The laws of memory as the bus shows it: a read gives the latest write (20_memory.md R72), a 16-bit read is
two byte reads, low byte first (R61, R64, R65), and the canonical form is determined by what memory reads as (R62). -/

namespace Sys2Proof.Machine

/-! ## 16-bit reads -/

/-- `MemRead(a, 2)` gives the word the host's `read_u16` gives (20_memory.md R60, R61). -/
theorem memRead16_value_eq_inspectWord (a : Word) (s : State) : (memRead16 a s).1 = inspectWord a s := rfl

/-- A pair of reads changes the transaction list alone. -/
theorem readPair_state (lo hi : Word) (s : State) :
    (readPair lo hi s).2 = { s with
      bus := s.bus ++ [.read lo (readByte s.mem lo.toNat), .read hi (readByte s.mem hi.toNat)] } := by
  rw [← readPair_bus]
  rfl

/-- The pointer in page 0 as a number: little-endian, the second address modulo 256 (R65). -/
theorem zpRead16_toNat (z : Byte) (s : State) :
    (zpRead16 z s).1.toNat =
      (readByte s.mem ((z.toNat + 1) % 256)).toNat * 256 + (readByte s.mem z.toNat).toNat := by
  have hnext : (z + 1).toNat = (z.toNat + 1) % 256 := BitVec.toNat_add z 1
  simp only [zpRead16_value, hiLo_toNat, zext_toNat, hnext]

/-! ## The canonical form -/

theorem canonicalFrom_cons {low k : Nat} {v : Byte} {rest : Memory} :
    canonicalFrom low ((k, v) :: rest) = true ↔
      low ≤ k ∧ k < memSize ∧ v ≠ unlistedByte ∧ canonicalFrom (k + 1) rest = true := by
  simp only [canonicalFrom, Bool.and_eq_true, decide_eq_true_eq, and_assoc]

@[simp] theorem readByte_cons_self (k : Nat) (v : Byte) (rest : Memory) : readByte ((k, v) :: rest) k = v :=
  if_pos rfl

theorem readByte_cons_of_ne {k a : Nat} (h : k ≠ a) (v : Byte) (rest : Memory) :
    readByte ((k, v) :: rest) a = readByte rest a :=
  if_neg h

/-- Two memories give the same byte at every address of the address space. -/
def ReadAlike (m m' : Memory) : Prop := ∀ a, a < memSize → readByte m a = readByte m' a

theorem ReadAlike.symm {m m' : Memory} (h : ReadAlike m m') : ReadAlike m' m := fun a ha => (h a ha).symm

/-- The first listed byte is not what an unlisted one reads as, so a canonical memory that reads alike starts no later
than it. -/
theorem ReadAlike.le_first {low low' k : Nat} {v : Byte} {rest m' : Memory} (h : ReadAlike ((k, v) :: rest) m')
    (hm : canonicalFrom low ((k, v) :: rest) = true) (hm' : canonicalFrom low' m' = true) : low' ≤ k := by
  obtain ⟨-, hk, hv, -⟩ := canonicalFrom_cons.mp hm
  by_contra hlt
  have hread : v = readByte m' k := by simpa using h k hk
  exact hv (hread.trans (readByte_below hm' (by omega)))

/-- The tails behind one common first entry read alike as well: at its address both read as unlisted. -/
theorem ReadAlike.tail {k : Nat} {v v' : Byte} {rest rest' : Memory}
    (h : ReadAlike ((k, v) :: rest) ((k, v') :: rest')) (hr : canonicalFrom (k + 1) rest = true)
    (hr' : canonicalFrom (k + 1) rest' = true) : ReadAlike rest rest' := by
  intro a ha
  by_cases hka : k = a
  · subst hka
    rw [readByte_below hr k.lt_succ_self, readByte_below hr' k.lt_succ_self]
  · simpa only [readByte_cons_of_ne hka] using h a ha

/-- The canonical form is determined by the bytes read (20_memory.md R62). -/
theorem ReadAlike.eq_of_canonicalFrom {low low' : Nat} {m m' : Memory} (h : ReadAlike m m')
    (hm : canonicalFrom low m = true) (hm' : canonicalFrom low' m' = true) : m = m' := by
  induction m generalizing low low' m' with
  | nil =>
    cases m' with
    | nil => rfl
    | cons head' rest' =>
      have hle : head'.1 + 1 ≤ head'.1 := h.symm.le_first hm' rfl
      omega
  | cons head rest ih =>
    obtain ⟨k, v⟩ := head
    cases m' with
    | nil =>
      have hle : k + 1 ≤ k := h.le_first hm rfl
      omega
    | cons head' rest' =>
      obtain ⟨k', v'⟩ := head'
      obtain ⟨-, hk, hv, hrest⟩ := canonicalFrom_cons.mp hm
      obtain ⟨-, hk', hv', hrest'⟩ := canonicalFrom_cons.mp hm'
      have hle : k' ≤ k := h.le_first hm (canonicalFrom_cons.mpr ⟨le_rfl, hk', hv', hrest'⟩)
      have hge : k ≤ k' := h.symm.le_first hm' (canonicalFrom_cons.mpr ⟨le_rfl, hk, hv, hrest⟩)
      obtain rfl : k = k' := le_antisymm hge hle
      obtain rfl : v = v' := by simpa using h k hk
      rw [ih (h.tail hrest hrest') hrest hrest']

end Sys2Proof.Machine

open Sys2Proof Sys2Proof.Machine

/-- Settles O6, by the read-after-write law of the byte array. -/
theorem readGivesTheLatestWrite : Obligations.ReadGivesTheLatestWrite := by
  unfold Obligations.ReadGivesTheLatestWrite
  intro a b v s
  rw [busRead_value, busRead_value, busWrite_mem, readByte_writeByte_word]

/-- Settles O7: the first entries agree, and the tails behind them read alike. -/
theorem canonicalMemoriesThatReadAlikeAreEqual : Obligations.CanonicalMemoriesThatReadAlikeAreEqual := by
  unfold Obligations.CanonicalMemoriesThatReadAlikeAreEqual
  intro m m' hm hm' hread
  have halike : ReadAlike m m' := by
    intro a ha
    simpa only [BitVec.toNat_ofNat, Nat.mod_eq_of_lt (show a < 2 ^ 16 from ha)] using hread (BitVec.ofNat 16 a)
  exact halike.eq_of_canonicalFrom hm hm'

/-- Settles O8, by the value of each pair of reads as a number and what the pair leaves. -/
theorem pairReadsAreLittleEndian : Obligations.PairReadsAreLittleEndian := by
  unfold Obligations.PairReadsAreLittleEndian
  refine ⟨fun a s => ⟨?_, readPair_state a (a + 1) s⟩, zpRead16_toNat⟩
  rw [memRead16_value_eq_inspectWord, inspectWord_toNat]
end

section
/-! PROOF. The transactions of an instruction after its fetch (20_memory.md R66 to R68): one rule per state operation,
and the rows of R67 for every instruction. -/

namespace Sys2Proof.Machine

/-- From `s` to `t` the block makes exactly these accesses, in order, and they account for memory: each read gives the
byte held at that point, and the memory of `t` is the one the writes leave. -/
def Transacts (accs : List Access) (s t : State) : Prop :=
  ∃ l, t.bus = s.bus ++ l ∧ l.map BusEvent.access = accs ∧ replay l s.mem = some t.mem

namespace Transacts

variable {accs accs' : List Access} {s t u : State}

theorem refl (s : State) : Transacts [] s s := ⟨[], (List.append_nil _).symm, rfl, rfl⟩

theorem trans (h : Transacts accs s t) (h' : Transacts accs' t u) : Transacts (accs ++ accs') s u := by
  obtain ⟨l, hbus, hacc, hmem⟩ := h
  obtain ⟨l', hbus', hacc', hmem'⟩ := h'
  refine ⟨l ++ l', ?_, ?_, ?_⟩
  · rw [hbus', hbus, List.append_assoc]
  · rw [List.map_append, hacc, hacc']
  · rw [replay_append, hmem, Option.bind_some, hmem']

/-- An operation that leaves the transaction list and memory alone makes no access. -/
theorem quiet (h : Transacts accs s t) (hbus : u.bus = t.bus) (hmem : u.mem = t.mem) : Transacts accs s u := by
  unfold Transacts
  rwa [hbus, hmem]

/-! ## One rule per operation -/

theorem busRead (a : Word) (s : State) : Transacts [.read a] s (busRead a s).2 :=
  ⟨[.read a (readByte s.mem a.toNat)], rfl, rfl, if_pos rfl⟩

theorem busWrite (a : Word) (v : Byte) (s : State) : Transacts [.write a] s (busWrite a v s) :=
  ⟨[.write a v], rfl, rfl, rfl⟩

theorem readPair (lo hi : Word) (s : State) : Transacts [.read lo, .read hi] s (readPair lo hi s).2 :=
  (busRead lo s).trans (busRead hi _)

theorem push (v : Byte) (s : State) : Transacts [.write (stackAddr s.sp)] s (push v s) :=
  (busWrite (stackAddr s.sp) v s).quiet rfl rfl

theorem pop (s : State) : Transacts [.read (stackAddr (s.sp + 1))] s (pop s).2 :=
  busRead (stackAddr (s.sp + 1)) (setSp (s.sp + 1) s)

theorem pullP (s : State) : Transacts [.read (stackAddr (s.sp + 1))] s (pullP s) := (pop s).quiet rfl rfl

theorem pullWord (s : State) :
    Transacts [.read (stackAddr (s.sp + 1)), .read (stackAddr (s.sp + 2))] s (pullWord s).2 := by
  have hsp : s.sp + 2 = s.sp + 1 + 1 := by rw [BitVec.add_assoc]; rfl
  rw [hsp]
  exact (pop s).trans (pop (Machine.pop s).2)

theorem branch (cond : Bool) (d : Byte) (s : State) : Transacts [] s (branch cond d s) := by
  cases cond <;> exact refl s

theorem loadSource (o : Source) (s : State) : Transacts (sourceAccesses o s) s (loadSource o s).2 := by
  obtain ⟨l, hbus, hacc, hmem⟩ := loadSource_bus o s
  exact ⟨l, hbus, hacc, by rw [hmem, loadSource_mem]⟩

theorem storeAt (m : Addr) (v : Byte) (s : State) :
    Transacts (pointerReads m s ++ [.write (resolve m s).1.ea]) s (storeAt m v s) :=
  storeAt_bus m v s

theorem modifyTarget (o : Target) (f : Byte → Byte) (s : State) :
    Transacts (targetAccesses o s) s (modifyTarget o f s).2 :=
  modifyTarget_bus o f s

end Transacts

/-- Every instruction makes the accesses of its row of R67 (20_memory.md), and no other. -/
theorem exec_transacts (i : Instr) (s : State) : ∃ t, exec i s = .next t ∧ Transacts (accesses i s) s t := by
  have none1 : Transacts [] s (advance 1 s) := (Transacts.refl s).quiet rfl rfl
  cases i with
  | lda o | ldx o | ldy o | adc o | sbc o | and o | ora o | eor o | cmp o | cpx o | cpy o =>
    exact ⟨_, rfl, (Transacts.loadSource o s).quiet rfl rfl⟩
  | bit m => exact ⟨_, rfl, (Transacts.loadSource (.mem m) s).quiet rfl rfl⟩
  | sta m | stx m | sty m => exact ⟨_, rfl, Transacts.storeAt m _ s⟩
  | asl o | lsr o | rol o | ror o => exact ⟨_, rfl, (Transacts.modifyTarget o _ s).quiet rfl rfl⟩
  | inc m => exact ⟨_, exec_inc m s, (Transacts.modifyTarget (.mem m) (· + 1) s).quiet rfl rfl⟩
  | dec m => exact ⟨_, exec_dec m s, (Transacts.modifyTarget (.mem m) (· - 1) s).quiet rfl rfl⟩
  | tax | tay | txa | tya | txs | inx | dex | iny | dey | clc | sec | cli | sei | cld | sed | clv | nop | ill op =>
    exact ⟨_, rfl, none1.quiet rfl rfl⟩
  | tsx =>
    refine ⟨_, exec_tsx s, ?_⟩
    split_ifs <;> exact none1.quiet rfl rfl
  | brk =>
    refine ⟨_, exec_brk s, ?_⟩
    split_ifs <;> exact none1.quiet rfl rfl
  | bcc d | bcs d | beq d | bne d | bmi d | bpl d | bvc d | bvs d => exact ⟨_, rfl, Transacts.branch _ d s⟩
  | pha | php => exact ⟨_, rfl, none1.trans (Transacts.push _ _)⟩
  | pla => exact ⟨_, rfl, (none1.trans (Transacts.pop _)).quiet rfl rfl⟩
  | plp => exact ⟨_, rfl, none1.trans (Transacts.pullP _)⟩
  | jsr w =>
    have none3 : Transacts [] s (advance 3 s) := (Transacts.refl s).quiet rfl rfl
    exact ⟨_, rfl, ((none3.trans (Transacts.push _ _)).trans (Transacts.push _ _)).quiet rfl rfl⟩
  | rts => exact ⟨_, rfl, (none1.trans (Transacts.pullWord _)).quiet rfl rfl⟩
  | rti =>
    have h := (none1.trans (Transacts.pullP _)).trans (Transacts.pullWord _)
    simp only [pullP_sp, advance_sp, BitVec.add_assoc] at h
    exact ⟨_, rfl, h.quiet rfl rfl⟩
  | jmp o =>
    cases o with
    | abs w => exact ⟨_, rfl, (Transacts.refl s).quiet rfl rfl⟩
    | ind ptr => exact ⟨_, rfl, (Transacts.readPair ptr _ s).quiet rfl rfl⟩

end Sys2Proof.Machine

open Sys2Proof Sys2Proof.Machine

/-- Settles O53, by the accesses of each state operation, composed for every instruction. -/
theorem transactionsAccountForMemory : Obligations.TransactionsAccountForMemory := by
  unfold Obligations.TransactionsAccountForMemory
  intro i s
  obtain ⟨t, hexec, l, htransacts⟩ := exec_transacts i s
  exact ⟨t, l, hexec, htransacts⟩
end

section
/-! PROOF. The encoding as one round trip (30_encoding.md R80 to R90): an operand and its bytes determine each other, so
do a row of R85 with its operand bytes and the instruction they build; decode and encode are read off from that. -/

namespace Sys2Proof.Machine

/-! ## Operand bytes -/

/-- The operand bytes that a mode takes of two bytes after the opcode byte, low byte first (30_encoding.md R81, R82). -/
def operandBytesOf (k : Mode) (b1 b2 : Byte) : List Byte := [b1, b2].take (k.length - 1)

/-- A mode's length in bytes is 1, 2 or 3, its operand bytes and the opcode byte (R81, R90). -/
theorem length_operandBytesOf (k : Mode) (b1 b2 : Byte) :
    (operandBytesOf k b1 b2).length + 1 = k.length ∧ k.length ≤ 3 := by
  cases k <;> exact ⟨rfl, by decide⟩

/-- A word is `hi:lo` exactly when these are its two bytes (00_scope.md R12). -/
theorem hiLo_eq_iff {hi lo : Byte} {w : Word} : hiLo hi lo = w ↔ [loByte w, hiByte w] = [lo, hi] := by
  constructor
  · rintro rfl
    rw [loByte_hiLo, hiByte_hiLo]
  · intro h
    obtain ⟨rfl, rfl⟩ : loByte w = lo ∧ hiByte w = hi := by simpa using h
    exact hiLo_hiByte_loByte w

/-- A mode and its operand bytes give a memory operand exactly when that operand has this mode and these bytes. -/
theorem addrOf_eq_some_iff {k : Mode} {b1 b2 : Byte} {m : Addr} :
    addrOf k b1 b2 = some m ↔ m.mode = k ∧ m.bytes = operandBytesOf k b1 b2 := by
  constructor
  · intro h
    cases k with
    | implied | accumulator | immediate | relative | indirect => nomatch h
    | zeroPage | zeroPageX | zeroPageY | indirectX | indirectY =>
      obtain rfl := Option.some.inj h
      exact ⟨rfl, rfl⟩
    | absolute | absoluteX | absoluteY =>
      obtain rfl := Option.some.inj h
      exact ⟨rfl, hiLo_eq_iff.mp rfl⟩
  · rintro ⟨rfl, h⟩
    cases m with
    | zp z | zpX z | zpY z | indX z | indY z =>
      obtain rfl := List.singleton_inj.mp h
      rfl
    | abs w | absX w | absY w =>
      obtain rfl := hiLo_eq_iff.mpr h
      rfl

theorem sourceOf_eq_some_iff {k : Mode} {b1 b2 : Byte} {o : Source} :
    sourceOf k b1 b2 = some o ↔ o.mode = k ∧ o.bytes = operandBytesOf k b1 b2 := by
  by_cases hk : k = .immediate
  · subst hk
    cases o with
    | imm v => simp [sourceOf, Source.mode, Source.bytes, operandBytesOf, Mode.length, eq_comm]
    | mem m => cases m <;> simp [sourceOf, Source.mode, Addr.mode]
  · cases o with
    | imm v => simp [sourceOf, hk, Source.mode, Ne.symm hk]
    | mem m => simp [sourceOf, hk, addrOf_eq_some_iff, Source.mode, Source.bytes]

theorem targetOf_eq_some_iff {k : Mode} {b1 b2 : Byte} {o : Target} :
    targetOf k b1 b2 = some o ↔ o.mode = k ∧ o.bytes = operandBytesOf k b1 b2 := by
  by_cases hk : k = .accumulator
  · subst hk
    cases o with
    | acc => simp [targetOf, Target.mode, Target.bytes, operandBytesOf, Mode.length]
    | mem m => cases m <;> simp [targetOf, Target.mode, Addr.mode]
  · cases o with
    | acc => simp [targetOf, hk, Target.mode, Ne.symm hk]
    | mem m => simp [targetOf, hk, addrOf_eq_some_iff, Target.mode, Target.bytes]

theorem jumpOperandOf_eq_some_iff {k : Mode} {b1 b2 : Byte} {o : JumpOperand} :
    jumpOperandOf k b1 b2 = some o ↔ o.mode = k ∧ Instr.operandBytes (.jmp o) = operandBytesOf k b1 b2 := by
  constructor
  · intro h
    unfold jumpOperandOf at h
    split_ifs at h with hind habs <;> obtain rfl := Option.some.inj h
    · exact ⟨hind.symm, hind ▸ hiLo_eq_iff.mp rfl⟩
    · exact ⟨habs.symm, habs ▸ hiLo_eq_iff.mp rfl⟩
  · rintro ⟨rfl, h⟩
    cases o with
    | abs w | ind w =>
      obtain rfl := hiLo_eq_iff.mpr h
      rfl

/-! ## Rows and instructions -/

/-- The rows of R85 are one for each mode of the mnemonic's rule. -/
theorem perm_modes (m : Mnemonic) : (m.opcodes.map Prod.fst).Perm m.modes := by
  cases m <;> decide

theorem opcodeFor_of_mem (m : Mnemonic) : ∀ p ∈ m.opcodes, opcodeFor m p.1 = some p.2 := by
  cases m <;> decide

theorem mem_modes_iff {m : Mnemonic} {k : Mode} : k ∈ m.modes ↔ ∃ op, (k, op) ∈ m.opcodes := by
  simp [← (perm_modes m).mem_iff]

/-- The grid gives the entry of a row of R85 at its byte. -/
theorem decodeEntry_of_mem_opcodes {m : Mnemonic} {k : Mode} {op : Byte} (h : (k, op) ∈ m.opcodes) :
    ∃ e, decodeEntry op = some e ∧ e.mnemonic = m ∧ e.mode = k := by
  obtain ⟨e, he, hcell⟩ := Option.map_eq_some_iff.mp (tableCell_of_mem_opcodes m _ h)
  obtain ⟨hm, hk⟩ := Prod.mk.inj hcell
  exact ⟨e, he, hm, hk⟩

/-- An entry names its own byte and has the length of its mode (R84). -/
theorem decodeEntry_opcode_bytes {op : Byte} {e : DecodeEntry} (h : decodeEntry op = some e) :
    e.opcode = op ∧ e.bytes = e.mode.length := by
  unfold decodeEntry at h
  split at h
  · nomatch h
  · obtain rfl := Option.some.inj h
    exact ⟨rfl, rfl⟩

/-- An instruction of a mnemonic and a mode is well formed exactly when the mnemonic's rule lists the mode. -/
theorem wellFormed_iff {i : Instr} {m : Mnemonic} {k : Mode} (hm : i.mnemonic = some m) (hk : i.mode = some k) :
    i.wellFormed = true ↔ k ∈ m.modes := by
  cases i with
  | ill op => nomatch hm
  | lda o | ldx o | ldy o | sta o | stx o | sty o | adc o | sbc o | and o | ora o | eor o | asl o | lsr o | rol o
  | ror o | cmp o | cpx o | cpy o | bit o | inc o | dec o | jmp o =>
    obtain rfl := Option.some.inj hm
    obtain rfl := Option.some.inj hk
    exact List.contains_iff_mem
  | tax | tay | txa | tya | tsx | txs | inx | dex | iny | dey | bcc d | bcs d | beq d | bne d | bmi d | bpl d | bvc d
  | bvs d | clc | sec | cli | sei | cld | sed | clv | pha | pla | php | plp | jsr w | rts | rti | brk | nop =>
    obtain rfl := Option.some.inj hm
    obtain rfl := Option.some.inj hk
    exact iff_of_true rfl (List.mem_singleton_self _)

theorem opcode_eq_opcodeFor {i : Instr} {m : Mnemonic} {k : Mode} (hm : i.mnemonic = some m) (hk : i.mode = some k) :
    i.opcode = opcodeFor m k := by
  cases i with
  | ill op => nomatch hm
  | _ => simp [Instr.opcode, hm, hk]

/-- A row's instruction has the mode of the row, and the operand bytes it was built from. -/
theorem mode_operandBytes_of_buildInstr {m : Mnemonic} {k : Mode} {b1 b2 : Byte} {i : Instr} (hrow : k ∈ m.modes)
    (h : buildInstr m k b1 b2 = some i) : i.mode = some k ∧ i.operandBytes = operandBytesOf k b1 b2 := by
  cases m with
  | LDA | LDX | LDY | ADC | SBC | AND | ORA | EOR | CMP | CPX | CPY =>
    obtain ⟨o, ho, rfl⟩ := Option.map_eq_some_iff.mp h
    exact (sourceOf_eq_some_iff.mp ho).imp_left (congrArg some)
  | STA | STX | STY | BIT | INC | DEC =>
    obtain ⟨o, ho, rfl⟩ := Option.map_eq_some_iff.mp h
    exact (addrOf_eq_some_iff.mp ho).imp_left (congrArg some)
  | ASL | LSR | ROL | ROR =>
    obtain ⟨o, ho, rfl⟩ := Option.map_eq_some_iff.mp h
    exact (targetOf_eq_some_iff.mp ho).imp_left (congrArg some)
  | JMP =>
    obtain ⟨o, ho, rfl⟩ := Option.map_eq_some_iff.mp h
    exact (jumpOperandOf_eq_some_iff.mp ho).imp_left (congrArg some)
  | JSR =>
    obtain rfl := List.mem_singleton.mp hrow
    obtain rfl := Option.some.inj h
    exact ⟨rfl, hiLo_eq_iff.mp rfl⟩
  | TAX | TAY | TXA | TYA | TSX | TXS | INX | DEX | INY | DEY | BCC | BCS | BEQ | BNE | BMI | BPL | BVC | BVS
  | CLC | SEC | CLI | SEI | CLD | SED | CLV | PHA | PLA | PHP | PLP | RTS | RTI | BRK | NOP =>
    obtain rfl := List.mem_singleton.mp hrow
    obtain rfl := Option.some.inj h
    exact ⟨rfl, rfl⟩

/-- An instruction is built again from its mnemonic, its mode and its operand bytes. -/
theorem buildInstr_of_operandBytes {m : Mnemonic} {k : Mode} {b1 b2 : Byte} {i : Instr} (hm : i.mnemonic = some m)
    (hk : i.mode = some k) (hbytes : i.operandBytes = operandBytesOf k b1 b2) : buildInstr m k b1 b2 = some i := by
  cases i with
  | ill op => nomatch hm
  | lda o | ldx o | ldy o | adc o | sbc o | and o | ora o | eor o | cmp o | cpx o | cpy o =>
    obtain rfl := Option.some.inj hm
    exact Option.map_eq_some_iff.mpr ⟨o, sourceOf_eq_some_iff.mpr ⟨Option.some.inj hk, hbytes⟩, rfl⟩
  | sta o | stx o | sty o | bit o | inc o | dec o =>
    obtain rfl := Option.some.inj hm
    exact Option.map_eq_some_iff.mpr ⟨o, addrOf_eq_some_iff.mpr ⟨Option.some.inj hk, hbytes⟩, rfl⟩
  | asl o | lsr o | rol o | ror o =>
    obtain rfl := Option.some.inj hm
    exact Option.map_eq_some_iff.mpr ⟨o, targetOf_eq_some_iff.mpr ⟨Option.some.inj hk, hbytes⟩, rfl⟩
  | jmp o =>
    obtain rfl := Option.some.inj hm
    exact Option.map_eq_some_iff.mpr ⟨o, jumpOperandOf_eq_some_iff.mpr ⟨Option.some.inj hk, hbytes⟩, rfl⟩
  | jsr w =>
    obtain rfl := Option.some.inj hm
    obtain rfl := Option.some.inj hk
    obtain rfl := hiLo_eq_iff.mpr hbytes
    rfl
  | bcc d | bcs d | beq d | bne d | bmi d | bpl d | bvc d | bvs d =>
    obtain rfl := Option.some.inj hm
    obtain rfl := Option.some.inj hk
    obtain rfl := List.singleton_inj.mp hbytes
    rfl
  | tax | tay | txa | tya | tsx | txs | inx | dex | iny | dey | clc | sec | cli | sei | cld | sed | clv | pha | pla | php
  | plp | rts | rti | brk | nop =>
    obtain rfl := Option.some.inj hm
    rfl

/-- A row's instruction is the one with the row's mnemonic, its mode and the given operand bytes (R82, R85). -/
theorem buildInstr_eq_some_iff {m : Mnemonic} {k : Mode} {b1 b2 : Byte} {i : Instr} (hrow : k ∈ m.modes) :
    buildInstr m k b1 b2 = some i ↔
      i.mnemonic = some m ∧ i.mode = some k ∧ i.operandBytes = operandBytesOf k b1 b2 :=
  ⟨fun h => ⟨buildInstr_mnemonic h, mode_operandBytes_of_buildInstr hrow h⟩,
    fun ⟨hm, hk, hbytes⟩ => buildInstr_of_operandBytes hm hk hbytes⟩

theorem exists_bytes_eq_operandBytesOf (m : Addr) : ∃ b1 b2, m.bytes = operandBytesOf m.mode b1 b2 := by
  cases m with
  | zp z | zpX z | zpY z | indX z | indY z => exact ⟨z, 0, rfl⟩
  | abs w | absX w | absY w => exact ⟨loByte w, hiByte w, rfl⟩

/-- An instruction is ILL, or it has a mnemonic, a mode and the operand bytes that mode takes. -/
theorem ill_or_parts (i : Instr) : (∃ op, i = .ill op) ∨
    ∃ m k b1 b2, i.mnemonic = some m ∧ i.mode = some k ∧ i.operandBytes = operandBytesOf k b1 b2 := by
  cases i with
  | ill op => exact .inl ⟨op, rfl⟩
  | lda o | ldx o | ldy o | adc o | sbc o | and o | ora o | eor o | cmp o | cpx o | cpy o =>
    cases o with
    | imm v => exact .inr ⟨_, _, v, 0, rfl, rfl, rfl⟩
    | mem m =>
      obtain ⟨b1, b2, h⟩ := exists_bytes_eq_operandBytesOf m
      exact .inr ⟨_, _, b1, b2, rfl, rfl, h⟩
  | asl o | lsr o | rol o | ror o =>
    cases o with
    | acc => exact .inr ⟨_, _, 0, 0, rfl, rfl, rfl⟩
    | mem m =>
      obtain ⟨b1, b2, h⟩ := exists_bytes_eq_operandBytesOf m
      exact .inr ⟨_, _, b1, b2, rfl, rfl, h⟩
  | sta m | stx m | sty m | bit m | inc m | dec m =>
    obtain ⟨b1, b2, h⟩ := exists_bytes_eq_operandBytesOf m
    exact .inr ⟨_, _, b1, b2, rfl, rfl, h⟩
  | jsr w => exact .inr ⟨_, _, loByte w, hiByte w, rfl, rfl, rfl⟩
  | jmp o =>
    cases o with
    | abs w | ind w => exact .inr ⟨_, _, loByte w, hiByte w, rfl, rfl, rfl⟩
  | bcc d | bcs d | beq d | bne d | bmi d | bpl d | bvc d | bvs d => exact .inr ⟨_, _, d, 0, rfl, rfl, rfl⟩
  | tax | tay | txa | tya | tsx | txs | inx | dex | iny | dey | clc | sec | cli | sei | cld | sed | clv | pha | pla | php
  | plp | rts | rti | brk | nop => exact .inr ⟨_, _, 0, 0, rfl, rfl, rfl⟩

/-! ## Decoding and encoding -/

section
variable {op : Byte} {e : DecodeEntry} (h : decodeEntry op = some e)
include h

theorem mode_mem_modes_of_decodeEntry : e.mode ∈ e.mnemonic.modes :=
  mem_modes_iff.mpr ⟨op, mem_opcodes_of_decodeEntry h⟩

theorem assemble_eq_iff {b1 b2 : Byte} {i : Instr} :
    assemble op b1 b2 = i ↔
      i.mnemonic = some e.mnemonic ∧ i.mode = some e.mode ∧ i.operandBytes = operandBytesOf e.mode b1 b2 := by
  rw [← buildInstr_eq_some_iff (mode_mem_modes_of_decodeEntry h), buildInstr_eq_assemble h, Option.some_inj]

theorem assemble_parts (b1 b2 : Byte) :
    (assemble op b1 b2).mnemonic = some e.mnemonic ∧ (assemble op b1 b2).mode = some e.mode ∧
      (assemble op b1 b2).operandBytes = operandBytesOf e.mode b1 b2 :=
  (assemble_eq_iff h).mp rfl

/-- The operands of a row's instruction come from the operand bytes of its mode alone (R82). -/
theorem assemble_congr {b1 b2 b1' b2' : Byte}
    (hbytes : operandBytesOf e.mode b1 b2 = operandBytesOf e.mode b1' b2') :
    assemble op b1 b2 = assemble op b1' b2' := by
  rw [assemble_eq_iff h, hbytes, ← assemble_eq_iff h]

/-- The decoder takes the operand bytes of the opcode's mode, and leaves what follows (R80, R90). -/
theorem decode_documented (b1 b2 : Byte) (rest : List Byte) :
    decode (op :: (operandBytesOf e.mode b1 b2 ++ rest)) = .ok (assemble op b1 b2, rest) := by
  have hcount : operandCount op = e.mode.length - 1 := by
    simp only [operandCount, h, (decodeEntry_opcode_bytes h).2]
  cases hk : e.mode with
  | implied | accumulator =>
    have hassemble : assemble op b1 b2 = assemble op 0 0 := assemble_congr h (by rw [hk]; rfl)
    rw [hassemble]
    simp [decode, hcount, hk, operandBytesOf, Mode.length]
  | immediate | zeroPage | zeroPageX | zeroPageY | indirectX | indirectY | relative =>
    have hassemble : assemble op b1 b2 = assemble op b1 0 := assemble_congr h (by rw [hk]; rfl)
    rw [hassemble]
    simp [decode, hcount, hk, operandBytesOf, Mode.length]
  | absolute | absoluteX | absoluteY | indirect =>
    simp [decode, hcount, hk, operandBytesOf, Mode.length]

theorem wellFormed_assemble (b1 b2 : Byte) : (assemble op b1 b2).wellFormed = true := by
  obtain ⟨hm, hk, -⟩ := assemble_parts h b1 b2
  exact (wellFormed_iff hm hk).mpr (mode_mem_modes_of_decodeEntry h)

theorem length_assemble (b1 b2 : Byte) : (assemble op b1 b2).length = e.mode.length := by
  obtain ⟨-, hk, -⟩ := assemble_parts h b1 b2
  simp only [Instr.length, hk]

/-- The bytes of a row's instruction are the opcode byte and the operand bytes it was assembled from (R80). -/
theorem encode_assemble (b1 b2 : Byte) :
    encode (assemble op b1 b2) = some (op :: operandBytesOf e.mode b1 b2) := by
  obtain ⟨hm, hk, hbytes⟩ := assemble_parts h b1 b2
  have hop := opcodeFor_of_mem _ _ (mem_opcodes_of_decodeEntry h)
  rw [encode, opcode_eq_opcodeFor hm hk, hop, hbytes, Option.map_some]

end

/-- An undocumented byte decodes to ILL, with no operand byte taken (R88). -/
theorem decode_undocumented {op : Byte} (h : decodeEntry op = none) (rest : List Byte) :
    decode (op :: rest) = .ok (.ill op, rest) := by
  have hcount : operandCount op = 0 := by simp only [operandCount, h]
  simp only [decode, hcount, assemble_of_none h]

theorem encode_ill {op : Byte} (h : op ∈ undocumentedOpcodes) : encode (.ill op) = some [op] := by
  simp [encode, Instr.opcode, h, Instr.operandBytes]

/-- A well-formed instruction is ILL with an undocumented byte (R88), or it is what a row of the table assembles. -/
theorem ill_or_assemble_of_wellFormed {i : Instr} (h : i.wellFormed = true) :
    (∃ op ∈ undocumentedOpcodes, i = .ill op) ∨
      ∃ op e b1 b2, decodeEntry op = some e ∧ i = assemble op b1 b2 := by
  obtain ⟨op, rfl⟩ | ⟨m, k, b1, b2, hm, hk, hbytes⟩ := ill_or_parts i
  · exact .inl ⟨op, List.contains_iff_mem.mp h, rfl⟩
  · obtain ⟨op, hop⟩ := mem_modes_iff.mp ((wellFormed_iff hm hk).mp h)
    obtain ⟨e, he, rfl, rfl⟩ := decodeEntry_of_mem_opcodes hop
    exact .inr ⟨op, e, b1, b2, he, ((assemble_eq_iff he).mpr ⟨hm, hk, hbytes⟩).symm⟩

end Sys2Proof.Machine

open Sys2Proof Sys2Proof.Machine

/-- Settles O47: a well-formed instruction is ILL with an undocumented byte, or it is assembled from a row of the table
and operand bytes, which are its encoding. -/
theorem decodeReturnsTheEncodedInstruction : Obligations.DecodeReturnsTheEncodedInstruction := by
  unfold Obligations.DecodeReturnsTheEncodedInstruction
  intro i hwf
  obtain ⟨op, hop, rfl⟩ | ⟨op, e, b1, b2, he, rfl⟩ := ill_or_assemble_of_wellFormed hwf
  · exact ⟨[op], encode_ill hop, rfl, le_rfl, by simp, decode_undocumented (decodeEntry_none_of_mem op hop)⟩
  · obtain ⟨hlen, hle⟩ := length_operandBytesOf e.mode b1 b2
    refine ⟨_, encode_assemble he b1 b2, ?_, ?_, ?_, decode_documented he b1 b2⟩
    · rw [length_assemble he, List.length_cons, hlen]
    · exact Nat.succ_pos _
    · rwa [List.length_cons, hlen]

/-- Settles O48: the first byte is undocumented and stands alone, or it is a row's, whose mode says how many of the two
bytes after it are operand bytes. -/
theorem everyThreeBytesAreOneInstruction : Obligations.EveryThreeBytesAreOneInstruction := by
  unfold Obligations.EveryThreeBytesAreOneInstruction
  intro b0 b1 b2 more
  cases he : decodeEntry b0 with
  | none =>
    have hop := mem_undocumented_of_none he
    exact ⟨.ill b0, _, [b0], decode_undocumented he _, List.contains_iff_mem.mpr hop, encode_ill hop, rfl⟩
  | some e =>
    have hsplit : operandBytesOf e.mode b1 b2 ++ ([b1, b2].drop (e.mode.length - 1) ++ more) = b1 :: b2 :: more := by
      rw [operandBytesOf, ← List.append_assoc, List.take_append_drop]
      rfl
    have hdecode := decode_documented he b1 b2 ([b1, b2].drop (e.mode.length - 1) ++ more)
    rw [hsplit] at hdecode
    exact ⟨_, _, _, hdecode, wellFormed_assemble he b1 b2, encode_assemble he b1 b2,
      by rw [List.cons_append, hsplit]⟩

/-- Settles O49, by the table read both ways: the grid's entries are the rows of R85, and each row builds its
instruction. -/
theorem undocumentedBytesAreTheIllRows : Obligations.UndocumentedBytesAreTheIllRows := by
  unfold Obligations.UndocumentedBytesAreTheIllRows
  refine ⟨fun op => ⟨mem_undocumented_of_none, decodeEntry_none_of_mem op⟩, rfl, by decide, fun op e he => ?_⟩
  obtain ⟨hopcode, hbytes⟩ := decodeEntry_opcode_bytes he
  refine ⟨hopcode, hbytes, mode_mem_modes_of_decodeEntry he, fun b1 b2 => ⟨_, buildInstr_eq_assemble he b1 b2, ?_⟩⟩
  obtain ⟨hm, hk, -⟩ := assemble_parts he b1 b2
  exact ⟨hm, hk⟩

/-- Settles O50: the nine words are fixed, and the decoder evaluates on each. -/
theorem scenarioWordsDecode : Obligations.ScenarioWordsDecode := by
  unfold Obligations.ScenarioWordsDecode
  decide
end

section
/-! PROOF. The fetch as a reading of the bytes at PC (40_addressing_sequencer.md R120, R126; 30_encoding.md R90): it
gives the instruction they decode to, and its transactions are the reads of that instruction's bytes. -/

namespace Sys2Proof.Machine

/-- The two bytes after an opcode byte are the operand bytes its mode takes, and the bytes it leaves. -/
theorem operandBytesOf_append_drop (k : Mode) (b1 b2 : Byte) :
    operandBytesOf k b1 b2 ++ [b1, b2].drop (k.length - 1) = [b1, b2] :=
  List.take_append_drop _ _

/-- A mode of at most two bytes does not look at the second byte after the opcode byte (30_encoding.md R81, R82). -/
theorem operandBytesOf_of_length (k : Mode) (b1 b2 : Byte) :
    operandBytesOf k b1 b2 = operandBytesOf k b1 (if k.length = 3 then b2 else 0) := by
  cases k <;> rfl

/-- The fetch gives the instruction that the bytes at PC decode to. -/
theorem decode_bytesAtPc (s : State) : ∃ rest, decode (bytesAtPc s) = .ok ((fetch s).1, rest) := by
  simp only [decode, bytesAtPc, fetch, busRead_value]
  rcases operandCount (readByte s.mem s.pc.toNat) with _ | _ | n <;> exact ⟨_, rfl⟩

theorem fetchEvents_nil (n : Nat) (pc : Word) : fetchEvents n pc [] = [] := by
  cases n <;> rfl

/-- The fetch reads the opcode byte and the operand bytes its opcode has, lowest address first, and does nothing else
(R126). -/
theorem fetch_state (s : State) :
    (fetch s).2 = { s with
      bus := s.bus ++ fetchEvents (operandCount (readByte s.mem s.pc.toNat) + 1) s.pc (bytesAtPc s) } := by
  have hnext : s.pc + 2 = s.pc + 1 + 1 := by rw [BitVec.add_assoc]; rfl
  simp only [fetch, busRead_value]
  rcases operandCount (readByte s.mem s.pc.toNat) with _ | _ | n
  · rfl
  · simp [busRead, fetchEvents, bytesAtPc]
  · simp only [busRead, busByte_eq, bytesAtPc, hnext, fetchEvents, fetchEvents_nil, List.append_assoc,
      List.cons_append, List.nil_append]

/-- An instruction is one byte longer than its operand bytes, ILL included (30_encoding.md R90). -/
theorem length_assemble_eq_operandCount_succ (op b1 b2 : Byte) :
    (assemble op b1 b2).length = operandCount op + 1 := by
  cases h : decodeEntry op with
  | none => simp only [assemble_of_none h, operandCount, h]; rfl
  | some e =>
    obtain ⟨hlen, -⟩ := length_operandBytesOf e.mode b1 b2
    obtain ⟨-, hbytes⟩ := decodeEntry_opcode_bytes h
    simp only [length_assemble h, operandCount, h, hbytes]
    omega

/-- A documented opcode byte at PC is fetched with the two bytes after it. -/
theorem fetch_of_documented {s : State} {e : DecodeEntry} (h : decodeEntry (readByte s.mem s.pc.toNat) = some e) :
    (fetch s).1 =
      assemble (readByte s.mem s.pc.toNat) (readByte s.mem (s.pc + 1).toNat) (readByte s.mem (s.pc + 2).toNat) := by
  obtain ⟨rest, hfetch⟩ := decode_bytesAtPc s
  have hdecode := decode_documented h (readByte s.mem (s.pc + 1).toNat) (readByte s.mem (s.pc + 2).toNat)
    ([readByte s.mem (s.pc + 1).toNat, readByte s.mem (s.pc + 2).toNat].drop (e.mode.length - 1))
  rw [operandBytesOf_append_drop] at hdecode
  exact (Prod.mk.inj (Except.ok.inj (hfetch.symm.trans hdecode))).1

/-- In every mode the operand bytes are those that stand after the opcode byte (40_addressing_sequencer.md R103 to
R112). -/
theorem fetchesOperands (k : Mode) : FetchesOperands k := by
  rintro s e he rfl
  have h1 : (s.pc.toNat + 1) % 65536 = (s.pc + 1).toNat := (BitVec.toNat_add s.pc 1).symm
  have h2 : (s.pc.toNat + 2) % 65536 = (s.pc + 2).toNat := (BitVec.toNat_add s.pc 2).symm
  rw [h1, h2, buildInstr_eq_assemble he, fetch_of_documented he]
  exact congrArg some (assemble_congr he (operandBytesOf_of_length e.mode _ _))

end Sys2Proof.Machine

open Sys2Proof Sys2Proof.Machine

/-- Settles O44: the fetch of a running block gives what the bytes at PC decode to, and has read just its bytes. -/
theorem stepRunsTheDecodedInstruction : Obligations.StepRunsTheDecodedInstruction := by
  unfold Obligations.StepRunsTheDecodedInstruction
  intro s i rest hrun hdecode
  obtain ⟨rest', hfetch⟩ := decode_bytesAtPc (clearBus s)
  obtain ⟨rfl, -⟩ := Prod.mk.inj (Except.ok.inj (hdecode.symm.trans hfetch))
  obtain ⟨b1, b2, bus, hassemble⟩ := fetch_clearBus s
  have hlen : (fetch (clearBus s)).1.length = operandCount (readByte s.mem s.pc.toNat) + 1 := by
    rw [hassemble, length_assemble_eq_operandCount_succ]
  rw [step_of_running hrun, fetch_state (clearBus s), hlen]
  rfl
end

section
/-! PROOF. The addressing-mode resolver (40_addressing_sequencer.md R103 to R111): the effective address as a number,
the page-cross signal, and the pointer reads. -/

namespace Sys2Proof.Machine

/-- Only LDX and STX have a ZeroPageY row (R105). -/
theorem mnemonic_of_zeroPageY_mem (m : Mnemonic) (h : .zeroPageY ∈ m.modes) : m ∈ [Mnemonic.LDX, .STX] := by
  revert h
  cases m <;> decide

/-- The eight branches. -/
def branchMnemonics : List Mnemonic := [.BCC, .BCS, .BEQ, .BNE, .BMI, .BPL, .BVC, .BVS]

/-- A row is Relative exactly when it is a branch's (R111). -/
theorem relative_iff_branch (m : Mnemonic) : ∀ k ∈ m.modes, k = .relative ↔ m ∈ branchMnemonics := by
  cases m <;> decide

/-- A branch's row builds that branch, with the byte after the opcode byte as its displacement. -/
theorem buildInstr_branch {m : Mnemonic} (h : m ∈ branchMnemonics) (k : Mode) (d b2 : Byte) :
    buildInstr m k d b2 ∈
      [some (Instr.bcc d), some (.bcs d), some (.beq d), some (.bne d), some (.bmi d), some (.bpl d), some (.bvc d),
       some (.bvs d)] := by
  simp only [branchMnemonics, List.mem_cons, List.not_mem_nil, or_false] at h
  rcases h with rfl | rfl | rfl | rfl | rfl | rfl | rfl | rfl <;> simp [buildInstr]

/-- An indexed address as a number, modulo 65536 (R107, R108, R110). -/
theorem indexed_ea_toNat (base : Word) (index : Byte) (len : Word) :
    (indexed base index len).ea.toNat = (base.toNat + index.toNat) % 65536 := by
  simp only [indexed, BitVec.toNat_add, zext_toNat]

/-- The page-cross signal of an indexed address (R113). -/
theorem indexed_pcross_iff (base : Word) (index : Byte) (len : Word) :
    (indexed base index len).pcross = true ↔ (indexed base index len).ea.toNat / 256 ≠ base.toNat / 256 :=
  crossesPage_iff base _

/-- What the pointer reads leave: two reads in page 0, the low byte's first (00_scope.md R14). -/
theorem zpRead16_state (z : Byte) (s : State) :
    (zpRead16 z s).2 = { s with
      bus := s.bus ++ [.read (zext z) (readByte s.mem z.toNat),
        .read (BitVec.ofNat 16 ((z.toNat + 1) % 256)) (readByte s.mem ((z.toNat + 1) % 256))] } := by
  have hnext : (z.toNat + 1) % 256 = (z + 1).toNat := (BitVec.toNat_add z 1).symm
  have hpair := readPair_state (zext z) (zext (z + 1)) s
  rw [zext_toNat, zext_toNat] at hpair
  rw [hnext]
  exact hpair

end Sys2Proof.Machine

open Sys2Proof Sys2Proof.Machine

/-- Settles O10, by the value and the page-cross signal of an indexed address. -/
theorem absoluteModesIndexModulo65536 : Obligations.AbsoluteModesIndexModulo65536 := by
  unfold Obligations.AbsoluteModesIndexModulo65536
  refine ⟨fetchesOperands _, fetchesOperands _, fetchesOperands _, fun w lo hi s => ?_⟩
  refine ⟨rfl, rfl, rfl, hiLo_toNat hi lo, rfl, indexed_ea_toNat w s.x 3, indexed_ea_toNat w s.y 3, rfl,
    indexed_pcross_iff w s.x 3, indexed_pcross_iff w s.y 3, ?_⟩
  simp only [List.forall_mem_cons]
  exact ⟨⟨rfl, rfl⟩, ⟨rfl, rfl⟩, ⟨rfl, rfl⟩, nofun⟩

/-- Settles O13, by the value of the branch target and, for the rows, the modes of each mnemonic. -/
theorem relativeTargetIsSignedFromTheAdvancedPc : Obligations.RelativeTargetIsSignedFromTheAdvancedPc := by
  unfold Obligations.RelativeTargetIsSignedFromTheAdvancedPc
  refine ⟨fetchesOperands _, fun d s => ⟨branch_target_toNat d s.pc, rfl, ?_⟩, fun op e he => ?_⟩
  · have hnext : (s.pc.toNat + 2) % 65536 = (s.pc + 2).toNat := (BitVec.toNat_add s.pc 2).symm
    rw [hnext, ne_comm]
    exact crossesPage_iff _ _
  · have hbranch := relative_iff_branch e.mnemonic e.mode (mode_mem_modes_of_decodeEntry he)
    exact ⟨hbranch, fun hk => buildInstr_branch (hbranch.mp hk) e.mode⟩

/-- Settles O9: the index is added to the byte z, modulo 256, before it becomes an address. -/
theorem zeroPageModesStayInPageZero : Obligations.ZeroPageModesStayInPageZero := by
  unfold Obligations.ZeroPageModesStayInPageZero
  refine ⟨fetchesOperands _, fetchesOperands _, fetchesOperands _, fun op e he hk => ?_, fun z b2 s => ?_⟩
  · exact mnemonic_of_zeroPageY_mem e.mnemonic (hk ▸ mode_mem_modes_of_decodeEntry he)
  · have hindexed (i : Byte) : (zext (z + i)).toNat = (z.toNat + i.toNat) % 256 := by
      rw [zext_toNat, BitVec.toNat_add]
    refine ⟨rfl, rfl, rfl, zext_toNat z, hindexed s.x, hindexed s.y, ?_⟩
    simp only [List.forall_mem_cons]
    exact ⟨⟨rfl, rfl, rfl⟩, ⟨rfl, rfl, rfl⟩, ⟨rfl, rfl, rfl⟩, nofun⟩

/-- Settles O11, by the value and the reads of the pointer at z + X modulo 256. -/
theorem indirectXReadsItsPointerInPageZero : Obligations.IndirectXReadsItsPointerInPageZero := by
  unfold Obligations.IndirectXReadsItsPointerInPageZero
  refine ⟨fetchesOperands _, fun z b2 s => ?_⟩
  have hp : (z.toNat + s.x.toNat) % 256 = (z + s.x).toNat := (BitVec.toNat_add z s.x).symm
  simp only [hp]
  exact ⟨rfl, zpRead16_toNat (z + s.x) s, rfl, rfl, zpRead16_state (z + s.x) s⟩

/-- Settles O12, by the value and the reads of the pointer at z, which Y then indexes. -/
theorem indirectYAddsYToItsPointer : Obligations.IndirectYAddsYToItsPointer := by
  unfold Obligations.IndirectYAddsYToItsPointer
  refine ⟨fetchesOperands _, fun z b2 s => ?_⟩
  simp only [← zpRead16_toNat]
  exact ⟨rfl, indexed_ea_toNat _ s.y 2, rfl, indexed_pcross_iff _ s.y 2, zpRead16_state z s⟩
end

section
/-! PROOF. The adder, the comparator and the stack engine (40_addressing_sequencer.md R114, R115, R118, R119). -/

namespace Sys2Proof.Machine

/-! ## The adder -/

/-- The sign bit by the unsigned value. -/
theorem bit7_eq_decide (v : Byte) : v.getLsbD 7 = decide (128 ≤ v.toNat) := by
  rw [← msb_eq_bit7, BitVec.msb_eq_decide]

section
variable (a m : Byte) (cin : Bool)

theorem addC_r_toNat : (addC a m cin).r.toNat = (a.toNat + m.toNat + cin.toNat) % 256 := rfl

theorem addC_cout_iff : (addC a m cin).cout = true ↔ 256 ≤ a.toNat + m.toNat + cin.toNat := decide_eq_true_iff

/-- The overflow, by the signs of the operands and of the result. -/
theorem addC_v_iff_signs :
    (addC a m cin).v = true ↔ a.getLsbD 7 = m.getLsbD 7 ∧ (addC a m cin).r.getLsbD 7 ≠ a.getLsbD 7 := by
  simp only [← msb_eq_bit7]
  simp [addC]

/-- The overflow as bit 7 of `(a ^ r) & (m ^ r)`. -/
theorem addC_v_eq_bit7 :
    (addC a m cin).v = ((a ^^^ (addC a m cin).r) &&& (m ^^^ (addC a m cin).r)).getLsbD 7 := by
  rw [Bool.eq_iff_iff, addC_v_iff_signs, BitVec.getLsbD_and, BitVec.getLsbD_xor, BitVec.getLsbD_xor]
  generalize a.getLsbD 7 = sa, m.getLsbD 7 = sm, (addC a m cin).r.getLsbD 7 = sr
  revert sa sm sr
  decide

/-- The overflow by the exact signed sum: it leaves the signed range. -/
theorem addC_v_iff_range :
    (addC a m cin).v = true ↔
      a.toInt + m.toInt + (cin.toNat : Int) < -128 ∨ 127 < a.toInt + m.toInt + (cin.toNat : Int) := by
  have ha := a.isLt
  have hm := m.isLt
  have hc := cin.toNat_le
  rw [addC_v_iff_signs, bit7_eq_decide, bit7_eq_decide, bit7_eq_decide, addC_r_toNat, ne_eq, decide_eq_decide,
    decide_eq_decide, BitVec.toInt_eq_toNat_cond, BitVec.toInt_eq_toNat_cond]
  split_ifs <;> omega

end

/-! ## The stack engine -/

/-- A byte pushed is the byte popped next (R115). -/
theorem pop_push (v : Byte) (s : State) : (pop (push v s)).1 = v ∧ (pop (push v s)).2.sp = s.sp := by
  have hsp : s.sp - 1 + 1 = s.sp := sub_add_cancel s.sp 1
  refine ⟨?_, hsp⟩
  rw [pop_value, push_sp, hsp, push_mem, readByte_writeByte_word, if_pos rfl]

end Sys2Proof.Machine

open Sys2Proof Sys2Proof.Machine

/-- Settles O14: the three forms of the overflow are the rule of the signs, its bit 7 and the exact signed range. -/
theorem adderGivesSumCarryAndOverflow : Obligations.AdderGivesSumCarryAndOverflow := by
  unfold Obligations.AdderGivesSumCarryAndOverflow
  exact fun a m cin => ⟨addC_r_toNat a m cin, addC_cout_iff a m cin, addC_v_iff_signs a m cin, addC_v_eq_bit7 a m cin,
    addC_v_iff_range a m cin⟩

/-- Settles O15, by the flags after Compare and its frame; the wrapped difference is 0 exactly when the operands are
equal. -/
theorem comparatorWritesOnlyCarryZeroNegative : Obligations.ComparatorWritesOnlyCarryZeroNegative := by
  unfold Obligations.ComparatorWritesOnlyCarryZeroNegative
  intro r m s
  have hz : flag .z (compareReg r m s) = true ↔ r - m = 0 := by simp [flag_compareReg]
  refine ⟨by simp [flag_compareReg], hz.trans sub_eq_zero, hz, ?_, ?_, rfl, rfl, rfl⟩
  · exact (flag_compareReg .n r m s).trans (msb_eq_bit7 _)
  · exact ((ChangesOnly.refl s).compareReg r m (by decide)).keepsAllBut

/-- Settles O16, by the read-after-write law at the stack address and the frame of Push. -/
theorem pushWritesThenMovesSpDown : Obligations.PushWritesThenMovesSpDown := by
  unfold Obligations.PushWritesThenMovesSpDown
  intro v s
  refine ⟨stackAddr_toNat s.sp, ?_, ?_, ?_, rfl, rfl, rfl⟩
  · rw [← stackAddr_toNat, push_mem, readByte_writeByte_word, if_pos rfl]
  · rw [push_sp, BitVec.toNat_sub]
    exact congrArg (· % 256) (Nat.add_comm 255 s.sp.toNat)
  · exact ((ChangesOnly.refl s).push v List.mem_cons_self List.mem_cons_self).keepsAllBut

/-- Settles O17, by the frame of Pop; Push leaves its byte at the address Pop moves SP back to. -/
theorem popReturnsTheLastPush : Obligations.PopReturnsTheLastPush := by
  unfold Obligations.PopReturnsTheLastPush
  refine ⟨fun s => ?_, pop_push⟩
  have hsp : (s.sp.toNat + 1) % 256 = (s.sp + 1).toNat := (BitVec.toNat_add s.sp 1).symm
  rw [hsp, ← stackAddr_toNat]
  exact ⟨rfl, rfl, ((ChangesOnly.refl s).pop List.mem_cons_self).keepsAllBut, rfl, rfl⟩
end

section
/-! PROOF. Where an instruction that is no control transfer leaves PC (40_addressing_sequencer.md R121, R122). -/

namespace Sys2Proof.Machine

/-- Every instruction but the control transfers, BRK and ILL leaves PC past its bytes. -/
theorem exec_pc {i : Instr} (h : onlyAdvancesPc i = true) (s : State) :
    ∃ t, exec i s = .next t ∧ t.pc = s.pc + BitVec.ofNat 16 i.length := by
  cases i with
  | bcc d | bcs d | beq d | bne d | bmi d | bpl d | bvc d | bvs d | jmp o | jsr w | rts | rti | brk | ill op =>
    nomatch h
  | lda o | ldx o | ldy o | adc o | sbc o | and o | ora o | eor o | cmp o | cpx o | cpy o =>
    exact ⟨_, rfl, loadSource_pc o s⟩
  | bit m => exact ⟨_, rfl, loadSource_pc (.mem m) s⟩
  | sta m | stx m | sty m => exact ⟨_, rfl, storeAt_pc m _ s⟩
  | asl o | lsr o | rol o | ror o => exact ⟨_, rfl, modifyTarget_pc o _ s⟩
  | inc m => exact ⟨_, exec_inc m s, modifyTarget_pc (.mem m) (· + 1) s⟩
  | dec m => exact ⟨_, exec_dec m s, modifyTarget_pc (.mem m) (· - 1) s⟩
  | tsx =>
    refine ⟨_, exec_tsx s, ?_⟩
    split_ifs <;> rfl
  | tax | tay | txa | tya | txs | inx | dex | iny | dey | clc | sec | cli | sei | cld | sed | clv | pha | pla | php | plp
  | nop => exact ⟨_, rfl, rfl⟩

/-- Every instruction but the control transfers, BRK and ILL moves on, within the rows of its tables (10_state.md R34,
R50; 20_memory.md R67). -/
theorem exec_movesOn {i : Instr} (h : onlyAdvancesPc i = true) (s : State) :
    ∃ t, exec i s = .next t ∧ MovesOn i (writtenRegs i) (writtenFlags i) (storedAddrs i s) s t := by
  have hbrk : i ≠ .brk := by rintro rfl; nomatch h
  have hill : ∀ op, i ≠ .ill op := by rintro op rfl; nomatch h
  obtain ⟨t, hexec, hpc⟩ := exec_pc h s
  obtain ⟨t', hexec', hframe⟩ := exec_changesOnly hbrk hill s
  obtain rfl := Host.Outcome.next.inj (hexec.symm.trans hexec')
  exact ⟨t, hexec, hframe.keepsAllBut, hpc, hframe.runState_eq⟩

end Sys2Proof.Machine

open Sys2Proof Sys2Proof.Machine

/-- Settles O52, by the rule of the instructions that move on. -/
theorem onlyControlTransfersRedirectPc : Obligations.OnlyControlTransfersRedirectPc := by
  unfold Obligations.OnlyControlTransfersRedirectPc
  intro i s h
  obtain ⟨t, hexec, -, hpc, hrun⟩ := exec_movesOn h s
  refine ⟨t, hexec, ?_, hrun⟩
  rw [hpc, BitVec.toNat_add, BitVec.toNat_ofNat, Nat.add_mod_mod]
end

section
/-! PROOF. Loads and stores (41_load_store.md R140 to R145): SetZN of the loaded value, the byte a store leaves and its
one write, and the frame of an instruction that moves on, within any lists that hold the rows of its tables. -/

namespace Sys2Proof.Machine

/-- What moves on within some registers, flags and bytes moves on within any that hold them. -/
theorem MovesOn.mono {i : Instr} {regs regs' : List Reg} {flags flags' : List Flag} {stored stored' : List Word}
    {s t : State} (h : MovesOn i regs flags stored s t) (hregs : regs ⊆ regs') (hflags : flags ⊆ flags')
    (hstored : stored ⊆ stored') : MovesOn i regs' flags' stored' s t := by
  obtain ⟨⟨hreg, hflag, hbit5, hmem, hparams⟩, hpc, hrun⟩ := h
  exact ⟨⟨fun r hr => hreg r (mt (@hregs r) hr), fun f hf => hflag f (mt (@hflags f) hf), hbit5,
    fun a ha => hmem a (mt (@hstored a) ha), hparams⟩, hpc, hrun⟩

/-- The rule of the instructions that move on, for the next state that exec is known to answer. -/
theorem movesOn_of_exec {i : Instr} {s t : State} (hexec : exec i s = .next t) (h : onlyAdvancesPc i = true) :
    MovesOn i (writtenRegs i) (writtenFlags i) (storedAddrs i s) s t := by
  obtain ⟨t', hexec', hmoves⟩ := exec_movesOn h s
  obtain rfl := Host.Outcome.next.inj (hexec.symm.trans hexec')
  exact hmoves

/-- The same for an instruction whose row of the flag table is Z and N, named in SetZN's order (00_scope.md R16). -/
theorem movesOn_zn_of_exec {i : Instr} {s t : State} (hexec : exec i s = .next t) (h : onlyAdvancesPc i = true)
    (hflags : writtenFlags i = [.n, .z]) : MovesOn i (writtenRegs i) [.z, .n] (storedAddrs i s) s t :=
  (movesOn_of_exec hexec h).mono (.refl _) (hflags ▸ (List.Perm.swap Flag.z Flag.n []).subset) (.refl _)

/-- SetZN leaves the Z and N of its value. -/
theorem hasZN_setZN (v : Byte) (s : State) : HasZN v (setZN v s) :=
  ⟨flag_setZN .z v s, (flag_setZN .n v s).trans (msb_eq_bit7 v)⟩

/-- A store leaves its byte at the effective address (20_memory.md R72). -/
theorem readByte_storeAt_ea (m : Addr) (v : Byte) (s : State) :
    readByte (storeAt m v s).mem (resolve m s).1.ea.toNat = v := by
  rw [storeAt_mem, readByte_writeByte_word, if_pos rfl]

/-- A store's transactions are the resolver's and then the one write: it does not read the effective address. -/
theorem storeAt_bus_eq (m : Addr) (v : Byte) (s : State) :
    (storeAt m v s).bus = (resolve m s).2.bus ++ [.write (resolve m s).1.ea v] := rfl

end Sys2Proof.Machine

open Sys2Proof Sys2Proof.Machine

/-- Settles O18: each load is SetZN of its operand over a write of its register, and moves on. -/
theorem loadsWriteTheirRegisterAndZN : Obligations.LoadsWriteTheirRegisterAndZN := by
  unfold Obligations.LoadsWriteTheirRegisterAndZN
  refine ⟨fun o s => ?lda, fun o s => ?ldx, fun o s => ?ldy, hasRows_opcodes .LDA, hasRows_opcodes .LDX,
    hasRows_opcodes .LDY⟩
  case lda => exact ⟨_, exec_lda o s, rfl, hasZN_setZN _ _, movesOn_zn_of_exec (exec_lda o s) rfl rfl⟩
  case ldx => exact ⟨_, exec_ldx o s, rfl, hasZN_setZN _ _, movesOn_zn_of_exec (exec_ldx o s) rfl rfl⟩
  case ldy => exact ⟨_, exec_ldy o s, rfl, hasZN_setZN _ _, movesOn_zn_of_exec (exec_ldy o s) rfl rfl⟩

/-- Settles O19: each store is `storeAt` of its register, which writes the one byte and moves on. -/
theorem storesWriteTheByteAtTheEffectiveAddress : Obligations.StoresWriteTheByteAtTheEffectiveAddress := by
  unfold Obligations.StoresWriteTheByteAtTheEffectiveAddress
  refine ⟨fun m s => ?sta, fun m s => ?stx, fun m s => ?sty, hasRows_opcodes .STA, hasRows_opcodes .STX,
    hasRows_opcodes .STY, decodeEntry_none_of_mem 0x89 (by decide)⟩
  case sta =>
    exact ⟨_, exec_sta m s, readByte_storeAt_ea m _ s, movesOn_of_exec (exec_sta m s) rfl, storeAt_bus_eq m _ s⟩
  case stx =>
    exact ⟨_, exec_stx m s, readByte_storeAt_ea m _ s, movesOn_of_exec (exec_stx m s) rfl, storeAt_bus_eq m _ s⟩
  case sty =>
    exact ⟨_, exec_sty m s, readByte_storeAt_ea m _ s, movesOn_of_exec (exec_sty m s) rfl, storeAt_bus_eq m _ s⟩
end

section
/-! PROOF. Transfers (42_transfer.md R150 to R155): the two next states of TSX, and what it changes where TSX_SETS_NZ is
false, which is less than its row of the flag table (90_conflicts.md C2). -/

namespace Sys2Proof.Machine

theorem exec_tsx_of_setsNz {s : State} (hnz : s.params.tsxSetsNz = true) :
    exec .tsx s = .next (setZN s.sp (setX s.sp (advance 1 s))) := by
  rw [exec_tsx, if_pos hnz]

theorem exec_tsx_of_not_setsNz {s : State} (hnz : s.params.tsxSetsNz = false) :
    exec .tsx s = .next (setX s.sp (advance 1 s)) := by
  rw [exec_tsx, if_neg (Bool.eq_false_iff.mp hnz)]

/-- A write of X over the advanced PC moves TSX on with no flag touched. -/
theorem movesOn_tsx_setX (v : Byte) (s : State) : MovesOn .tsx [.x] [] [] s (setX v (advance 1 s)) :=
  ⟨(((ChangesOnly.refl s).advance 1).setX v List.mem_cons_self).keepsAllBut, rfl, rfl⟩

end Sys2Proof.Machine

open Sys2Proof Sys2Proof.Machine

/-- Settles O20: each transfer is a write of its register over the advanced PC, under SetZN for all but TXS, and moves
on. -/
theorem transfersCopyARegister : Obligations.TransfersCopyARegister := by
  unfold Obligations.TransfersCopyARegister
  refine ⟨fun s => ?tax, fun s => ?tay, fun s => ?txa, fun s => ?tya, fun s => ?txs, hasRows_opcodes .TAX,
    hasRows_opcodes .TAY, hasRows_opcodes .TXA, hasRows_opcodes .TYA, hasRows_opcodes .TXS⟩
  case tax => exact ⟨_, exec_tax s, rfl, hasZN_setZN _ _, movesOn_zn_of_exec (exec_tax s) rfl rfl⟩
  case tay => exact ⟨_, exec_tay s, rfl, hasZN_setZN _ _, movesOn_zn_of_exec (exec_tay s) rfl rfl⟩
  case txa => exact ⟨_, exec_txa s, rfl, hasZN_setZN _ _, movesOn_zn_of_exec (exec_txa s) rfl rfl⟩
  case tya => exact ⟨_, exec_tya s, rfl, hasZN_setZN _ _, movesOn_zn_of_exec (exec_tya s) rfl rfl⟩
  case txs => exact ⟨_, exec_txs s, rfl, movesOn_of_exec (exec_txs s) rfl⟩

/-- Settles O21, by the two values of TSX_SETS_NZ: with it TSX is SetZN of SP over the write of X, without it that write
alone. -/
theorem tsxCopiesSpAndSetsZNByParameter : Obligations.TsxCopiesSpAndSetsZNByParameter := by
  unfold Obligations.TsxCopiesSpAndSetsZNByParameter
  refine ⟨fun s => ?_, hasRows_opcodes .TSX⟩
  cases hnz : s.params.tsxSetsNz with
  | true =>
    have hexec := exec_tsx_of_setsNz hnz
    exact ⟨_, hexec, rfl, fun _ => ⟨hasZN_setZN _ _, movesOn_zn_of_exec hexec rfl rfl⟩, nofun⟩
  | false => exact ⟨_, exec_tsx_of_not_setsNz hnz, rfl, nofun, fun _ => movesOn_tsx_setX _ _⟩
end

section
/-! PROOF. Arithmetic and logic (43_arithmetic_logical.md R160 to R165): what a sum into A leaves after an operand has
been read, the adder on the complement of an operand, and Z and N after a logical result. -/

namespace Sys2Proof.Machine

/-! ## The adder on the complement of an operand -/

/-- Adding the complement carries out exactly when the subtraction does not borrow. -/
theorem carry_of_not_iff (a m : Byte) (cin : Bool) :
    256 ≤ a.toNat + (~~~m).toNat + cin.toNat ↔ m.toNat + (1 - cin.toNat) ≤ a.toNat := by
  have hm := m.isLt
  have hc := cin.toNat_le
  rw [BitVec.toNat_not]
  omega

/-- With the carry clear the adder adds. -/
theorem addC_r_carry_clear (a m : Byte) : (addC a m false).r = a + m :=
  BitVec.eq_of_toNat_eq (BitVec.toNat_add a m).symm

/-- With the carry set the adder subtracts the byte whose complement it is given. -/
theorem addC_r_not_carry_set (a m : Byte) : (addC a (~~~m) true).r = a - m := by
  apply BitVec.eq_of_toNat_eq
  have hm := m.isLt
  have hc : true.toNat = 1 := rfl
  rw [addC_r_toNat, BitVec.toNat_not, BitVec.toNat_sub, hc]
  omega

/-! ## A sum and a logical result into A -/

/-- Z and N after ADC or SBC are those of the new A. -/
theorem hasZN_addToA (m : Byte) (s : State) : HasZN (addToA m s).a (addToA m s) := hasZN_setZN _ _

/-- Z and N after AND, ORA or EOR are those of the result. -/
theorem hasZN_logicToA (r : Byte) (s : State) : HasZN r (logicToA r s) := hasZN_setZN r _

section
variable (o : Source) (m : Byte) (s : State)

/-- Reading the operand first does not change the sum: A and C are those of the state before it. -/
theorem addToA_loadSource_a : (addToA m (loadSource o s).2).a = (addC s.a m (flag .c s)).r := by
  rw [addToA_a, loadSource_a, flag_loadSource]

theorem addToA_loadSource_toNat :
    (addToA m (loadSource o s).2).a.toNat = (s.a.toNat + m.toNat + (flag .c s).toNat) % 256 := by
  rw [addToA_loadSource_a, addC_r_toNat]

theorem flag_c_addToA_loadSource :
    flag .c (addToA m (loadSource o s).2) = true ↔ 256 ≤ s.a.toNat + m.toNat + (flag .c s).toNat := by
  rw [← addC_cout_iff, flag_addToA, loadSource_a, flag_loadSource]
  rfl

theorem flag_v_addToA_loadSource :
    flag .v (addToA m (loadSource o s).2) = true ↔
      s.a.getLsbD 7 = m.getLsbD 7 ∧ (addToA m (loadSource o s).2).a.getLsbD 7 ≠ s.a.getLsbD 7 := by
  rw [addToA_loadSource_a, ← addC_v_iff_signs, flag_addToA, loadSource_a, flag_loadSource]
  rfl

variable {s}

/-- ADC with C clear adds its operand to A. -/
theorem exec_adc_of_carry_clear (h : flag .c s = false) :
    ∃ t, exec (.adc o) s = .next t ∧ t.a = s.a + sourceValue o s :=
  ⟨_, exec_adc o s, by rw [addToA_loadSource_a, h, addC_r_carry_clear]⟩

/-- SBC with C set subtracts its operand from A. -/
theorem exec_sbc_of_carry_set (h : flag .c s = true) :
    ∃ t, exec (.sbc o) s = .next t ∧ t.a = s.a - sourceValue o s :=
  ⟨_, exec_sbc o s, by rw [addToA_loadSource_a, h, addC_r_not_carry_set]⟩

end

end Sys2Proof.Machine

open Sys2Proof Sys2Proof.Machine

/-- Settles O22: both are a sum into A after the operand is read, ADC of the operand and SBC of its complement, whose
carry out is the absence of a borrow. -/
theorem adcAndSbcAddWithCarryInBinary : Obligations.AdcAndSbcAddWithCarryInBinary := by
  unfold Obligations.AdcAndSbcAddWithCarryInBinary
  refine ⟨fun o s => ?adc, fun o s => ?sbc, hasRows_opcodes .ADC, hasRows_opcodes .SBC⟩
  case adc =>
    exact ⟨_, exec_adc o s, addToA_loadSource_toNat o _ s, flag_c_addToA_loadSource o _ s,
      flag_v_addToA_loadSource o _ s, hasZN_addToA _ _, movesOn_of_exec (exec_adc o s) rfl⟩
  case sbc =>
    have hsign : (~~~(sourceValue o s)).getLsbD 7 = !(sourceValue o s).getLsbD 7 := BitVec.getLsbD_not
    refine ⟨_, exec_sbc o s, ?_, ?_, ?_, hasZN_addToA _ _, movesOn_of_exec (exec_sbc o s) rfl⟩
    · rw [addToA_loadSource_toNat, BitVec.toNat_not]
    · exact (flag_c_addToA_loadSource o _ s).trans (carry_of_not_iff _ _ _)
    · rw [flag_v_addToA_loadSource, hsign]

/-- Settles O23: each is `logicToA` of its combination, which is SetZN over a write of A, and moves on. -/
theorem logicWritesAAndZN : Obligations.LogicWritesAAndZN := by
  unfold Obligations.LogicWritesAAndZN
  refine ⟨fun o s => ?and, fun o s => ?ora, fun o s => ?eor, hasRows_opcodes .AND, hasRows_opcodes .ORA,
    hasRows_opcodes .EOR⟩
  case and => exact ⟨_, exec_and o s, rfl, hasZN_logicToA _ _, movesOn_zn_of_exec (exec_and o s) rfl rfl⟩
  case ora => exact ⟨_, exec_ora o s, rfl, hasZN_logicToA _ _, movesOn_zn_of_exec (exec_ora o s) rfl rfl⟩
  case eor => exact ⟨_, exec_eor o s, rfl, hasZN_logicToA _ _, movesOn_zn_of_exec (exec_eor o s) rfl rfl⟩

/-- Settles O55: CLC makes the ADC an addition of `b` and SEC the SBC a subtraction of it, which cancel. -/
theorem addThenSubtractRestoresA : Obligations.AddThenSubtractRestoresA := by
  unfold Obligations.AddThenSubtractRestoresA
  intro b s
  obtain ⟨s2, hadc, ha2⟩ := exec_adc_of_carry_clear (.imm b) (flag_setFlag_self .c false (advance 1 s))
  obtain ⟨s4, hsbc, ha4⟩ := exec_sbc_of_carry_set (.imm b) (flag_setFlag_self .c true (advance 1 s2))
  refine ⟨_, s2, _, s4, exec_clc s, hadc, exec_sec s2, hsbc, ?_⟩
  calc
    s4.a = s2.a - b := ha4
    _ = s.a + b - b := congrArg (· - b) ha2
    _ = s.a := BitVec.add_sub_cancel s.a b
end

section
/-! PROOF. Shifts and rotates (44_shift_rotate.md R170 to R173): what the write-back and the flags leave, the bits the
rotates shift in, and ROL of A as a rotation of the nine bits of C and A. -/

namespace Sys2Proof.Machine

/-! ## The result and the flags -/

section
variable (o : Target) (f : Byte → Byte) (out : Bool) (r : Byte) (s : State)

/-- A read-modify-write leaves its result in its operand (40_addressing_sequencer.md R117), and the flags of a shift
do not touch it. -/
theorem holdsResult_shiftFlags :
    HoldsResult o (f (targetValue o s)) s (shiftFlags out r (modifyTarget o f s).2) := by
  cases o with
  | acc => rfl
  | mem m =>
    change readByte (modifyTarget (.mem m) f s).2.mem (resolve m s).1.ea.toNat = _
    rw [modifyTarget_mem_mem, readByte_writeByte_word, if_pos rfl]

/-- C is the bit shifted out. -/
theorem flag_c_shiftFlags : flag .c (shiftFlags out r s) = out := flag_shiftFlags .c out r s

/-- Z and N are those of the result. -/
theorem hasZN_shiftFlags : HasZN r (shiftFlags out r s) := hasZN_setZN r _

theorem flag_n_shiftFlags : flag .n (shiftFlags out r s) = r.getLsbD 7 := (hasZN_shiftFlags out r s).2

end

/-! ## The bits of the results -/

/-- LSR shifts a 0 in (R171). -/
theorem lsrByte_bit7 (v : Byte) : (lsrByte v).getLsbD 7 = false := by simp [lsrByte]

/-- ROR shifts the old carry in (R173). -/
theorem rorByte_bit7 (c : Bool) (v : Byte) : (rorByte c v).getLsbD 7 = c := by simp [rorByte]

/-- ROL shifts the old carry in on the right (R172). -/
theorem getElem_rolByte (c : Bool) (v : Byte) {k : Nat} (hk : k < 8) :
    (rolByte c v)[k] = if k = 0 then c else v[k - 1] := by
  cases k with
  | zero => simp [rolByte]
  | succ k => simp [rolByte]

/-! ## ROL of A as a rotation -/

/-- The nine bits that ROL of A moves around: C, then A from its highest bit to its lowest. -/
def carryRing (s : State) : List Bool := flag .c s :: List.ofFn fun i : Fin 8 => s.a.getLsbD i.rev

theorem length_carryRing (s : State) : (carryRing s).length = 9 := by simp [carryRing]

/-- The ring says what A and C are. -/
theorem carryRing_inj {s t : State} (h : carryRing t = carryRing s) : t.a = s.a ∧ flag .c t = flag .c s := by
  obtain ⟨hc, hbits⟩ := List.cons.inj h
  refine ⟨BitVec.eq_of_getLsbD_eq fun k hk => ?_, hc⟩
  have hbit := congrFun (List.ofFn_injective hbits) (Fin.rev ⟨k, hk⟩)
  rwa [Fin.rev_rev] at hbit

/-- One ROL of A turns the ring by one place. -/
theorem exec_rol_acc_rotates (s : State) :
    ∃ t, exec (.rol .acc) s = .next t ∧ carryRing t = (carryRing s).rotate 1 := by
  refine ⟨_, exec_rol .acc s, ?_⟩
  simp [carryRing, flag_c_shiftFlags, targetValue, getElem_rolByte, List.ofFn_succ, Fin.rev]

/-- `n` ROLs of A turn the ring by `n` places. -/
theorem execTimes_rol_acc_rotates (n : Nat) (s : State) :
    ∃ t, execTimes n (.rol .acc) s = .next t ∧ carryRing t = (carryRing s).rotate n := by
  induction n generalizing s with
  | zero => exact ⟨s, rfl, (List.rotate_zero _).symm⟩
  | succ n ih =>
    obtain ⟨u, hexec, hu⟩ := exec_rol_acc_rotates s
    obtain ⟨t, htimes, ht⟩ := ih u
    refine ⟨t, by rw [execTimes, hexec]; exact htimes, ?_⟩
    rw [ht, hu, List.rotate_rotate, Nat.add_comm]

/-- Nine ROLs bring every bit back to its place (R172). -/
theorem nine_rol_acc_restore (s : State) :
    ∃ t, execTimes 9 (.rol .acc) s = .next t ∧ t.a = s.a ∧ flag .c t = flag .c s := by
  obtain ⟨t, htimes, ht⟩ := execTimes_rol_acc_rotates 9 s
  rw [← length_carryRing s, List.rotate_length] at ht
  exact ⟨t, htimes, carryRing_inj ht⟩

end Sys2Proof.Machine

open Sys2Proof Sys2Proof.Machine

/-- Settles O24: each is `modifyTarget` of its byte function under the flags of a shift, and moves on; nine ROLs of A
are a full turn of the ring of C and A. -/
theorem leftShiftsMoveBitSevenToCarry : Obligations.LeftShiftsMoveBitSevenToCarry := by
  unfold Obligations.LeftShiftsMoveBitSevenToCarry
  refine ⟨fun o s => ?asl, fun o s => ?rol, nine_rol_acc_restore, hasRows_opcodes .ASL, hasRows_opcodes .ROL⟩
  case asl =>
    exact ⟨_, aslByte (targetValue o s), exec_asl o s, holdsResult_shiftFlags o _ _ _ s, aslByte_toNat _,
      flag_c_shiftFlags _ _ _, hasZN_shiftFlags _ _ _, movesOn_of_exec (exec_asl o s) rfl⟩
  case rol =>
    exact ⟨_, rolByte (flag .c s) (targetValue o s), exec_rol o s, holdsResult_shiftFlags o _ _ _ s,
      rolByte_toNat _ _, flag_c_shiftFlags _ _ _, hasZN_shiftFlags _ _ _, movesOn_of_exec (exec_rol o s) rfl⟩

/-- Settles O25: each is `modifyTarget` of its byte function under the flags of a shift, and moves on; N is the bit
shifted in, which is 0 for LSR and the old carry for ROR. -/
theorem rightShiftsMoveBitZeroToCarry : Obligations.RightShiftsMoveBitZeroToCarry := by
  unfold Obligations.RightShiftsMoveBitZeroToCarry
  refine ⟨fun o s => ?lsr, fun o s => ?ror, hasRows_opcodes .LSR, hasRows_opcodes .ROR⟩
  case lsr =>
    exact ⟨_, lsrByte (targetValue o s), exec_lsr o s, holdsResult_shiftFlags o _ _ _ s, lsrByte_toNat _,
      flag_c_shiftFlags _ _ _, hasZN_shiftFlags _ _ _, (flag_n_shiftFlags _ _ _).trans (lsrByte_bit7 _),
      movesOn_of_exec (exec_lsr o s) rfl⟩
  case ror =>
    exact ⟨_, rorByte (flag .c s) (targetValue o s), exec_ror o s, holdsResult_shiftFlags o _ _ _ s,
      rorByte_toNat _ _, flag_c_shiftFlags _ _ _, hasZN_shiftFlags _ _ _,
      (flag_n_shiftFlags _ _ _).trans (rorByte_bit7 _ _), movesOn_of_exec (exec_ror o s) rfl⟩
end

section
/-! PROOF. Compares and BIT (45_compare_bit.md R180 to R183): the flags Compare and the bit test leave, and the
instructions that can raise V (10_state.md R50). -/

namespace Sys2Proof.Machine

/-- Compare leaves C set exactly when no borrow is needed. -/
theorem flag_c_compareReg_iff (r m : Byte) (s : State) :
    flag .c (compareReg r m s) = true ↔ m.toNat ≤ r.toNat :=
  (Bool.eq_iff_iff.mp (flag_compareReg .c r m s)).trans decide_eq_true_iff

/-- Compare leaves the Z and N of the wrapped difference. -/
theorem hasZN_compareReg (r m : Byte) (s : State) : HasZN (r - m) (compareReg r m s) :=
  ⟨flag_compareReg .z r m s, (flag_compareReg .n r m s).trans (msb_eq_bit7 _)⟩

/-- BIT's Z, by A as it was before the operand was read. -/
theorem flag_z_bitTest_loadSource_iff (o : Source) (m : Byte) (s : State) :
    flag .z (bitTest m (loadSource o s).2) = true ↔ s.a &&& m = 0 := by
  have hz : flag .z (bitTest m (loadSource o s).2) = ((loadSource o s).2.a &&& m == 0) := flag_bitTest .z m _
  rw [hz, loadSource_a, beq_iff_eq]

/-- The instructions with V in their row of the flag table: CLV, which clears it, and five that can raise it. -/
theorem clv_or_raises_of_v_mem_writtenFlags {i : Instr} (h : .v ∈ writtenFlags i) :
    i = .clv ∨ i.mnemonic ∈ [some Mnemonic.BIT, some .ADC, some .SBC, some .PLP, some .RTI] := by
  cases i with
  | clv => exact .inl rfl
  | bit m | adc o | sbc o | plp | rti => exact .inr (by simp [Instr.mnemonic])
  | lda o | ldx o | ldy o | sta m | stx m | sty m | tax | tay | txa | tya | tsx | txs | and o | ora o | eor o | asl o
  | lsr o | rol o | ror o | cmp o | cpx o | cpy o | inc m | dec m | inx | dex | iny | dey | bcc d | bcs d | beq d | bne d
  | bmi d | bpl d | bvc d | bvs d | clc | sec | cli | sei | cld | sed | pha | pla | php | jsr w | rts | jmp o | brk | nop
  | ill op => simp [writtenFlags] at h

/-- An instruction that changes V has it in its row of the flag table. -/
theorem v_mem_writtenFlags_of_changed {i : Instr} {s t : State} (hexec : exec i s = .next t)
    (hchanged : flag .v t ≠ flag .v s) : .v ∈ writtenFlags i := by
  obtain ⟨t', hexec', -, hflag, -⟩ := everyInstructionKeepsAllButItsTable i s
  obtain rfl := Host.Outcome.next.inj (hexec.symm.trans hexec')
  exact of_not_not (mt (hflag .v) hchanged)

theorem flag_v_after_clv {s t : State} (hexec : exec .clv s = .next t) : flag .v t = false := by
  obtain rfl := Host.Outcome.next.inj ((exec_clv s).symm.trans hexec)
  exact flag_setFlag_self .v false _

end Sys2Proof.Machine

open Sys2Proof Sys2Proof.Machine

/-- Settles O26: each is Compare of its register with the operand after the operand is read, and moves on. -/
theorem comparesChangeOnlyFlags : Obligations.ComparesChangeOnlyFlags := by
  unfold Obligations.ComparesChangeOnlyFlags
  refine ⟨fun o s => ?cmp, fun o s => ?cpx, fun o s => ?cpy, hasRows_opcodes .CMP, hasRows_opcodes .CPX,
    hasRows_opcodes .CPY⟩
  case cmp =>
    exact ⟨_, exec_cmp o s, flag_c_compareReg_iff _ _ _, hasZN_compareReg _ _ _, movesOn_of_exec (exec_cmp o s) rfl⟩
  case cpx =>
    exact ⟨_, exec_cpx o s, flag_c_compareReg_iff _ _ _, hasZN_compareReg _ _ _, movesOn_of_exec (exec_cpx o s) rfl⟩
  case cpy =>
    exact ⟨_, exec_cpy o s, flag_c_compareReg_iff _ _ _, hasZN_compareReg _ _ _, movesOn_of_exec (exec_cpy o s) rfl⟩

/-- Settles O27: BIT is the bit test of the operand's byte, and moves on; an instruction that takes V to 1 has V in its
row of the flag table and is not CLV. -/
theorem bitTestLoadsNAndVFromTheOperand : Obligations.BitTestLoadsNAndVFromTheOperand := by
  unfold Obligations.BitTestLoadsNAndVFromTheOperand
  refine ⟨fun m s => ?bit, fun i s t hexec hclear hset => ?raises, hasRows_opcodes .BIT⟩
  case bit =>
    exact ⟨_, exec_bit m s, flag_z_bitTest_loadSource_iff (.mem m) _ s, flag_bitTest .n _ _, flag_bitTest .v _ _,
      movesOn_of_exec (exec_bit m s) rfl⟩
  case raises =>
    have hchanged : flag .v t ≠ flag .v s := by simp [hclear, hset]
    obtain rfl | hraises := clv_or_raises_of_v_mem_writtenFlags (v_mem_writtenFlags_of_changed hexec hchanged)
    · exact absurd hset (by simp [flag_v_after_clv hexec])
    · exact hraises
end

section
/-! PROOF. Increments and decrements (46_inc_dec.md R190 to R195): the byte that a read-modify-write of memory leaves and
its two transactions, and one subtracted modulo 256. -/

namespace Sys2Proof.Machine

/-- One subtracted from a byte, 0x00 wrapping to 0xFF. -/
theorem toNat_byte_sub_one (v : Byte) : (v - 1).toNat = (v.toNat + 255) % 256 := by
  rw [BitVec.toNat_sub, Nat.add_comm]
  rfl

section
variable (m : Addr) (f : Byte → Byte) (s : State)

/-- A read-modify-write leaves its result at the effective address (40_addressing_sequencer.md R117). -/
theorem readByte_modifyTarget_ea :
    readByte (modifyTarget (.mem m) f s).2.mem (resolve m s).1.ea.toNat = f (targetValue (.mem m) s) := by
  rw [modifyTarget_mem_mem, readByte_writeByte_word, if_pos rfl]

/-- A read-modify-write's transactions are the resolver's, then one read and one write at the effective address. -/
theorem modifyTarget_mem_bus_eq :
    (modifyTarget (.mem m) f s).2.bus = (resolve m s).2.bus ++
      [.read (resolve m s).1.ea (targetValue (.mem m) s),
        .write (resolve m s).1.ea (f (targetValue (.mem m) s))] := by
  simp [modifyTarget, targetValue]

end

end Sys2Proof.Machine

open Sys2Proof Sys2Proof.Machine

/-- Settles O28: each is SetZN of its result over the read-modify-write of the memory byte, which leaves that result
there, and moves on. -/
theorem incAndDecChangeOneMemoryByte : Obligations.IncAndDecChangeOneMemoryByte := by
  unfold Obligations.IncAndDecChangeOneMemoryByte
  refine ⟨fun m s => ?inc, fun m s => ?dec, hasRows_opcodes .INC, hasRows_opcodes .DEC,
    decodeEntry_none_of_mem 0x1A (by decide), decodeEntry_none_of_mem 0x3A (by decide)⟩
  case inc =>
    refine ⟨_, exec_inc m s, ?_⟩
    simp only [setZN_mem, setZN_bus, readByte_modifyTarget_ea]
    exact ⟨BitVec.toNat_add _ 1, hasZN_setZN _ _, movesOn_zn_of_exec (exec_inc m s) rfl rfl,
      modifyTarget_mem_bus_eq m (· + 1) s⟩
  case dec =>
    refine ⟨_, exec_dec m s, ?_⟩
    simp only [setZN_mem, setZN_bus, readByte_modifyTarget_ea]
    exact ⟨toNat_byte_sub_one _, hasZN_setZN _ _, movesOn_zn_of_exec (exec_dec m s) rfl rfl,
      modifyTarget_mem_bus_eq m (· - 1) s⟩

/-- Settles O29: each is SetZN of the new value over the write of its register, and moves on. -/
theorem indexRegistersCountModulo256 : Obligations.IndexRegistersCountModulo256 := by
  unfold Obligations.IndexRegistersCountModulo256
  refine ⟨fun s => ?inx, fun s => ?dex, fun s => ?iny, fun s => ?dey, hasRows_opcodes .INX, hasRows_opcodes .DEX,
    hasRows_opcodes .INY, hasRows_opcodes .DEY⟩
  case inx =>
    exact ⟨_, exec_inx s, BitVec.toNat_add _ 1, hasZN_setZN _ _, movesOn_zn_of_exec (exec_inx s) rfl rfl⟩
  case dex =>
    exact ⟨_, exec_dex s, toNat_byte_sub_one _, hasZN_setZN _ _, movesOn_zn_of_exec (exec_dex s) rfl rfl⟩
  case iny =>
    exact ⟨_, exec_iny s, BitVec.toNat_add _ 1, hasZN_setZN _ _, movesOn_zn_of_exec (exec_iny s) rfl rfl⟩
  case dey =>
    exact ⟨_, exec_dey s, toNat_byte_sub_one _, hasZN_setZN _ _, movesOn_zn_of_exec (exec_dey s) rfl rfl⟩
end

section
/-! PROOF. Branches and flag instructions (47_branch.md R200 to R208, 48_flag.md R210 to R216): one rule for the eight
branches, one for the seven flag instructions, and D's want of effect on whatever does not write I. -/

namespace Sys2Proof.Machine

/-- PC after a branch as a number: the advanced PC, or the target from it (R200). -/
theorem branch_pc_toNat (cond : Bool) (d : Byte) (s : State) :
    ((branch cond d s).pc.toNat : Int) = (s.pc.toNat + 2 + (if cond then d.toInt else 0)) % 65536 := by
  cases cond with
  | true => exact branch_target_toNat d s.pc
  | false =>
    have hpc : (branch false d s).pc.toNat = (s.pc.toNat + 2) % 65536 := BitVec.toNat_add s.pc 2
    rw [hpc]
    simp

theorem branch_bus (cond : Bool) (d : Byte) (s : State) : (branch cond d s).bus = s.bus := by
  cases cond <;> rfl

/-- Whatever executes as `branch` of its condition follows the branch rule. -/
theorem branchesWhen_of_exec {i : Byte → Instr} {cond : State → Bool}
    (hexec : ∀ d s, exec (i d) s = .next (branch (cond s) d s)) : BranchesWhen i cond := by
  intro d s
  have hframe : ChangesOnly [] [] [] s (branch (cond s) d s) := (ChangesOnly.refl s).branch (cond s) d
  exact ⟨_, hexec d s, branch_pc_toNat _ d s, hframe.keepsAllBut, hframe.runState_eq, branch_bus _ d s⟩

/-- Whatever executes as `setFlag` over the advanced PC, and is one byte long, follows the rule of the flag
instructions. -/
theorem writesFlag_of_exec {i : Instr} {f : Flag} {b : Bool}
    (hexec : ∀ s, exec i s = .next (setFlag f b (advance 1 s))) (hlen : i.length = 1) : WritesFlag i f b := by
  intro s
  have hframe : ChangesOnly [] [f] [] s (setFlag f b (advance 1 s)) :=
    ((ChangesOnly.refl s).advance 1).setFlag b List.mem_cons_self
  exact ⟨_, hexec s, flag_setFlag_self f b _, ⟨hframe.keepsAllBut, by rw [hlen]; rfl, rfl⟩, rfl⟩

theorem agreeButID_setFlag_d (d : Bool) (s : State) : AgreeButID s (setFlag .d d s) :=
  ⟨rfl, rfl, rfl, rfl, rfl, rfl, rfl, rfl, rfl, fun _ _ hd => flag_setFlag_ne hd d s⟩

/-- An instruction that does not write a flag leaves it as it is (10_state.md R50). -/
theorem flag_eq_of_not_mem_writtenFlags {i : Instr} {s t : State} {f : Flag} (hexec : exec i s = .next t)
    (hf : f ∉ writtenFlags i) : flag f t = flag f s := by
  obtain ⟨t', hexec', -, hflag, -⟩ := everyInstructionKeepsAllButItsTable i s
  obtain rfl := Host.Outcome.next.inj (hexec.symm.trans hexec')
  exact hflag f hf

/-- Whatever D is, an instruction that is not PHP and does not write I gives the same A and the same flags but D (R214,
R215): I is kept, and the others agree. -/
theorem exec_setFlag_d {i : Instr} (hphp : i ≠ .php) (hi : .i ∉ writtenFlags i) (d : Bool) (s : State) :
    ∃ t t', exec i s = .next t ∧ exec i (setFlag .d d s) = .next t' ∧ t'.a = t.a ∧
      ∀ f, f ≠ .d → flag f t' = flag f t := by
  obtain ⟨t, t', hexec, hexec', hagree⟩ :=
    interruptAndDecimalFlagsHaveNoEffect i s (setFlag .d d s) hphp (agreeButID_setFlag_d d s)
  refine ⟨t, t', hexec, hexec', hagree.a_eq, fun f hd => ?_⟩
  by_cases hf : f = .i
  · subst hf
    rw [flag_eq_of_not_mem_writtenFlags hexec hi, flag_eq_of_not_mem_writtenFlags hexec' hi, flag_setFlag_ne hd]
  · exact hagree.flag_eq hf hd

end Sys2Proof.Machine

open Sys2Proof Sys2Proof.Machine

/-- Settles O30: each of the eight is `branch` of its condition. -/
theorem branchesTestOneFlagAndMoveOnlyPc : Obligations.BranchesTestOneFlagAndMoveOnlyPc := by
  unfold Obligations.BranchesTestOneFlagAndMoveOnlyPc
  exact ⟨branchesWhen_of_exec exec_bcc, branchesWhen_of_exec exec_bcs, branchesWhen_of_exec exec_beq,
    branchesWhen_of_exec exec_bne, branchesWhen_of_exec exec_bmi, branchesWhen_of_exec exec_bpl,
    branchesWhen_of_exec exec_bvc, branchesWhen_of_exec exec_bvs, hasRows_opcodes .BCC, hasRows_opcodes .BCS,
    hasRows_opcodes .BEQ, hasRows_opcodes .BNE, hasRows_opcodes .BMI, hasRows_opcodes .BPL, hasRows_opcodes .BVC,
    hasRows_opcodes .BVS⟩

/-- Settles O31: each of the seven is `setFlag` over the advanced PC; ADC and SBC write no I, so D has no effect on
them. -/
theorem flagInstructionsTouchOneFlag : Obligations.FlagInstructionsTouchOneFlag := by
  unfold Obligations.FlagInstructionsTouchOneFlag
  refine ⟨writesFlag_of_exec exec_clc rfl, writesFlag_of_exec exec_sec rfl, writesFlag_of_exec exec_cli rfl,
    writesFlag_of_exec exec_sei rfl, writesFlag_of_exec exec_cld rfl, writesFlag_of_exec exec_sed rfl,
    writesFlag_of_exec exec_clv rfl, fun d o s => ?binary, rfl, hasRows_opcodes .CLC, hasRows_opcodes .SEC,
    hasRows_opcodes .CLI, hasRows_opcodes .SEI, hasRows_opcodes .CLD, hasRows_opcodes .SED, hasRows_opcodes .CLV⟩
  simp only [List.forall_mem_cons]
  exact ⟨exec_setFlag_d (i := .adc o) nofun (by simp [writtenFlags]) d s,
    exec_setFlag_d (i := .sbc o) nofun (by simp [writtenFlags]) d s, nofun⟩
end

section
/-! PROOF. The stack and the control transfers (49_stack_control.md R220 to R229): what pushes, pulls and pointer reads
leave, as numbers modulo 256 and 65536. -/

namespace Sys2Proof.Machine

/-- The rule of the instructions that run on, for the next state that exec is known to answer. -/
theorem changesOnly_of_exec {i : Instr} {s t : State} (hexec : exec i s = .next t) (hbrk : i ≠ .brk)
    (hill : ∀ op, i ≠ .ill op) : ChangesOnly (writtenRegs i) (writtenFlags i) (storedAddrs i s) s t := by
  obtain ⟨t', hexec', hframe⟩ := exec_changesOnly hbrk hill s
  obtain rfl := Host.Outcome.next.inj (hexec.symm.trans hexec')
  exact hframe

/-! ## Stack addresses -/

/-- The stack address `k` bytes above SP, as a number: the offset wraps in the stack page (10_state.md R35). -/
theorem stackAddr_add_toNat (sp k : Byte) : (stackAddr (sp + k)).toNat = 0x0100 + (sp.toNat + k.toNat) % 256 := by
  rw [stackAddr_toNat, BitVec.toNat_add]

theorem stackAddr_sub_one_toNat (sp : Byte) : (stackAddr (sp - 1)).toNat = 0x0100 + (sp.toNat + 255) % 256 := by
  rw [stackAddr_toNat, toNat_byte_sub_one]

/-- Two subtracted from a byte, modulo 256. -/
theorem toNat_byte_sub_two (b : Byte) : (b - 1 - 1).toNat = (b.toNat + 254) % 256 := by
  rw [toNat_byte_sub_one, toNat_byte_sub_one]
  omega

theorem byte_add_one_add_one (b : Byte) : b + 1 + 1 = b + 2 := by
  rw [BitVec.add_assoc]
  rfl

/-! ## Pushes -/

/-- A pushed byte stands where SP pointed (R114). -/
theorem readByte_push (v : Byte) (s : State) : readByte (push v s).mem (0x0100 + s.sp.toNat) = v := by
  obtain ⟨-, hread, -⟩ := pushWritesThenMovesSpDown v s
  exact hread

/-- The second of two pushes does not touch the byte of the first. -/
theorem readByte_push_push (v w : Byte) (s : State) :
    readByte (push w (push v s)).mem (0x0100 + s.sp.toNat) = v := by
  have hne : stackAddr s.sp ≠ stackAddr (s.sp - 1) := fun h => by
    have hsp := stackAddr_inj h
    bv_omega
  rw [← stackAddr_toNat, push_mem, readByte_writeByte_word, push_sp, if_neg hne, stackAddr_toNat, readByte_push]

/-- A pushed word comes back: high byte pushed first, low byte pulled first (R224, R225). -/
theorem pullWord_push_push (w : Word) (s : State) : (pullWord (push (loByte w) (push (hiByte w) s))).1 = w := by
  have hsp : s.sp - 1 - 1 + 1 = s.sp - 1 := sub_add_cancel _ 1
  have hsp' : s.sp - 1 + 1 = s.sp := sub_add_cancel _ 1
  have hlo : readByte (push (loByte w) (push (hiByte w) s)).mem (stackAddr (s.sp - 1)).toNat = loByte w := by
    rw [stackAddr_toNat]
    exact readByte_push (loByte w) (push (hiByte w) s)
  have hhi : readByte (push (loByte w) (push (hiByte w) s)).mem (stackAddr s.sp).toNat = hiByte w := by
    rw [stackAddr_toNat]
    exact readByte_push_push (hiByte w) (loByte w) s
  rw [pullWord_value, push_sp, push_sp, hsp, hsp', hlo, hhi, hiLo_hiByte_loByte]

/-- JSR pushes the bytes of opc + 2, the address of its last byte (R224). -/
theorem exec_jsr_eq (w : Word) (s : State) :
    exec (.jsr w) s = .next (setPc w (push (loByte (s.pc + 2)) (push (hiByte (s.pc + 2)) (advance 3 s)))) := by
  have hret : s.pc + 3 - 1 = s.pc + 2 := add_sub_assoc s.pc 3 1
  rw [exec_jsr, hret]

/-! ## Pulls -/

theorem pullWord_advance_value (len : Word) (s : State) : (pullWord (advance len s)).1 = (pullWord s).1 := rfl

theorem pullWord_setPc_value (w : Word) (s : State) : (pullWord (setPc w s)).1 = (pullWord s).1 := rfl

/-- The pulled word as a number: the low byte from one above SP, the high byte from two above (R225). -/
theorem pullWord_toNat (s : State) :
    (pullWord s).1.toNat = (readByte s.mem (0x0100 + (s.sp.toNat + 2) % 256)).toNat * 256 +
      (readByte s.mem (0x0100 + (s.sp.toNat + 1) % 256)).toNat := by
  rw [pullWord_value, byte_add_one_add_one, stackAddr_add_toNat, stackAddr_add_toNat, hiLo_toNat]
  rfl

theorem pullWord_sp_toNat (s : State) : (pullWord s).2.sp.toNat = (s.sp.toNat + 2) % 256 := by
  rw [pullWord_sp, byte_add_one_add_one, BitVec.toNat_add]
  rfl

/-- Pulling P takes every flag but B from the byte one above SP (R223). -/
theorem flag_pullP_of_ne_b {f : Flag} (hb : f ≠ .b) (s : State) :
    flag f (pullP s) = (readByte s.mem (0x0100 + (s.sp.toNat + 1) % 256)).getLsbD (flagBit f) := by
  rw [flag_pullP, if_neg hb, stackAddr_add_toNat]
  rfl

/-- P after a pull: B from before, bit 5 at 1, the rest from the byte one above SP (R223). -/
theorem getP_pullP_eq (s : State) :
    getP (pullP s) =
      (readByte s.mem (0x0100 + (s.sp.toNat + 1) % 256) &&& 0xCF) ||| (getP s &&& 0x10) ||| 0x20 := by
  rw [getP_pullP, stackAddr_add_toNat, pulledP, BitVec.or_assoc _ 0x20 0x20, BitVec.or_self]
  rfl

/-- The byte PHP pushes, pulled by PLP over the same B, is P again (R222, R223; D8). -/
theorem pulledP_of_pushed (q : Byte) :
    pulledP ((q ||| 0x20) ||| 0x30) (q ||| 0x20) ||| 0x20 = q ||| 0x20 := by
  revert q
  decide

theorem getP_pullP_advance (len : Word) (s : State) : getP (pullP (advance len s)) = getP (pullP s) := rfl

theorem getP_pullP_push (s : State) : getP (pullP (push (getP s ||| 0x30) s)) = getP s := by
  obtain ⟨hpop, -⟩ := pop_push (getP s ||| 0x30) s
  rw [pop_value] at hpop
  rw [getP_pullP, hpop, getP_push]
  exact pulledP_of_pushed s.p

end Sys2Proof.Machine

open Sys2Proof Sys2Proof.Machine

/-- Settles O32: PHA is a push of A, and moves on. -/
theorem phaPushesA : Obligations.PhaPushesA := by
  unfold Obligations.PhaPushesA
  exact ⟨fun s => ⟨_, exec_pha s, readByte_push s.a (advance 1 s), toNat_byte_sub_one s.sp,
    movesOn_of_exec (exec_pha s) rfl⟩, hasRows_opcodes .PHA⟩

/-- Settles O33: PLA is SetZN of the popped byte over the write of A, and moves on. -/
theorem plaPullsAAndSetsZN : Obligations.PlaPullsAAndSetsZN := by
  unfold Obligations.PlaPullsAAndSetsZN
  refine ⟨fun s => ⟨_, exec_pla s, ?_, BitVec.toNat_add s.sp 1, hasZN_setZN _ _, ?_⟩, hasRows_opcodes .PLA⟩
  · exact congrArg (readByte s.mem) (stackAddr_add_toNat s.sp 1)
  · exact movesOn_zn_of_exec (exec_pla s) rfl rfl

/-- Settles O34: PHP is a push of P with bits 4 and 5 set, and moves on. -/
theorem phpPushesPWithBitsFourAndFive : Obligations.PhpPushesPWithBitsFourAndFive := by
  unfold Obligations.PhpPushesPWithBitsFourAndFive
  exact ⟨fun s => ⟨_, exec_php s, readByte_push _ (advance 1 s), toNat_byte_sub_one s.sp, rfl,
    movesOn_of_exec (exec_php s) rfl⟩, hasRows_opcodes .PHP⟩

/-- Settles O35: PLP is a pull of P, and moves on. -/
theorem plpPullsEveryFlagButB : Obligations.PlpPullsEveryFlagButB := by
  unfold Obligations.PlpPullsEveryFlagButB
  exact ⟨fun s => ⟨_, exec_plp s, fun _ hb => flag_pullP_of_ne_b hb (advance 1 s), getP_pullP_eq (advance 1 s),
    BitVec.toNat_add s.sp 1, movesOn_of_exec (exec_plp s) rfl⟩, hasRows_opcodes .PLP⟩

/-- Settles O36: the byte pushed is P but for the bits a pull does not take, and SP comes back. -/
theorem phpThenPlpRestoresP : Obligations.PhpThenPlpRestoresP := by
  unfold Obligations.PhpThenPlpRestoresP
  intro s
  refine ⟨_, _, exec_php s, exec_plp _, ?_, by simp⟩
  rw [getP_pullP_advance, ← getP_advance 1 s, getP_pullP_push]

/-- Settles O37: JSR is a push of each byte of opc + 2 and a jump; the second push does not touch the first's byte. -/
theorem jsrPushesItsLastByteAddressAndJumps : Obligations.JsrPushesItsLastByteAddressAndJumps := by
  unfold Obligations.JsrPushesItsLastByteAddressAndJumps
  refine ⟨fun target s => ⟨_, exec_jsr_eq target s, ?_⟩, hasRows_opcodes .JSR, fun lo hi => rfl⟩
  have hret : (s.pc + 2).toNat = (s.pc.toNat + 2) % 65536 := BitVec.toNat_add s.pc 2
  have hframe := changesOnly_of_exec (exec_jsr_eq target s) nofun nofun
  refine ⟨?hi, ?lo, toNat_byte_sub_two s.sp, rfl, hframe.runState_eq, hframe.keepsAllBut, ?bus⟩
  case hi =>
    rw [← hret, ← hiByte_toNat, setPc_mem, ← advance_sp 3 s, readByte_push_push]
  case lo =>
    rw [← hret, ← loByte_toNat, ← toNat_byte_sub_one, setPc_mem, ← advance_sp 3 s, ← push_sp, readByte_push]
  case bus =>
    rw [← toNat_byte_sub_one, ← stackAddr_toNat, ← stackAddr_toNat, BitVec.ofNat_toNat, BitVec.ofNat_toNat,
      BitVec.setWidth_eq, BitVec.setWidth_eq, ← hret]
    exact List.append_assoc _ _ _

/-- Settles O38, by the word two pulls give; after a JSR that is the word pushed, opc + 2. -/
theorem rtsReturnsToThePulledWordPlusOne : Obligations.RtsReturnsToThePulledWordPlusOne := by
  unfold Obligations.RtsReturnsToThePulledWordPlusOne
  refine ⟨fun s => ?rts, fun target s => ?jsr, hasRows_opcodes .RTS⟩
  case rts =>
    have hframe := changesOnly_of_exec (exec_rts s) nofun nofun
    refine ⟨_, exec_rts s, ?_, pullWord_sp_toNat (advance 1 s), hframe.keepsAllBut, hframe.runState_eq⟩
    rw [setPc_pc, BitVec.toNat_add, pullWord_toNat]
    rfl
  case jsr =>
    refine ⟨_, _, exec_jsr_eq target s, exec_rts _, ?_, by simp⟩
    rw [setPc_pc, pullWord_advance_value, pullWord_setPc_value, pullWord_push_push, BitVec.add_assoc]
    rfl

/-- Settles O39: RTI is a pull of P and then of the word PC takes. -/
theorem rtiPullsPAndThenPc : Obligations.RtiPullsPAndThenPc := by
  unfold Obligations.RtiPullsPAndThenPc
  refine ⟨fun s => ⟨_, exec_rti s, ?_⟩, hasRows_opcodes .RTI⟩
  have hframe := changesOnly_of_exec (exec_rti s) nofun nofun
  have habove (k : Nat) : ((pullP (advance 1 s)).sp.toNat + k) % 256 = (s.sp.toNat + (k + 1)) % 256 := by
    have hsp : (pullP (advance 1 s)).sp.toNat = (s.sp.toNat + 1) % 256 := BitVec.toNat_add s.sp 1
    rw [hsp]
    omega
  refine ⟨fun f hb => ?flags, ?status, ?pc, ?sp, hframe.keepsAllBut, hframe.runState_eq⟩
  case flags =>
    rw [flag_setPc, flag_pullWord]
    exact flag_pullP_of_ne_b hb (advance 1 s)
  case status =>
    rw [getP_setPc, getP_pullWord]
    exact getP_pullP_eq (advance 1 s)
  case pc =>
    rw [setPc_pc, pullWord_toNat, habove, habove]
    rfl
  case sp => rw [setPc_sp, pullWord_sp_toNat, habove]

/-- Settles O40: JMP goes to its operand, or to the word of the two reads that its pointer names. -/
theorem jmpGoesToItsTarget : Obligations.JmpGoesToItsTarget := by
  unfold Obligations.JmpGoesToItsTarget
  refine ⟨fun w s => ?abs, fun ptr s => ?ind, hasRows_opcodes .JMP, fun lo hi => ⟨rfl, rfl⟩⟩
  case abs =>
    have hframe := changesOnly_of_exec (exec_jmp (.abs w) s) nofun nofun
    exact ⟨_, exec_jmp (.abs w) s, rfl, rfl, hframe.keepsAllBut, hframe.runState_eq⟩
  case ind =>
    have hframe := changesOnly_of_exec (exec_jmp (.ind ptr) s) nofun nofun
    refine ⟨_, exec_jmp (.ind ptr) s, ?_⟩
    simp only [← pointerHighAddr_toNat, BitVec.ofNat_toNat, BitVec.setWidth_eq]
    exact ⟨hiLo_toNat _ _, readPair_bus _ _ s, hframe.keepsAllBut, hframe.runState_eq⟩

/-- Settles O41: NOP is the advance of PC alone. -/
theorem nopOnlyAdvancesPc : Obligations.NopOnlyAdvancesPc := by
  unfold Obligations.NopOnlyAdvancesPc
  exact ⟨fun s => ⟨_, exec_nop s, BitVec.toNat_add s.pc 1, rfl⟩, hasRows_opcodes .NOP⟩

/-- Settles O42, by the state before the halt under the two values of BRK_HALT_PC_ADVANCE; the halt writes the run
state alone. -/
theorem brkSetsBAndHalts : Obligations.BrkSetsBAndHalts := by
  unfold Obligations.BrkSetsBAndHalts
  intro s
  refine ⟨_, exec_brk s, rfl, ?_, (changesOnly_before_halt s).keepsAllBut, ?_⟩
  · cases s.params.brkHaltPcAdvance <;> exact flag_setFlag_self .b true s
  · cases s.params.brkHaltPcAdvance <;> exact ⟨rfl, rfl⟩
end

section
/-! PROOF. The three ends of a step and the host's runs (60_exceptions.md R240 to R244, R250): the opcode byte at PC
selects the end, and a run is its steps, one after the other, until the block stops. -/

namespace Sys2Proof.Machine

/-! ## The end that the opcode byte selects -/

/-- Only BRK's byte is fetched as BRK, with no operand byte. -/
theorem step_of_brk_byte {s : State} (hrun : s.runState = .running) (hbyte : readByte s.mem s.pc.toNat = 0x00) :
    step s = exec .brk { s with bus := [.read s.pc 0x00] } := by
  obtain ⟨rest, hdecode⟩ : ∃ rest, decode (bytesAtPc s) = .ok (.brk, rest) := by
    rw [bytesAtPc, hbyte]
    exact ⟨_, rfl⟩
  rw [stepRunsTheDecodedInstruction s .brk rest hrun hdecode, bytesAtPc, hbyte]
  rfl

/-- An undocumented byte faults: it is recorded with its address, and its fetch is the step's one transaction (R241). -/
theorem step_of_undocumented_byte {s : State} (hrun : s.runState = .running)
    (hbyte : readByte s.mem s.pc.toNat ∈ undocumentedOpcodes) :
    step s = .next { s with
      runState := .faulted (readByte s.mem s.pc.toNat) s.pc, bus := [.read s.pc (readByte s.mem s.pc.toNat)] } := by
  have hdecode := decode_undocumented (decodeEntry_none_of_mem _ hbyte)
    [readByte s.mem (s.pc + 1).toNat, readByte s.mem (s.pc + 2).toNat]
  exact stepRunsTheDecodedInstruction s _ _ hrun hdecode

/-- Any other byte leaves the block Running. -/
theorem step_of_other_byte {s : State} (hrun : s.runState = .running) (hbrk : readByte s.mem s.pc.toNat ≠ 0x00)
    (hill : readByte s.mem s.pc.toNat ∉ undocumentedOpcodes) : ∃ t, step s = .next t ∧ t.runState = .running := by
  obtain ⟨b1, b2, bus, hfetch⟩ := fetch_clearBus s
  have hnotIll : ∀ op, assemble (readByte s.mem s.pc.toNat) b1 b2 ≠ .ill op := fun op h => by
    obtain ⟨hop, hmem⟩ := opcode_of_assemble_ill h
    exact hill (hop ▸ hmem)
  obtain ⟨t, hexec, hframe⟩ := exec_changesOnly (mt opcode_of_assemble_brk hbrk) hnotIll { s with bus := bus }
  exact ⟨t, by rw [step_of_running hrun, hfetch]; exact hexec, hframe.runState_eq.trans hrun⟩

/-! ## Runs -/

theorem runFor_succ_of_running {s t : State} (n : Nat) (hrun : s.runState = .running) (hstep : step s = .next t) :
    runFor (n + 1) s = runFor n t := by
  simp only [runFor, hrun, hstep]

/-- A stopped block does not run (R244). -/
theorem runFor_of_stopped {s : State} (hstop : s.runState ≠ .running) (n : Nat) : runFor n s = .next s := by
  cases n with
  | zero => rfl
  | succ n =>
    unfold runFor
    split
    · next hrun => exact absurd hrun hstop
    · rfl
    · rfl

theorem runFor_one_of_running {s : State} (hrun : s.runState = .running) : runFor 1 s = step s := by
  obtain ⟨t, hstep⟩ := step_answers_next s
  rw [runFor_succ_of_running 0 hrun hstep, hstep, runFor]

/-- A run of `n + k` steps is a run of `n` and then of `k` from where that one stopped. -/
theorem runFor_add (n k : Nat) (s : State) : ∃ t, runFor n s = .next t ∧ runFor (n + k) s = runFor k t := by
  induction n generalizing s with
  | zero => exact ⟨s, rfl, by rw [Nat.zero_add]⟩
  | succ n ih =>
    by_cases hrun : s.runState = .running
    · obtain ⟨u, hstep⟩ := step_answers_next s
      rw [Nat.succ_add, runFor_succ_of_running n hrun hstep, runFor_succ_of_running (n + k) hrun hstep]
      exact ih u
    · exact ⟨s, runFor_of_stopped hrun _, by rw [runFor_of_stopped hrun, runFor_of_stopped hrun]⟩

end Sys2Proof.Machine

open Sys2Proof Sys2Proof.Machine

/-- Settles O46, by the three ends of a step. -/
theorem theOpcodeByteSelectsTheOutcome : Obligations.TheOpcodeByteSelectsTheOutcome := by
  unfold Obligations.TheOpcodeByteSelectsTheOutcome
  intro s hrun
  obtain ⟨t, hstep⟩ := step_answers_next s
  refine ⟨t, hstep, fun hbyte => ?halt, fun hbyte => ?fault, fun hbrk hill => ?run⟩
  case halt =>
    rw [step_of_brk_byte hrun hbyte, exec_brk] at hstep
    exact Host.Outcome.next.inj hstep ▸ rfl
  case fault =>
    rw [step_of_undocumented_byte hrun hbyte] at hstep
    exact Host.Outcome.next.inj hstep ▸ rfl
  case run =>
    obtain ⟨t', hstep', hrun'⟩ := step_of_other_byte hrun hbrk hill
    exact Host.Outcome.next.inj (hstep'.symm.trans hstep) ▸ hrun'

/-- Settles O43: ILL writes the run state alone, and its step has fetched the opcode byte alone. -/
theorem illegalOpcodeIsRecordedAndChangesNothing : Obligations.IllegalOpcodeIsRecordedAndChangesNothing := by
  unfold Obligations.IllegalOpcodeIsRecordedAndChangesNothing
  exact ⟨fun op s => ⟨_, exec_ill op s, rfl, rfl⟩, fun _ => step_of_undocumented_byte⟩

/-- Settles O45: a stopped block neither steps nor runs. -/
theorem terminalStatesDoNotStep : Obligations.TerminalStatesDoNotStep := by
  unfold Obligations.TerminalStatesDoNotStep
  exact fun s hstop => ⟨step_of_stopped hstop, runFor_of_stopped hstop⟩

/-- Settles O56, by the composition of runs, by induction on the steps of the first. -/
theorem runsOfStepsCompose : Obligations.RunsOfStepsCompose := by
  unfold Obligations.RunsOfStepsCompose
  exact ⟨fun _ => rfl, fun _ => runFor_one_of_running, fun n _ _ => runFor_succ_of_running n, runFor_add, fun _ => rfl,
    fun _ => rfl, fun _ _ => rfl⟩
end

section
/-! PROOF. The reset, the loader and the launch (70_reset_and_hazards.md R260 to R262): where PC and the transactions of
a reset come from, what a reset depends on, and where the loader leaves each byte. -/

namespace Sys2Proof.Machine

/-! ## The reset -/

theorem resetBlock_sp (s : State) : (resetBlock s).sp = s.params.spReset := rfl

theorem getP_resetBlock (s : State) : getP (resetBlock s) = 0x24 := by
  rw [getP, resetBlock_p]
  rfl

/-- Under START_PC the reset reads nothing (R262). -/
theorem resetBlock_of_startPc {s : State} {start : Word} (h : s.params.startPc = some start) :
    (resetBlock s).pc = start ∧ (resetBlock s).bus = [] := by
  simp [resetPc, h]

/-- Without START_PC the reset reads the vector, and PC is its word (R262). -/
theorem resetBlock_of_vector {s : State} (h : s.params.startPc = none) :
    (resetBlock s).pc = inspectWord resetVector s ∧
      (resetBlock s).bus = [.read 0xFFFC (readByte s.mem 0xFFFC), .read 0xFFFD (readByte s.mem 0xFFFD)] := by
  have hreset : resetPc (clearBus s) = memRead16 resetVector (clearBus s) := by
    simp only [resetPc, clearBus_params, h]
  rw [resetBlock_pc, resetBlock_bus, hreset]
  exact ⟨rfl, readPair_bus _ _ (clearBus s)⟩

/-- The reset depends on memory and the parameters alone. -/
theorem resetBlock_congr {s s' : State} (hmem : s'.mem = s.mem) (hparams : s'.params = s.params) :
    resetBlock s' = resetBlock s := by
  simp only [resetBlock, resetPc, clearBus_params, hparams]
  cases s.params.startPc with
  | none => simp [memRead16, readPair, busRead, clearBus, hmem, hparams]
  | some start => simp [clearBus, hmem, hparams]

/-- Over canonical memory the reset meets the invariant, from any state (10_state.md R41, R47). -/
theorem inv_resetBlock {s : State} (hwf : s.mem.wf = true) : Inv (resetBlock s) := by
  have hb : flag .b (resetBlock s) = false := by
    rw [flag, getP_resetBlock]
    rfl
  refine ⟨by rwa [resetBlock_mem], by rw [resetBlock_p]; rfl, ?_, trivial⟩
  rw [hb, resetBlock_runState]
  exact iff_of_false nofun nofun

/-! ## The loader and the launch -/

/-- The loader leaves LOAD_ADDR in the vector (R261). -/
theorem inspectWord_resetVector_loadProgram (program : List Byte) (s : State) :
    inspectWord resetVector (loadProgram program s) = s.params.loadAddr :=
  inspectWord_inspectWriteWord resetVector s.params.loadAddr
    { s with mem := writeBytes s.mem s.params.loadAddr program }

/-- A start is the launch over the memory and the parameters at hand: nothing else of the state comes through. -/
theorem loadAndReset_eq_launch (program : List Byte) (s : State) :
    loadAndReset program s = launch s.params s.mem program :=
  resetBlock_congr rfl rfl

section
variable (params : Params) (m : Memory) (program : List Byte)

/-- After a launch PC is START_PC, or LOAD_ADDR by way of the vector (R262). -/
theorem launch_pc : (launch params m program).pc = params.startPc.getD params.loadAddr := by
  rw [launch_eq]
  cases h : params.startPc with
  | none =>
    obtain ⟨hpc, -⟩ := resetBlock_of_vector
      (s := loadProgram program { State.reset with mem := m, params := params }) h
    rw [hpc, inspectWord_resetVector_loadProgram, Option.getD_none]
  | some start =>
    obtain ⟨hpc, -⟩ := resetBlock_of_startPc
      (s := loadProgram program { State.reset with mem := m, params := params }) h
    rw [hpc, Option.getD_some]

/-- A byte after a launch: the vector's two over the program's, and the initial ones elsewhere (R261, D15). -/
theorem readByte_launch (a : Word) :
    readByte (launch params m program).mem a.toNat =
      if a = 0xFFFD then hiByte params.loadAddr else if a = 0xFFFC then loByte params.loadAddr
      else readByte (writeBytes m params.loadAddr program) a.toNat := by
  rw [launch_mem]
  exact readByte_writeWord _ resetVector a params.loadAddr

theorem readByte_launch_of_ne_vector {a : Word} (hlo : a ≠ 0xFFFC) (hhi : a ≠ 0xFFFD) :
    readByte (launch params m program).mem a.toNat =
      readByte (writeBytes m params.loadAddr program) a.toNat := by
  rw [readByte_launch, if_neg hhi, if_neg hlo]

end

end Sys2Proof.Machine

open Sys2Proof Sys2Proof.Machine

/-- Settles O1, by the two sources of PC; every other field is a reset value or kept. -/
theorem resetLeavesTheResetValues : Obligations.ResetLeavesTheResetValues := by
  unfold Obligations.ResetLeavesTheResetValues
  refine ⟨fun s => ?_, rfl⟩
  refine ⟨rfl, rfl, rfl, resetBlock_sp s, getP_resetBlock s, rfl, resetBlock_mem s, resetBlock_params s,
    fun _ => resetBlock_of_startPc, fun hnone => ?_⟩
  obtain ⟨hpc, hbus⟩ := resetBlock_of_vector hnone
  rw [hpc]
  exact ⟨inspectWord_toNat resetVector s, hbus⟩

/-- Settles O2: the vector's word is written over the program's bytes, and those over the initial ones. -/
theorem launchPlacesProgramAndVector : Obligations.LaunchPlacesProgramAndVector := by
  unfold Obligations.LaunchPlacesProgramAndVector
  intro params m program hlen
  refine ⟨readByte_launch params m program 0xFFFC, readByte_launch params m program 0xFFFD,
    fun k b hk hlo hhi => ?program, fun a hmiss hlo hhi => ?initial, rfl, launch_pc params m program⟩
  case program => rw [readByte_launch_of_ne_vector params m program hlo hhi, readByte_writeBytes_hit hlen hk]
  case initial => rw [readByte_launch_of_ne_vector params m program hlo hhi, readByte_writeBytes_miss hmiss]

/-- Settles O4: the loader's writes keep the canonical form, and the reset meets the invariant over it. -/
theorem launchMeetsTheInvariant : Obligations.LaunchMeetsTheInvariant := by
  unfold Obligations.LaunchMeetsTheInvariant
  intro params m program hwf
  rw [launch_eq]
  exact inv_resetBlock (wf_writeWord (wf_writeBytes hwf _ program) _ _)

/-- Settles O60: a start is the launch over the block's own memory and parameters. -/
theorem startRestartsFromAnyState : Obligations.StartRestartsFromAnyState := by
  unfold Obligations.StartRestartsFromAnyState
  refine ⟨fun program s => ⟨_, rfl, loadAndReset_eq_launch program s, rfl, rfl, rfl, rfl, rfl, getP_resetBlock _⟩,
    fun program s s' hmem hparams => ?_⟩
  simp only [hostControl, loadAndReset_eq_launch, hmem, hparams]
end

section
/-! PROOF. The informative cycle counts (70_reset_and_hazards.md R268 to R270): an instruction's base count and
page-cross flag are its row's, and a crossed page adds to the reads that are sensitive and to the taken branches. -/

namespace Sys2Proof.Machine

/-- The base count and the page-cross flag of an instruction's row (R268, R269). -/
def timingRow (i : Instr) : Option (Nat × Bool) :=
  (i.opcode.bind decodeEntry).map fun e => (e.baseCycles, e.pageCrossAddsCycle)

/-- The flag of an entry is the one of its mnemonic and mode (R269). -/
theorem pageCrossAddsCycle_of_decodeEntry {op : Byte} {e : DecodeEntry} (h : decodeEntry op = some e) :
    e.pageCrossAddsCycle = pageCrossAddsCycle e.mnemonic e.mode := by
  unfold decodeEntry at h
  split at h
  · nomatch h
  · obtain rfl := Option.some.inj h
    rfl

theorem timingRow_of_decodeEntry {i : Instr} {op : Byte} {e : DecodeEntry} (hop : i.opcode = some op)
    (he : decodeEntry op = some e) : timingRow i = some (e.baseCycles, e.pageCrossAddsCycle) := by
  rw [timingRow, hop, Option.bind_some, he, Option.map_some]

section
variable {i : Instr} {n : Nat} {s : State}

/-- The count of an instruction that is no branch: one more for a crossed page in a sensitive row (R269). -/
theorem cycles_of_no_branch {c : Bool} (hrow : timingRow i = some (n, c)) (hbranch : branchTaken i s = none) :
    cycles i s = some (n + if c && pageCross i s then 1 else 0) := by
  obtain ⟨e, he, hpair⟩ := Option.map_eq_some_iff.mp hrow
  obtain ⟨rfl, rfl⟩ := Prod.mk.inj hpair
  simp only [cycles, he, extraCycles, hbranch]

/-- The count of a branch: the base when not taken, one more when taken, two more across a page (R270). -/
theorem cycles_of_branch {c taken : Bool} (hrow : timingRow i = some (n, c)) (hbranch : branchTaken i s = some taken) :
    cycles i s = some (n + if taken then (if pageCross i s then 2 else 1) else 0) := by
  obtain ⟨e, he, hpair⟩ := Option.map_eq_some_iff.mp hrow
  obtain ⟨rfl, rfl⟩ := Prod.mk.inj hpair
  simp only [cycles, he, extraCycles, hbranch]

/-- A row that is not sensitive takes its base count, crossing or not. -/
theorem cycles_of_insensitive (hrow : timingRow i = some (n, false)) (hbranch : branchTaken i s = none) :
    cycles i s = some n :=
  cycles_of_no_branch hrow hbranch

/-- A sensitive read takes one more cycle when the indexed high byte differs from the base's (R269). -/
theorem cycles_of_indexed_read {base len : Word} {index : Byte} (hrow : timingRow i = some (n, true))
    (hbranch : branchTaken i s = none) (hcross : pageCross i s = (indexed base index len).pcross) :
    cycles i s =
      some (if (base.toNat + index.toNat) % 65536 / 256 = base.toNat / 256 then n else n + 1) := by
  have hpage := indexed_pcross_iff base index len
  rw [indexed_ea_toNat, ← hcross] at hpage
  rw [cycles_of_no_branch hrow hbranch, Bool.true_and]
  by_cases hsame : (base.toNat + index.toNat) % 65536 / 256 = base.toNat / 256
  · rw [if_neg (by simpa [hpage] using hsame), if_pos hsame]; rfl
  · rw [if_pos (hpage.mpr hsame), if_neg hsame]

/-- A branch's page-cross signal compares the pages of opc + 2 and of the target (R270, D20). -/
theorem resolveRelative_pcross_iff (d : Byte) (s : State) :
    (resolveRelative d s).pcross = true ↔
      ((s.pc.toNat : Int) + 2 + d.toInt) % 65536 / 256 ≠ (((s.pc.toNat + 2) % 65536 : Nat) : Int) / 256 := by
  obtain ⟨-, hrelative, -⟩ := relativeTargetIsSignedFromTheAdvancedPc
  obtain ⟨htarget, -, hcross⟩ := hrelative d s
  rw [hcross, ← htarget]
  omega

/-- A branch takes 2 cycles when not taken, 3 when taken in the page of opc + 2, and 4 across it (R270). -/
theorem cycles_of_relative {c taken : Bool} {d : Byte} (hrow : timingRow i = some (2, c))
    (hbranch : branchTaken i s = some taken) (hcross : pageCross i s = (resolveRelative d s).pcross) :
    cycles i s = some (if taken then
      (if ((s.pc.toNat : Int) + 2 + d.toInt) % 65536 / 256 = (((s.pc.toNat + 2) % 65536 : Nat) : Int) / 256
        then 3 else 4) else 2) := by
  have hpage := resolveRelative_pcross_iff d s
  rw [cycles_of_branch hrow hbranch, hcross]
  cases taken with
  | false => rfl
  | true =>
    by_cases hsame :
        ((s.pc.toNat : Int) + 2 + d.toInt) % 65536 / 256 = (((s.pc.toNat + 2) % 65536 : Nat) : Int) / 256
    · simp only [if_true, if_neg (mt hpage.mp (not_not_intro hsame)), if_pos hsame]
    · simp only [if_true, if_pos (hpage.mpr hsame), if_neg hsame]

/-- An instruction whose row is not Relative is no branch. -/
theorem branchTaken_of_not_relative {op : Byte} {e : DecodeEntry} (hop : i.opcode = some op)
    (he : decodeEntry op = some e) (hmode : e.mode ≠ .relative) : branchTaken i s = none := by
  cases i with
  | bcc d | bcs d | beq d | bne d | bmi d | bpl d | bvc d | bvs d =>
    obtain rfl := Option.some.inj hop
    obtain rfl := Option.some.inj he
    exact absurd rfl hmode
  | _ => rfl

end

end Sys2Proof.Machine

open Sys2Proof Sys2Proof.Machine

/-- Settles O57, by the row of each instruction and the page-cross signal of an indexed address and of a branch. -/
theorem cyclesOfIndexedReadsAndBranches : Obligations.CyclesOfIndexedReadsAndBranches := by
  unfold Obligations.CyclesOfIndexedReadsAndBranches
  simp only [List.forall_mem_cons, List.not_mem_nil, IsEmpty.forall_iff, implies_true, and_true]
  refine ⟨fun op e he => ?rows, fun w s => ?absX, fun w s => ?absY, fun z s => ?indY, fun w z s => ?writes,
    fun d s => ?branches, fun i s op e hop he hc hmode => ?others⟩
  case rows =>
    rw [pageCrossAddsCycle_of_decodeEntry he, pageCrossAddsCycle, Bool.and_eq_true, List.contains_iff_mem,
      List.contains_iff_mem]
  case absX =>
    and_intros <;> exact cycles_of_indexed_read (len := 3) rfl rfl rfl
  case absY =>
    and_intros <;> exact cycles_of_indexed_read (len := 3) rfl rfl rfl
  case indY =>
    simp only [← zpRead16_toNat]
    and_intros <;> exact cycles_of_indexed_read (len := 2) rfl rfl rfl
  case writes =>
    and_intros <;> exact cycles_of_insensitive rfl rfl
  case branches =>
    and_intros <;> exact cycles_of_relative rfl rfl rfl
  case others =>
    have hrow := timingRow_of_decodeEntry hop he
    rw [hc] at hrow
    exact cycles_of_insensitive hrow (branchTaken_of_not_relative hop he hmode)
end
